-- ==== Sys2Proof/Word.lean ====
section
/-! DEFINITION. The word and byte types of the compression CORE (00_scope.md R12, R15, R16). -/

namespace Sys2Proof

/-- A host register, an address or a length: REG_W = ADDR_W = LEN_W = 32 bits (R12). -/
abbrev Word := BitVec 32

/-- An element of a ByteBuffer, a `u8` (R15). -/
abbrev Byte := BitVec 8

end Sys2Proof
end

