-- ==== Sys2Proof/Config.lean ====
section
/-! DEFINITION. What a build or a platform fixes, the constants of the formats, and the free values
the spec leaves open (00_scope.md R12, R13; 92_eei_decisions.md section 4; 93_implementation_defined.md). -/

namespace Sys2Proof.Config

/-- LZ77_MIN_MATCH (R12): the shortest match emitted as a back-reference. -/
abbrev minMatch : Nat := 3

/-- RLE_MAX_RUN (R12): the longest run in one RLE record. -/
abbrev maxRun : Nat := 255

/-- MAX_SYMBOLS (R12): distinct byte values. -/
abbrev maxSymbols : Nat := 256

/-- The number of bytes of the data space, 2^ADDR_W (R12, 20_memory.md R80). -/
abbrev spaceSize : Nat := 2 ^ 32

/-- The value of the register ID (10_state.md R40). -/
abbrev idValue : Word := 0x434D5052#32

/-- The build parameters, readable in CFG (10_state.md R41).
The field widths are the upper bounds of R13; `Build.wf` is the lower one. -/
structure Build where
  windowSize    : BitVec 16
  lookaheadSize : BitVec 8
deriving DecidableEq, Repr

/-- The reference defaults 4096 and 16 (R12). -/
def defaultBuild : Build := ⟨4096#16, 16#8⟩

/-- A range of data-space addresses `[base, base + size)`. -/
structure Region where
  base : Nat
  size : Nat
deriving DecidableEq, Repr

/-- What the platform decides about the data space (20_memory.md R82): the windows that are NOT
ordinary memory (R90). -/
structure Platform where
  devices : List Region
deriving DecidableEq, Repr

/-- Whether the implementation honours a posted abort request, at the given draw
(40_dispatch.md R163; 93 U7). DESIGN CHOICE (log 7): a free value; nothing can be proved of it. -/
opaque abortHonoured : Nat → Bool

/-- A byte of the destination region that the spec lets hold any value, at the given draw and
address (20_memory.md R91; 93 U4, U5, U11). DESIGN CHOICE (log 8, log 10): a free value. -/
opaque freeByte : Nat → Nat → Byte

/-- What a host register read returns while `rst_n = 0`, at the given draw
(70_reset_and_hazards.md R340; 93 U15). DESIGN CHOICE (log 13): a free value. -/
opaque freeWord : Nat → Word

end Sys2Proof.Config
end

