-- ==== Sys2Proof/Syntax.lean ====
section
/-! DEFINITION. The six commands, the fields of a command word, and the host's program notation
(30_encoding.md R110 to R114, R131, R132). -/

namespace Sys2Proof

/-- The operations of the block, one constructor per row of spec/opcode_table.json
(00_scope.md R3, 30_encoding.md R114). A command has no operand field (R111). -/
inductive Instr where
  | hufC   -- HUF.C, Huffman compress
  | hufD   -- HUF.D, Huffman decompress
  | lzC    -- LZ.C, LZ77 compress
  | lzD    -- LZ.D, LZ77 decompress
  | rleC   -- RLE.C, RLE compress
  | rleD   -- RLE.D, RLE decompress
deriving DecidableEq, Repr

/-- The fields of a command word, format CMDW (R111). -/
structure CmdFields where
  alg  : BitVec 2
  dir  : BitVec 1
  rsvd : BitVec 29
deriving DecidableEq, Repr

/-- The columns ALG and DIR of R114 (R112: 1 Huffman, 2 LZ77, 3 RLE; R113: 0 compress, 1 decompress). -/
def Instr.fields : Instr → CmdFields
  | .hufC => ⟨1, 0, 0⟩
  | .hufD => ⟨1, 1, 0⟩
  | .lzC  => ⟨2, 0, 0⟩
  | .lzD  => ⟨2, 1, 0⟩
  | .rleC => ⟨3, 0, 0⟩
  | .rleD => ⟨3, 1, 0⟩

/-- The names of the register map (10_state.md R37). -/
inductive RegName where
  | id | cfg | ctrl | cmd | status | errCode | srcAddr | srcLen | dstAddr | dstCap | outLen
deriving DecidableEq, Repr

/-- What the outside does next: the host's register accesses, accesses to the data space by the host
or another agent, the reset pin, and the two entries that say which agent moves (log 5, log 6). -/
inductive Action where
  /-- `HostWrite(off, v)` (10_state.md R34). -/
  | hostWrite (off : BitVec 6) (v : Word)
  /-- `HostRead(off)` (R34). -/
  | hostRead (off : BitVec 6)
  /-- `HostRead(off)` again and again until the field `[hi:lo]` of the value equals `v`
  (30_encoding.md R131). -/
  | poll (off : BitVec 6) (hi lo : Nat) (v : Word)
  /-- An agent other than the core writes one byte of the data space (20_memory.md R81, R97). -/
  | dataWrite (addr : Word) (b : Byte)
  /-- An agent other than the core reads one byte of the data space. -/
  | dataRead (addr : Word)
  /-- `rst_n` falls (70_reset_and_hazards.md R340). -/
  | assertReset
  /-- `rst_n` rises (R340, R342). -/
  | releaseReset
  /-- From now on an accepted operation stays in flight while further actions happen (R360). -/
  | hold
  /-- The core completes what is in flight, and further operations at once (R360). -/
  | proceed
deriving DecidableEq, Repr

/-- A field of a register, bits `hi` down to `lo`: the `NAME.FIELD` of a `poll` line. -/
structure FieldRef where
  reg : RegName
  hi  : Nat
  lo  : Nat
deriving DecidableEq, Repr

/-- `STATUS.DONE` (10_state.md R46). -/
def FieldRef.done : FieldRef := ⟨.status, 1, 1⟩

/-- A line of a host program (30_encoding.md R131). The `t` of `rd NAME -> t` is the host's own: what
it gets is what the read returns. A `mem` line gives the bytes of `[a, b)` at the start, from `a` on. -/
inductive HostLine where
  | wr (reg : RegName) (v : Word)
  | rd (reg : RegName)
  | poll (field : FieldRef) (v : Word)
  | mem (base : Word) (bytes : List Byte)
deriving DecidableEq, Repr

/-- A pseudo-instruction (30_encoding.md R132). -/
inductive Pseudo where
  | command (i : Instr)
  | setup (s n d c : Word)
  | wait
  | ack
  | abort (e : Bool)
deriving DecidableEq, Repr

/-- A listing entry, `W off data` or `R off` (30_encoding.md R133). -/
inductive Listing where
  | w (off : BitVec 6) (data : Word)
  | r (off : BitVec 6)
deriving DecidableEq, Repr

end Sys2Proof
end

