-- ==== Sys2Proof/Machine/Hidden.lean ====
section
/-! DEFINITION. The hidden state of the block (10_state.md R61 to R67) and the free value it holds
between operations. -/

namespace Sys2Proof.Machine

/-- An entry of the Huffman node arena (R62): what a leaf carries and what an internal node carries.
A child is a node id, `none` for NULL. -/
inductive Node where
  | leaf (sym : Byte) (weight : BitVec 40)
  | internal (left right : Option Nat) (weight : BitVec 40)
deriving DecidableEq, Repr

/-- The tables and cursors of R61 to R67. -/
structure Hidden where
  /-- FREQ[0..255] (R61). -/
  freq    : Vector Word 256
  /-- PRESENT[0..255] (R61). -/
  present : Vector Bool 256
  /-- NODE, the entries in use, by id; NNODES is its length (R62; log 17). -/
  nodes   : List Node
  /-- ROOT (R62). -/
  root    : Nat
  /-- CODE[0..255]: a bit string each, `true` for 1 (R63). -/
  code    : Vector (List Bool) 256
  /-- ACC (R64). -/
  acc     : Byte
  /-- ACC_N (R64). -/
  accN    : Fin 8
  /-- BITPOS (R64). -/
  bitPos  : Word
  /-- CUR (R64). -/
  cur     : Nat
  /-- POS (R65). -/
  pos     : Word
  /-- BEST_D (R65). -/
  bestD   : BitVec 16
  /-- BEST_L (R65). -/
  bestL   : Byte
  /-- The decoder's record index (R65). -/
  recIdx  : Word
  /-- RUN_V (R66). -/
  runV    : Byte
  /-- RUN_C (R66). -/
  runC    : Byte
  /-- The RLE input index (R66). -/
  inIdx   : Word
  /-- outLen, the output counter (R67). -/
  outLen  : Word
deriving DecidableEq, Repr, Inhabited

/-- The hidden state of `State.reset`. DESIGN CHOICE (log 3): the spec gives none (R57). -/
def Hidden.zero : Hidden where
  freq := Vector.replicate 256 0
  present := Vector.replicate 256 false
  nodes := []
  root := 0
  code := Vector.replicate 256 []
  acc := 0
  accN := 0
  bitPos := 0
  cur := 0
  pos := 0
  bestD := 0
  bestL := 0
  recIdx := 0
  runV := 0
  runC := 0
  inIdx := 0
  outLen := 0

end Sys2Proof.Machine

/-- What the hidden state holds after a completion or a reset, at the given draw
(10_state.md R57, R68; 93 U14: any value). DESIGN CHOICE (log 4): a free value. -/
opaque Sys2Proof.Config.freeHidden : Nat → Sys2Proof.Machine.Hidden
end

