-- ==== Sys2Proof/Machine/State.lean ====
section
/-! DEFINITION. The state of the block and of its data space (10_state.md; 20_memory.md R80), its stops,
and the state right after reset (10_state.md R57; 70_reset_and_hazards.md R340, R342). -/

namespace Sys2Proof.Machine

/-- The data space: (address, byte) pairs, addresses strictly rising, no entry equal to what an
unlisted address reads as (`Memory.wf`). -/
abbrev Memory := List Host.Cell

/-- The ten legal values of ERR_CODE.CODE (10_state.md R48, 60_exceptions.md R300; log 16). -/
inductive ErrCode where
  | none
  | malformedHeader
  | truncatedRecord
  | invalidBackReference
  | corruptStream
  | unsupportedAlgorithm
  | outputOverflow
  | lengthOverflow
  | badRange
  | aborted
deriving DecidableEq, Repr

/-- Why the model stops with a fault. None is raised by the block itself, which has no traps. -/
inductive Fault where
  /-- An agent other than the core writes the source or the destination region while BUSY: raised by
  `step` on a `dataWrite`. Safe: the spec calls it a hazard violation (20_memory.md R95, 93 U12). -/
  | hazardWrite
  /-- A command is submitted with a source or destination region that is not ordinary memory: raised
  by taking a command. Safe: a premise violation of DATA_MEM (20_memory.md R90, 93 U13). -/
  | notOrdinaryMemory
  /-- An agent other than the core accesses a window of the platform's that is not ordinary memory:
  raised by `step` on a `dataWrite` or `dataRead`. Safe: the spec gives no such device a behaviour. -/
  | deviceAccess
deriving DecidableEq, Repr

/-- Why the model refuses. -/
inductive Refusal where
  /-- An instruction that has no meaning yet: raised by no arm of `exec` now. Safe. -/
  | notModelled (mnemonic : String)
  /-- A build whose parameters are outside the bounds is not this hardware: raised by `step`. Safe
  (00_scope.md R13, 93 U16). -/
  | buildOutOfRange
deriving DecidableEq, Repr

/-- Everything the spec gives the machine, the pins, and the model's own schedule. -/
structure State where
  /-- WINDOW_SIZE and LOOKAHEAD_SIZE, constants of the build (R41). -/
  build    : Config.Build
  /-- Which windows of the data space are not ordinary memory (20_memory.md R82, R90). -/
  platform : Config.Platform
  /-- CTRL.IRQ_EN (R42). -/
  irqEn    : Bool
  /-- STATUS.BUSY (R45). -/
  busy     : Bool
  /-- STATUS.DONE (R46). -/
  done     : Bool
  /-- STATUS.ERR (R47). -/
  err      : Bool
  /-- ERR_CODE.CODE (R48). -/
  errCode  : ErrCode
  /-- SRC_ADDR (R49). -/
  srcAddr  : Word
  /-- SRC_LEN (R50). -/
  srcLen   : Word
  /-- DST_ADDR (R51). -/
  dstAddr  : Word
  /-- DST_CAP (R52). -/
  dstCap   : Word
  /-- OUT_LEN (R53). -/
  outLen   : Word
  /-- cur_op, `none` for NONE (R60). -/
  curOp    : Option Instr
  /-- abort_req (R60). -/
  abortReq : Bool
  /-- The hidden state (R61 to R67). -/
  hidden   : Hidden
  /-- The data space (20_memory.md R80). -/
  mem      : Memory
  /-- The level of `rst_n`, `true` when released (R33). -/
  rstN     : Bool
  /-- `reg_rdata`, what the last host read returned (R33, R34). -/
  regRdata : Word
  /-- What the last data-space read of another agent returned (the model's own; log 14). -/
  dataRdata : Byte
  /-- The outside's actions still to come, the next one first (the model's own; log 5). -/
  agenda   : List Action
  /-- Whether an accepted operation stays in flight (the model's own; log 6). -/
  coreHeld : Bool
  /-- The counter the free values are applied to (the model's own; log 4). -/
  draws    : Nat
deriving DecidableEq, Repr

/-- The machine right after reset, for the reference build (R57, R340, R342): every register at its
reset value, idle, the interrupt disabled, nothing listed in the data space. -/
def State.reset : State where
  build := Config.defaultBuild
  platform := ⟨[]⟩
  irqEn := false
  busy := false
  done := false
  err := false
  errCode := .none
  srcAddr := 0
  srcLen := 0
  dstAddr := 0
  dstCap := 0
  outLen := 0
  curOp := none
  abortReq := false
  hidden := Hidden.zero
  mem := []
  rstN := true
  regRdata := 0
  dataRdata := 0
  agenda := []
  coreHeld := false
  draws := 0

end Sys2Proof.Machine
end

