-- ==== Sys2Proof/Machine/Flags.lean ====
section
/-! DEFINITION. The words that registers read as, the status flags and the interrupt line
(10_state.md R36, R41 to R48; 60_exceptions.md R300, R320). -/

namespace Sys2Proof.Machine

/-- The code numbers of R300. -/
def ErrCode.code : ErrCode → BitVec 4
  | .none => 0
  | .malformedHeader => 1
  | .truncatedRecord => 2
  | .invalidBackReference => 3
  | .corruptStream => 4
  | .unsupportedAlgorithm => 5
  | .outputOverflow => 6
  | .lengthOverflow => 7
  | .badRange => 8
  | .aborted => 9

/-- What CFG reads as: reserved `[31:24]` 0, LOOKAHEAD_SIZE `[23:16]`, WINDOW_SIZE `[15:0]` (R41). -/
def State.cfgWord (s : State) : Word := 0#8 ++ s.build.lookaheadSize ++ s.build.windowSize

/-- What CTRL reads as: IRQ_EN at bit 0, ABORT and the reserved bits 0 (R42, R43). -/
def State.ctrlWord (s : State) : Word := 0#31 ++ BitVec.ofBool s.irqEn

/-- What STATUS reads as: BUSY at bit 0, DONE at bit 1, ERR at bit 2, the rest 0 (R45 to R47). -/
def State.statusWord (s : State) : Word :=
  0#29 ++ BitVec.ofBool s.err ++ BitVec.ofBool s.done ++ BitVec.ofBool s.busy

/-- What ERR_CODE reads as: CODE at `[3:0]`, the rest 0 (R48). -/
def State.errCodeWord (s : State) : Word := 0#28 ++ s.errCode.code

/-- `irq = STATUS.DONE AND CTRL.IRQ_EN` (R36, R320). -/
def State.irq (s : State) : Bool := s.done && s.irqEn

/-- A host write of STATUS: DONE and ERR are write-1-to-clear, BUSY is never changed (R46, R47). -/
def State.writeStatus (v : Word) (s : State) : State :=
  { s with done := s.done && !v.getLsbD 1, err := s.err && !v.getLsbD 2 }

/-- A host write of CTRL: bit 0 is stored in IRQ_EN; bit 1 posts an abort request while BUSY (R42,
R43, 40_dispatch.md R165). -/
def State.writeCtrl (v : Word) (s : State) : State :=
  { s with irqEn := v.getLsbD 0, abortReq := s.abortReq || (s.busy && v.getLsbD 1) }

end Sys2Proof.Machine
end

