-- ==== Sys2Proof/Machine/Memory.lean ====
section
/-! DEFINITION. The data space: reading and writing one byte and a list of bytes
(20_memory.md R80, R83 to R87). -/

namespace Sys2Proof.Machine

/-- What an unlisted address reads as. DESIGN CHOICE (log 1): the spec gives no contents. -/
def Memory.unlisted : Byte := 0

/-- The canonical form: addresses strictly rising and inside the data space, no entry equal to what
an unlisted address reads as. -/
abbrev Memory.wf (m : Memory) : Prop :=
  m.Pairwise (fun x y => x.1 < y.1) ∧
    ∀ c ∈ m, c.1 < Config.spaceSize ∧ c.2 ≠ Memory.unlisted

/-- `MemRead(addr, 1)` (R85). -/
def Memory.read : Memory → Nat → Byte
  | [], _ => Memory.unlisted
  | (k, v) :: rest, a => if a = k then v else Memory.read rest a

/-- A cell, or nothing where it would equal what an unlisted address reads as. -/
def Memory.cell (a : Nat) (b : Byte) (rest : Memory) : Memory :=
  if b = Memory.unlisted then rest else (a, b) :: rest

/-- `MemWrite(addr, 1, v)` (R86), keeping the canonical form. -/
def Memory.write : Memory → Nat → Byte → Memory
  | [], a, b => Memory.cell a b []
  | (k, v) :: rest, a, b =>
    if a < k then Memory.cell a b ((k, v) :: rest)
    else if a = k then Memory.cell a b rest
    else (k, v) :: Memory.write rest a b

/-- The `n` bytes from `base` on, the lowest address first. -/
def Memory.readList (m : Memory) (base n : Nat) : List Byte :=
  (List.range n).map fun i => Memory.read m (base + i)

/-- The bytes written from `base` on, the lowest address first. -/
def Memory.writeList (m : Memory) (base : Nat) : List Byte → Memory
  | [] => m
  | b :: bs => Memory.writeList (Memory.write m base b) (base + 1) bs

/-- The `n` bytes from `base` on hold any value, drawn at `draw` (R91, 93 U4). -/
def Memory.spoil (m : Memory) (draw base : Nat) : Nat → Memory
  | 0 => m
  | n + 1 => Memory.write (Memory.spoil m draw base n) (base + n) (Config.freeByte draw (base + n))

end Sys2Proof.Machine
end

