-- ==== Sys2Proof/Machine/Stream.lean ====
section
/-! DEFINITION. The fields of the compressed streams: big-endian integers, bit packing, and what an
operation emits (00_scope.md R17 to R19; 30_encoding.md R120, R122). -/

namespace Sys2Proof.Machine

/-- `be16(v)` (R18): the two bytes of a `u16`, most significant first. -/
def be16 (v : BitVec 16) : List Byte := [v.extractLsb' 8 8, v.extractLsb' 0 8]

/-- `be32(v)` (R18): the four bytes of a `u32`, most significant first. -/
def be32 (v : Word) : List Byte :=
  [v.extractLsb' 24 8, v.extractLsb' 16 8, v.extractLsb' 8 8, v.extractLsb' 0 8]

/-- `rd_be16` (R18) of two bytes. -/
def rdBe16 (b0 b1 : Byte) : BitVec 16 := b0 ++ b1

/-- `rd_be32` (R18) of four bytes. -/
def rdBe32 (b0 b1 b2 b3 : Byte) : Word := b0 ++ b1 ++ b2 ++ b3

/-- `xs[i]` (R17); every use has `i < len(xs)`. -/
def byteAt (xs : List Byte) (i : Nat) : Byte := xs.getD i 0

/-- `rd_be16(xs, i)` (R18). -/
def be16At (xs : List Byte) (i : Nat) : BitVec 16 := rdBe16 (byteAt xs i) (byteAt xs (i + 1))

/-- `rd_be32(xs, i)` (R18). -/
def be32At (xs : List Byte) (i : Nat) : Word :=
  rdBe32 (byteAt xs i) (byteAt xs (i + 1)) (byteAt xs (i + 2)) (byteAt xs (i + 3))

/-- `ceil_div(a, b)` (R19). -/
def ceilDiv (a b : Nat) : Nat := (a + b - 1) / b

/-- What the rule of a command emits, byte after byte, when nothing bounds its output, and the error
it raises after the last of them (`none` where it ends in `finish()`). The capacity check is made as
the bytes are emitted (`emitAll`). -/
structure Emission where
  bytes : List Byte
  error : Option ErrCode
deriving DecidableEq, Repr

/-- The emission that ends in `raise e` before any `emit`. -/
def Emission.raised (e : ErrCode) : Emission := ⟨[], some e⟩

/-- The emission of the bytes that ends in `finish()`. -/
def Emission.finished (bytes : List Byte) : Emission := ⟨bytes, none⟩

/-- Bytes emitted before an emission. -/
def Emission.after (bs : List Byte) (em : Emission) : Emission := ⟨bs ++ em.bytes, em.error⟩

end Sys2Proof.Machine
end

