-- ==== Sys2Proof/Machine/Operands.lean ====
section
/-! DEFINITION. The operands of an operation: its regions, its input, what it has emitted, and the
checks on the regions (20_memory.md R90; 40_dispatch.md R153 to R156). -/

namespace Sys2Proof.Machine

/-- The source region `[SRC_ADDR, SRC_ADDR + SRC_LEN)` (00_scope.md R22). -/
def State.srcRegion (s : State) : Config.Region := ⟨s.srcAddr.toNat, s.srcLen.toNat⟩

/-- The destination region `[DST_ADDR, DST_ADDR + DST_CAP)` (R22). -/
def State.dstRegion (s : State) : Config.Region := ⟨s.dstAddr.toNat, s.dstCap.toNat⟩

/-- The number of bytes of the destination region that the data space has: a region that fails the
range check may extend past the last address, where there is no byte (20_memory.md R80; log 9). -/
def State.dstBytes (s : State) : Nat :=
  min s.dstRegion.size (Config.spaceSize - s.dstRegion.base)

/-- An address lies in a region. -/
def regionHas (r : Config.Region) (a : Nat) : Bool := decide (r.base ≤ a ∧ a < r.base + r.size)

/-- Two regions share a byte; an empty region overlaps nothing (R153). -/
def regionsMeet (p q : Config.Region) : Bool :=
  decide (0 < p.size ∧ 0 < q.size ∧ p.base < q.base + q.size ∧ q.base < p.base + p.size)

/-- The range check of R153 passes: neither region extends past 2^32 and they do not overlap. -/
def State.rangeOk (s : State) : Bool :=
  decide (s.srcRegion.base + s.srcRegion.size ≤ Config.spaceSize)
    && decide (s.dstRegion.base + s.dstRegion.size ≤ Config.spaceSize)
    && !regionsMeet s.srcRegion s.dstRegion

/-- Both regions are ordinary memory: no window of the platform's that is not meets them (R90). -/
def State.ordinary (s : State) : Bool :=
  s.platform.devices.all fun w => !regionsMeet w s.srcRegion && !regionsMeet w s.dstRegion

/-- The input `in`: `in[i] = MemRead(SRC_ADDR + i, 1)`, `n = SRC_LEN` (R155). -/
def State.source (s : State) : List Byte :=
  Memory.readList s.mem s.srcAddr.toNat s.srcLen.toNat

/-- `out`, the bytes emitted so far: the bytes at `DST_ADDR` on, `outLen` of them (R156). -/
def State.emitted (s : State) : List Byte :=
  Memory.readList s.mem s.dstAddr.toNat s.hidden.outLen.toNat

end Sys2Proof.Machine
end

