-- ==== Sys2Proof/Machine/Ops.lean ====
section
/-! DEFINITION. What every operation shares: taking a command, emitting, the two completions, abort
and reset (40_dispatch.md R150 to R163; 60_exceptions.md R310; 70_reset_and_hazards.md R340, R341). -/

namespace Sys2Proof.Machine

/-- Acceptance of a legal command (R151). -/
def accept (op : Instr) (s : State) : State :=
  { s with
    done := false, err := false, errCode := .none, outLen := 0, abortReq := false
    curOp := some op, busy := true, hidden := { s.hidden with outLen := 0 } }

/-- Rejection of an illegal command word (R152). -/
def reject (s : State) : State :=
  { s with done := true, err := true, errCode := .unsupportedAlgorithm, outLen := 0 }

/-- `emit(b)`, the only way an operation writes output; `none` where it raises OUTPUT_OVERFLOW (R157). -/
def emit (b : Byte) (s : State) : Option State :=
  if s.hidden.outLen = s.dstCap then none
  else some { s with
    mem := Memory.write s.mem (s.dstAddr.toNat + s.hidden.outLen.toNat) b
    hidden := { s.hidden with outLen := s.hidden.outLen + 1 } }

/-- `emit(xs)`: the bytes in order, and whether one of them did not fit (R157). -/
def emitAll : List Byte → State → State × Bool
  | [], s => (s, false)
  | b :: bs, s =>
    match emit b s with
    | none => (s, true)
    | some t => emitAll bs t

/-- `finish()`, successful completion (R159). The hidden state then holds any value (93 U14; log 4). -/
def finish (s : State) : State :=
  { s with
    outLen := s.hidden.outLen, errCode := .none, err := false, done := true, busy := false
    curOp := none, abortReq := false
    hidden := Config.freeHidden s.draws, draws := s.draws + 1 }

/-- Every byte of the destination region holds any value (20_memory.md R91; log 8, log 9). -/
def spoilDestination (s : State) : State :=
  { s with mem := Memory.spoil s.mem s.draws s.dstAddr.toNat s.dstBytes }

/-- The register effects of an error completion (R310). -/
def errorCompletion (e : ErrCode) (s : State) : State :=
  { s with
    outLen := 0, errCode := e, err := true, done := true, busy := false
    curOp := none, abortReq := false
    hidden := Config.freeHidden s.draws, draws := s.draws + 1 }

/-- `raise E`, error completion, the block's analogue of taking an exception (R310, R322). The
destination region is unchanged where nothing has been emitted and holds any value otherwise
(20_memory.md R91; log 8). -/
def raise (e : ErrCode) (s : State) : State :=
  errorCompletion e (if s.hidden.outLen = 0 then s else spoilDestination s)

/-- `raise ABORTED` (R163, 60_exceptions.md R309): the destination region holds any value
(20_memory.md R91; log 9). -/
def abort (s : State) : State := errorCompletion .aborted (spoilDestination s)

/-- The host's acknowledgement of a completion, the analogue of a return: a write of 0x6 to STATUS
(60_exceptions.md R323, 30_encoding.md R132). -/
def acknowledge (s : State) : State := s.writeStatus 6

/-- The operation in flight, from its range check to its completion in one step (20_memory.md R95):
an honoured abort request (R163), the range check (R153), then what the rule of the command emits
and how it ends. -/
def operate (rule : State → Emission) (s : State) : State :=
  if s.abortReq && Config.abortHonoured s.draws then abort s
  else if !s.rangeOk then raise .badRange s
  else
    let em := rule s
    match emitAll em.bytes s with
    | (t, true) => raise .outputOverflow t
    | (t, false) =>
      match em.error with
      | some e => raise e t
      | none => finish t

/-- The premise of R90 is broken for the regions the command would use (log 12). -/
def State.premiseBroken (s : State) : Bool := s.rangeOk && !s.ordinary

/-- A command is taken (R150): no effect while BUSY or while `rst_n = 0` (R54,
70_reset_and_hazards.md R340); otherwise it is accepted and goes on as `run` says. -/
def submit (op : Instr) (run : State → State) (s : State) : Host.Outcome State Fault Refusal :=
  if s.busy || !s.rstN then .next s
  else if s.premiseBroken then .fault .notOrdinaryMemory
  else .next (run (accept op s))

/-- The effect of `rst_n` falling on the registers (R340): every register at its reset value; the
hidden state is unspecified (R342). -/
def resetRegisters (s : State) : State :=
  { s with
    irqEn := false, busy := false, done := false, err := false, errCode := .none
    srcAddr := 0, srcLen := 0, dstAddr := 0, dstCap := 0, outLen := 0
    curOp := none, abortReq := false, rstN := false
    hidden := Config.freeHidden s.draws, draws := s.draws + 1 }

/-- `rst_n` falls (R340); an operation in flight is abandoned without a completion and leaves any
value in its destination region (R341; log 9). -/
def assertReset (s : State) : State :=
  resetRegisters (if s.busy then spoilDestination s else s)

/-- `rst_n` rises (R342): the block is idle. -/
def releaseReset (s : State) : State := { s with rstN := true }

end Sys2Proof.Machine
end

