-- ==== Sys2Proof/Machine/Huffman.lean ====
section
/-! DEFINITION. The Huffman codec: the tree builder, HUF.C and HUF.D (41_huffman.md). The tables of
10_state.md R61 to R63 are those of the hidden state: each phase writes what the next one reads. -/

namespace Sys2Proof.Machine

/-- The entry of a 256-entry table for a byte value. -/
def tableAt {α : Type} (t : Vector α 256) (v : Byte) : α := t[v.toNat]'v.isLt

/-- A 256-entry table with one entry replaced. -/
def tablePut {α : Type} (t : Vector α 256) (v : Byte) (x : α) : Vector α 256 := t.set v.toNat x v.isLt

/-- The byte values 0 to 255 in ascending order. -/
def allBytes : List Byte := (List.range Config.maxSymbols).map (BitVec.ofNat 8)

/-- FREQ and PRESENT cleared to all zero (10_state.md R61). -/
def clearFreq (h : Hidden) : Hidden :=
  { h with freq := Vector.replicate 256 0, present := Vector.replicate 256 false }

/-- An entry of the FrequencyTable. -/
def enterFreq (v : Byte) (f : Word) (h : Hidden) : Hidden :=
  { h with freq := tablePut h.freq v f, present := tablePut h.present v true }

/-- The frequency count of HUF.C (R180). -/
def countFreq (src : List Byte) (h : Hidden) : Hidden :=
  src.foldl (fun g v => enterFreq v (tableAt g.freq v + 1) g) (clearFreq h)

/-- The list `leaves`: `(v, FREQ[v])` for every present `v`, ascending (R181). -/
def leavesOf (h : Hidden) : List (Byte × Word) :=
  (allBytes.filter (tableAt h.present)).map fun v => (v, tableAt h.freq v)

/-- The weight a node carries (10_state.md R62). -/
def Node.weight : Node → BitVec 40
  | .leaf _ w => w
  | .internal _ _ w => w

/-- `NODE[x].weight`, a `u40` (R185). -/
def weightOf (nodes : List Node) (x : Nat) : BitVec 40 := (nodes[x]?.map Node.weight).getD 0

/-- `(NODE[x].weight, x)` is below `(NODE[y].weight, y)`: ties go to the smaller id (R182). -/
def lighter (nodes : List Node) (x y : Nat) : Bool :=
  decide (weightOf nodes x < weightOf nodes y ∨ (weightOf nodes x = weightOf nodes y ∧ x < y))

/-- `argmin_{x in live} (NODE[x].weight, x)`; `none` for the empty set (R182, 00_scope.md R19). -/
def lightest (nodes : List Node) : List Nat → Option Nat
  | [] => none
  | x :: xs => some (xs.foldl (fun best y => if lighter nodes y best then y else best) x)

/-- The merge loop of R182: `nodes` is the arena in use, so the next id is its length; `live` is the
live set. The fuel is the number of merges that may still come. -/
def mergeLoop : Nat → List Node → List Nat → List Node × List Nat
  | 0, nodes, live => (nodes, live)
  | fuel + 1, nodes, live =>
    match lightest nodes live with
    | none => (nodes, live)
    | some a =>
      match lightest nodes (live.erase a) with
      | none => (nodes, live)
      | some b =>
        mergeLoop fuel
          (nodes ++ [.internal (some a) (some b) (weightOf nodes a + weightOf nodes b)])
          (((live.erase a).erase b) ++ [nodes.length])

/-- The leaf nodes, leaf `e` at id `e` (R181). -/
def leafNodes (leaves : List (Byte × Word)) : List Node :=
  leaves.map fun p => .leaf p.1 (p.2.setWidth 40)

/-- `build_tree(leaves)`: the arena and the only element left live (R182). -/
def treeOf (leaves : List (Byte × Word)) : List Node × Nat :=
  let r := mergeLoop leaves.length (leafNodes leaves) (List.range leaves.length)
  (r.1, r.2.headD 0)

/-- `build_tree` on the FrequencyTable: writes NODE and ROOT (R182, R186). -/
def buildTree (h : Hidden) : Hidden :=
  let t := treeOf (leavesOf h)
  { h with nodes := t.1, root := t.2 }

/-- `walk(x, p)` of R183: the code of every leaf below `x` is its path. The fuel bounds the depth. -/
def walkCodes (nodes : List Node) :
    Nat → Nat → List Bool → Vector (List Bool) 256 → Vector (List Bool) 256
  | 0, _, _, t => t
  | fuel + 1, x, p, t =>
    match nodes[x]? with
    | some (.leaf sym _) => tablePut t sym p
    | some (.internal (some l) (some r) _) =>
      walkCodes nodes fuel r (p ++ [true]) (walkCodes nodes fuel l (p ++ [false]) t)
    | _ => t

/-- The CodeTable of a tree: a single leaf has the code `"0"` (R183). -/
def codesOf (nodes : List Node) (root : Nat) : Vector (List Bool) 256 :=
  match nodes[root]? with
  | some (.leaf sym _) => tablePut (Vector.replicate 256 []) sym [false]
  | _ => walkCodes nodes nodes.length root [] (Vector.replicate 256 [])

/-- `derive_codes()`: writes CODE (R183). -/
def deriveCodes (h : Hidden) : Hidden := { h with code := codesOf h.nodes h.root }

/-- `bitLength = sum over leaves of FREQ[v] * CODE[v].len` (R190, R200). -/
def bitLengthOf (h : Hidden) : Nat :=
  ((leavesOf h).map fun p => p.2.toNat * (tableAt h.code p.1).length).sum

/-- The output size `6 + 5k + ceil_div(bitLength, 8)` (R192, 30_encoding.md R121). -/
def huffSize (k bitLength : Nat) : Nat := 6 + 5 * k + ceilDiv bitLength 8

/-- The header (R193): symbolCount, the entries in ascending order of value, bitLength. -/
def huffHeader (h : Hidden) (bitLength : Nat) : List Byte :=
  be16 (BitVec.ofNat 16 (leavesOf h).length)
    ++ (leavesOf h).flatMap (fun p => p.1 :: be32 p.2)
    ++ be32 (BitVec.ofNat 32 bitLength)

/-- The bit stream: the codes of the input bytes in input order (R190). -/
def bitStream (h : Hidden) (src : List Byte) : List Bool := src.flatMap (tableAt h.code)

/-- Bit-packing (R194): `acc` and `accN` are ACC and ACC_N; the last byte is padded with zeros. -/
def packBits (acc : Byte) (accN : Nat) : List Bool → List Byte
  | [] => if 0 < accN then [acc <<< (8 - accN)] else []
  | b :: rest =>
    let acc' := acc * 2 + (BitVec.ofBool b).setWidth 8
    if accN + 1 = 8 then acc' :: packBits 0 0 rest else packBits acc' (accN + 1) rest

/-- The rule of HUF.C (R200), with the capacity DST_CAP for its size check (R192). -/
def huffCompress (cap : Nat) (src : List Byte) (h : Hidden) : Emission :=
  if src.length = 0 then .finished []
  else
    let h := deriveCodes (buildTree (countFreq src h))
    let bitLength := bitLengthOf h
    if 2 ^ 32 - 1 < bitLength then .raised .lengthOverflow
    else if cap < huffSize (leavesOf h).length bitLength then .raised .outputOverflow
    else .finished (huffHeader h bitLength ++ packBits 0 0 (bitStream h src))

/-- The header's entries, `e` the next one: a value that appears twice is refused (R220, R222). -/
def readEntries (src : List Byte) : Nat → Nat → Hidden → Option Hidden
  | 0, _, h => some h
  | left + 1, e, h =>
    let v := byteAt src (2 + 5 * e)
    if tableAt h.present v then none
    else readEntries src left (e + 1) (enterFreq v (be32At src (3 + 5 * e)) h)

/-- Stream bit `i` of the packed field that starts at byte `p0` (30_encoding.md R122). -/
def streamBit (src : List Byte) (p0 i : Nat) : Bool :=
  (byteAt src (p0 + i / 8)).getLsbD (7 - i % 8)

/-- The first `bitLength` bits of the packed field. -/
def streamBits (src : List Byte) (p0 bitLength : Nat) : List Bool :=
  (List.range bitLength).map (streamBit src p0)

/-- The virtual root of a one-symbol tree: its left child is the leaf, its right child NULL (R225). -/
def decoderRoot (h : Hidden) : Hidden :=
  match h.nodes[h.root]? with
  | some (.leaf _ w) =>
    { h with nodes := [h.nodes.headD (.leaf 0 0), .internal (some 0) none w], root := 1 }
  | _ => h

/-- The child a bit selects; `none` for NULL (R220). -/
def childOf (nodes : List Node) (x : Nat) (bit : Bool) : Option Nat :=
  match nodes[x]? with
  | some (.internal l r _) => if bit then r else l
  | _ => none

/-- The bit walk of HUF.D from the node `cur` (R220): a NULL child and an end inside a codeword are
corrupt (R226, R227); a leaf is emitted and the walk restarts at the root. -/
def walkBits (nodes : List Node) (root : Nat) : Nat → List Bool → Emission
  | cur, [] => if cur = root then .finished [] else .raised .corruptStream
  | cur, bit :: rest =>
    match childOf nodes cur bit with
    | none => .raised .corruptStream
    | some nxt =>
      match nodes[nxt]? with
      | some (.leaf sym _) => .after [sym] (walkBits nodes root root rest)
      | _ => walkBits nodes root nxt rest

/-- HUF.D once the header is read: `k` symbols, `bitLength` bits from byte `p0` on (R220, R223). -/
def huffPayload (src : List Byte) (k bitLength p0 : Nat) (h : Hidden) : Emission :=
  if k = 0 then
    if bitLength = 0 then .finished [] else .raised .corruptStream
  else
    let h := decoderRoot (buildTree h)
    walkBits h.nodes h.root h.root (streamBits src p0 bitLength)

/-- The rule of HUF.D (R220): the empty input (R221), the header checks (R222, R224), the walk. -/
def huffDecompress (src : List Byte) (h : Hidden) : Emission :=
  if src.length = 0 then .finished []
  else if src.length < 2 then .raised .malformedHeader
  else
    let k := (be16At src 0).toNat
    if Config.maxSymbols < k then .raised .malformedHeader
    else if src.length < 6 + 5 * k then .raised .malformedHeader
    else
      match readEntries src k 0 (clearFreq h) with
      | none => .raised .malformedHeader
      | some g =>
        let bitLength := (be32At src (2 + 5 * k)).toNat
        let p0 := 6 + 5 * k
        if src.length - p0 < ceilDiv bitLength 8 then .raised .malformedHeader
        else huffPayload src k bitLength p0 g

/-- HUF.C in flight, to its completion. -/
def completeHufC (s : State) : State :=
  operate (fun t => huffCompress t.dstCap.toNat t.source t.hidden) s

/-- HUF.D in flight, to its completion. -/
def completeHufD (s : State) : State := operate (fun t => huffDecompress t.source t.hidden) s

/-- HUF.C, Huffman compress (R200). -/
def execHufC (s : State) : Host.Outcome State Fault Refusal := submit .hufC completeHufC s

/-- HUF.D, Huffman decompress (R220). -/
def execHufD (s : State) : Host.Outcome State Fault Refusal := submit .hufD completeHufD s

end Sys2Proof.Machine
end

