-- ==== Sys2Proof/Machine/Lz77.lean ====
section
/-! DEFINITION. The LZ77 codec: LZ.C and LZ.D (42_lz77.md). -/

namespace Sys2Proof.Machine

/-- The number of leading equal bytes of the input from `i` and from `j` on, at most `maxLen` (the
inner loop of R241). -/
def matchLength (src : List Byte) (i j : Nat) : Nat → Nat
  | 0 => 0
  | maxLen + 1 =>
    if byteAt src i = byteAt src j then matchLength src (i + 1) (j + 1) maxLen + 1 else 0

/-- `maxLen = min(L, n - pos - 1)` (R243). -/
def maxMatch (lookahead n pos : Nat) : Nat := min lookahead (n - pos - 1)

/-- One candidate distance against the best so far, `(bestD, bestL)`: the longer wins, the earlier
(smaller) distance on a tie (R241). -/
def betterMatch (src : List Byte) (pos maxLen : Nat) (best : Nat × Nat) (d : Nat) : Nat × Nat :=
  let t := matchLength src (pos - d) pos maxLen
  if best.2 < t then (d, t) else best

/-- `match(pos)` (R241): the distances `1 .. min(W, pos)`, nearest first; `(bestD, bestL)`. -/
def findMatch (window lookahead : Nat) (src : List Byte) (pos : Nat) : Nat × Nat :=
  (List.range' 1 (min window pos)).foldl
    (betterMatch src pos (maxMatch lookahead src.length pos)) (0, 0)

/-- A record: distance, length, literal (30_encoding.md R126). -/
def lzRecord (d l : Nat) (c : Byte) : List Byte := be16 (BitVec.ofNat 16 d) ++ [BitVec.ofNat 8 l, c]

/-- The loop of LZ.C from the cursor `pos` (R244, R250). The fuel is the number of records that may
still come; the input length suffices, since every record advances the cursor. -/
def lzScan (window lookahead : Nat) (src : List Byte) : Nat → Nat → List Byte
  | 0, _ => []
  | fuel + 1, pos =>
    if pos < src.length then
      let best := findMatch window lookahead src pos
      if Config.minMatch ≤ best.2 then
        lzRecord best.1 best.2 (byteAt src (pos + best.2)) ++
          lzScan window lookahead src fuel (pos + best.2 + 1)
      else lzRecord 0 0 (byteAt src pos) ++ lzScan window lookahead src fuel (pos + 1)
    else []

/-- The rule of LZ.C (R250). -/
def lzCompress (window lookahead : Nat) (src : List Byte) : Emission :=
  .finished (lzScan window lookahead src src.length 0)

/-- `hist(d) = out[outLen - d]` (40_dispatch.md R158), of the output held newest byte first. -/
def hist (newest : List Byte) (d : Nat) : Byte := byteAt newest (d - 1)

/-- The copy from the growing output (R261): `hist(d)` is read again after every emit. -/
def copyBack (d : Nat) : Nat → List Byte → List Byte
  | 0, newest => newest
  | l + 1, newest => copyBack d l (hist newest d :: newest)

/-- The record loop of LZ.D (R260, R265, R266): `newest` is the output so far, newest byte first, so
`outLen` is its length. -/
def lzRecords (newest : List Byte) : List Byte → Emission
  | d0 :: d1 :: l :: c :: rest =>
    let d := (rdBe16 d0 d1).toNat
    if d = 0 ∧ l = 0 then lzRecords (c :: newest) rest
    else if d = 0 ∨ newest.length < d then ⟨newest.reverse, some .invalidBackReference⟩
    else lzRecords (c :: copyBack d l.toNat newest) rest
  | _ => .finished newest.reverse

/-- The rule of LZ.D (R265): a length that is not a multiple of 4 is truncated (R267). -/
def lzDecompress (src : List Byte) : Emission :=
  if src.length % 4 ≠ 0 then .raised .truncatedRecord
  else lzRecords [] src

/-- LZ.C in flight, to its completion. -/
def completeLzC (s : State) : State :=
  operate (fun t => lzCompress t.build.windowSize.toNat t.build.lookaheadSize.toNat t.source) s

/-- LZ.D in flight, to its completion. -/
def completeLzD (s : State) : State := operate (fun t => lzDecompress t.source) s

/-- LZ.C, LZ77 compress (R250). -/
def execLzC (s : State) : Host.Outcome State Fault Refusal := submit .lzC completeLzC s

/-- LZ.D, LZ77 decompress (R265). -/
def execLzD (s : State) : Host.Outcome State Fault Refusal := submit .lzD completeLzD s

end Sys2Proof.Machine
end

