-- ==== Sys2Proof/Machine/Rle.lean ====
section
/-! DEFINITION. The RLE codec: RLE.C and RLE.D (43_rle.md). -/

namespace Sys2Proof.Machine

/-- One record, `count` then `value` (30_encoding.md R129). -/
def rleRecord (count : Nat) (value : Byte) : List Byte := [BitVec.ofNat 8 count, value]

/-- Run detection (R280, R281): `runV` and `runC` are RUN_V and RUN_C, the list is the input after
them; a run is closed at a different byte, at 255, or at the end. -/
def rleScan (runV : Byte) (runC : Nat) : List Byte → List Byte
  | [] => rleRecord runC runV
  | b :: rest =>
    if b = runV ∧ runC < Config.maxRun then rleScan runV (runC + 1) rest
    else rleRecord runC runV ++ rleScan b 1 rest

/-- The rule of RLE.C (R285). -/
def rleCompress : List Byte → Emission
  | [] => .finished []
  | b :: rest => .finished (rleScan b 1 rest)

/-- The records of an RLE stream expanded in order; a count of 0 emits nothing (R292, R294). -/
def rleExpand : List Byte → List Byte
  | count :: value :: rest => List.replicate count.toNat value ++ rleExpand rest
  | _ => []

/-- The rule of RLE.D (R292): a stream of odd length is truncated (R293). -/
def rleDecompress (src : List Byte) : Emission :=
  if src.length % 2 ≠ 0 then .raised .truncatedRecord
  else .finished (rleExpand src)

/-- RLE.C in flight, to its completion. -/
def completeRleC (s : State) : State := operate (fun t => rleCompress t.source) s

/-- RLE.D in flight, to its completion. -/
def completeRleD (s : State) : State := operate (fun t => rleDecompress t.source) s

/-- RLE.C, RLE compress (R285). -/
def execRleC (s : State) : Host.Outcome State Fault Refusal := submit .rleC completeRleC s

/-- RLE.D, RLE decompress (R292). -/
def execRleD (s : State) : Host.Outcome State Fault Refusal := submit .rleD completeRleD s

end Sys2Proof.Machine
end

