-- ==== Sys2Proof/Machine/Dispatch.lean ====
section
/-! DEFINITION. The meaning of each command (30_encoding.md R114), one arm a row of the opcode table. -/

namespace Sys2Proof.Machine

def exec (i : Instr) (s : State) : Host.Outcome State Fault Refusal :=
  match i with
  | .hufC => Sys2Proof.Machine.execHufC s
  | .hufD => Sys2Proof.Machine.execHufD s
  | .lzC => Sys2Proof.Machine.execLzC s
  | .lzD => Sys2Proof.Machine.execLzD s
  | .rleC => Sys2Proof.Machine.execRleC s
  | .rleD => Sys2Proof.Machine.execRleD s

end Sys2Proof.Machine
end

