-- ==== Sys2Proof/WellFormed.lean ====
section
/-! DEFINITION. The checks on syntax and on a build (00_scope.md R13; 30_encoding.md R111, R115, R131). -/

namespace Sys2Proof

/-- Legal fields of a command word: RSVD is 0 and ALG names an algorithm (R111, R112, R115). -/
def CmdFields.wf (f : CmdFields) : Bool := f.rsvd == 0 && f.alg != 0

/-- A command is well-formed when its fields are legal. -/
def Instr.wf (i : Instr) : Bool := i.fields.wf

/-- `1 <= WINDOW_SIZE` and `1 <= LOOKAHEAD_SIZE` (R13; the widths give the upper bounds). -/
def Config.Build.wf (b : Config.Build) : Bool := b.windowSize != 0 && b.lookaheadSize != 0

/-- A field lies inside a 32-bit register (10_state.md R37). -/
def FieldRef.wf (f : FieldRef) : Bool := decide (f.lo ≤ f.hi ∧ f.hi < 32)

/-- A line of a host program is well-formed when a polled field lies inside its register and a placed
byte list fits the data space (30_encoding.md R131; 20_memory.md R80). A polled value is any 32-bit
number. -/
def HostLine.wf : HostLine → Bool
  | .wr _ _       => true
  | .rd _         => true
  | .poll f _     => f.wf
  | .mem base bs  => decide (base.toNat + bs.length ≤ Config.spaceSize)

end Sys2Proof
end

