-- ==== Sys2Proof/Decode.lean ====
section
/-! DEFINITION. The decoder and the encoder of command words (30_encoding.md R110 to R116). -/

namespace Sys2Proof

/-- Why a word is no command (R115). -/
inductive Illegal where
  /-- `RSVD != 0`. -/
  | reservedBits
  /-- `ALG = 0`. -/
  | noAlgorithm
deriving DecidableEq, Repr

/-- The fields ALG `[1:0]`, DIR `[2]` and RSVD `[31:3]` of a word (R111). -/
def cmdFields (w : Word) : CmdFields :=
  ⟨w.extractLsb' 0 2, w.extractLsb' 2 1, w.extractLsb' 3 29⟩

/-- Command decoding, a total function of the 32-bit word (R116). -/
def decode (w : Word) : Except Illegal Instr :=
  let f := cmdFields w
  if f.rsvd ≠ 0 then .error .reservedBits
  else if f.alg = 0 then .error .noAlgorithm
  else if f.alg = 1 then .ok (if f.dir = 0 then .hufC else .hufD)
  else if f.alg = 2 then .ok (if f.dir = 0 then .lzC else .lzD)
  else .ok (if f.dir = 0 then .rleC else .rleD)

/-- A word from its fields (R111). -/
def packFields (f : CmdFields) : Word := f.rsvd ++ f.dir ++ f.alg

/-- The word of a command (R114). -/
def encode (i : Instr) : Word := packFields i.fields

/-- The instruction read from a table row's bits. A command is ONE 32-bit word (R110), moved whole by
the register port, so it has no byte order (20_memory.md R83). -/
def decodeTableWord (nbits w : Nat) : Option Instr :=
  if nbits ≤ 32 then
    match decode (BitVec.ofNat 32 (w % 2 ^ nbits)) with
    | .ok i => some i
    | .error _ => none
  else none

end Sys2Proof
end

