-- ==== Sys2Proof/Machine/Registers.lean ====
section
/-! DEFINITION. The register window as the host reads and writes it (10_state.md R34, R37 to R54;
40_dispatch.md R165, R166). -/

namespace Sys2Proof.Machine

/-- The offset of a register (10_state.md R37). -/
def offsetOf : RegName → BitVec 6
  | .id => 0x00
  | .cfg => 0x04
  | .ctrl => 0x08
  | .cmd => 0x0C
  | .status => 0x10
  | .errCode => 0x14
  | .srcAddr => 0x18
  | .srcLen => 0x1C
  | .dstAddr => 0x20
  | .dstCap => 0x24
  | .outLen => 0x28

/-- The register at an offset, bits [1:0] of the offset ignored; `none` for a reserved offset (R34,
R37, R39). -/
def regAt (off : BitVec 6) : Option RegName :=
  match (off.extractLsb' 2 4).toNat with
  | 0 => some .id
  | 1 => some .cfg
  | 2 => some .ctrl
  | 3 => some .cmd
  | 4 => some .status
  | 5 => some .errCode
  | 6 => some .srcAddr
  | 7 => some .srcLen
  | 8 => some .dstAddr
  | 9 => some .dstCap
  | 10 => some .outLen
  | _ => none

/-- What a register reads as (R38, R40 to R53). -/
def readReg (r : RegName) (s : State) : Word :=
  match r with
  | .id => Config.idValue
  | .cfg => s.cfgWord
  | .ctrl => s.ctrlWord
  | .cmd => 0
  | .status => s.statusWord
  | .errCode => s.errCodeWord
  | .srcAddr => s.srcAddr
  | .srcLen => s.srcLen
  | .dstAddr => s.dstAddr
  | .dstCap => s.dstCap
  | .outLen => s.outLen

/-- `HostRead(off)` while `rst_n = 1`: a reserved offset reads 0 (R39, R166). -/
def readOffset (off : BitVec 6) (s : State) : Word :=
  match regAt off with
  | some r => readReg r s
  | none => 0

/-- The field `[hi:lo]` of a register's value, as a number (00_scope.md R16). -/
def fieldOf (hi lo : Nat) (w : Word) : Nat := w.toNat / 2 ^ lo % 2 ^ (hi + 1 - lo)

/-- What a host read returns: any value while `rst_n = 0` (70_reset_and_hazards.md R340; log 13). -/
def hostReadValue (off : BitVec 6) (s : State) : Word :=
  if s.rstN then readOffset off s else Config.freeWord s.draws

/-- A host read: the value goes to `reg_rdata`, no register changes (R166). -/
def hostRead (off : BitVec 6) (s : State) : State :=
  { s with regRdata := hostReadValue off s, draws := if s.rstN then s.draws else s.draws + 1 }

/-- A host write of a register other than CMD (R38, R54, R165). -/
def writeReg (r : RegName) (v : Word) (s : State) : State :=
  match r with
  | .ctrl => s.writeCtrl v
  | .status => s.writeStatus v
  | .srcAddr => if s.busy then s else { s with srcAddr := v }
  | .srcLen => if s.busy then s else { s with srcLen := v }
  | .dstAddr => if s.busy then s else { s with dstAddr := v }
  | .dstCap => if s.busy then s else { s with dstCap := v }
  | .id | .cfg | .cmd | .errCode | .outLen => s

end Sys2Proof.Machine
end

