-- ==== Sys2Proof/Machine/Agents.lean ====
section
/-! DEFINITION. What each action of the outside does, and the core's move (20_memory.md R81, R95;
40_dispatch.md R150, R165, R166; 70_reset_and_hazards.md R340, R350, R351, R360). -/

namespace Sys2Proof.Machine

/-- The core's move: the operation in flight goes to its completion (R95); nothing while idle. -/
def coreMove (s : State) : State :=
  match s.curOp with
  | none => s
  | some .hufC => completeHufC s
  | some .hufD => completeHufD s
  | some .lzC => completeLzC s
  | some .lzD => completeLzD s
  | some .rleC => completeRleC s
  | some .rleD => completeRleD s

/-- A host write of CMD (R150): ignored while BUSY; an illegal word is rejected (R152); a command is
run to its completion, or only accepted where the schedule holds the core (log 6). -/
def writeCmd (w : Word) (s : State) : Host.Outcome State Fault Refusal :=
  match decode w with
  | .error _ => if s.busy then .next s else .next (reject s)
  | .ok i => if s.coreHeld then submit i id s else exec i s

/-- `HostWrite(off, v)` (10_state.md R34): no effect while `rst_n = 0` (R340) and at a reserved
offset (R39). -/
def hostWrite (off : BitVec 6) (v : Word) (s : State) : Host.Outcome State Fault Refusal :=
  if !s.rstN then .next s
  else
    match regAt off with
    | none => .next s
    | some .cmd => writeCmd v s
    | some r => .next (writeReg r v s)

/-- A poll that is not satisfied leaves a busy core the next move (weak fairness, R360; log 6). -/
def fairMove (s : State) : State := if s.busy then coreMove s else s

/-- `poll` (30_encoding.md R131): one host read; it stays on the agenda until the field equals `v`, a
32-bit number, so that a number wider than the field never ends it. -/
def hostPoll (off : BitVec 6) (hi lo : Nat) (v : Word) (s : State) : State :=
  if fieldOf hi lo (hostReadValue off s) = v.toNat then hostRead off s
  else
    let t := fairMove (hostRead off s)
    { t with agenda := .poll off hi lo v :: t.agenda }

/-- An address of a window that is not ordinary memory (20_memory.md R82). -/
def State.isDevice (s : State) (a : Nat) : Bool := s.platform.devices.any fun w => regionHas w a

/-- Another agent writes a byte of the data space: into a region of the operation in flight it is a
hazard violation (R95, R350; 93 U12). -/
def dataWrite (addr : Word) (b : Byte) (s : State) : Host.Outcome State Fault Refusal :=
  if s.busy && (regionHas s.srcRegion addr.toNat || regionHas s.dstRegion addr.toNat) then
    .fault .hazardWrite
  else if s.isDevice addr.toNat then .fault .deviceAccess
  else .next { s with mem := Memory.write s.mem addr.toNat b }

/-- Another agent reads a byte of the data space: any value inside the destination region of the
operation in flight (R95, R351; 93 U11; log 10). -/
def dataRead (addr : Word) (s : State) : Host.Outcome State Fault Refusal :=
  if s.isDevice addr.toNat then .fault .deviceAccess
  else if s.busy && regionHas s.dstRegion addr.toNat then
    .next { s with dataRdata := Config.freeByte s.draws addr.toNat, draws := s.draws + 1 }
  else .next { s with dataRdata := Memory.read s.mem addr.toNat }

/-- The effect of one action of the outside. -/
def perform (a : Action) (s : State) : Host.Outcome State Fault Refusal :=
  match a with
  | .hostWrite off v => hostWrite off v s
  | .hostRead off => .next (hostRead off s)
  | .poll off hi lo v => .next (hostPoll off hi lo v s)
  | .dataWrite addr b => dataWrite addr b s
  | .dataRead addr => dataRead addr s
  | .assertReset => .next (assertReset s)
  | .releaseReset => .next (releaseReset s)
  | .hold => .next { s with coreHeld := true }
  | .proceed => .next (fairMove { s with coreHeld := false })

end Sys2Proof.Machine
end

