-- ==== Sys2Proof/Machine/Step.lean ====
section
/-! DEFINITION. One step of the whole: the outside's next action, or, when it has none left, the
core's move (20_memory.md R81; 70_reset_and_hazards.md R360). -/

namespace Sys2Proof.Machine

/-- One step. A build outside the bounds is not this hardware (00_scope.md R13). With nothing left on
the agenda a busy core completes (R360) and an idle block waits (70 R342). -/
def step (s : State) : Host.Outcome State Fault Refusal :=
  if !s.build.wf then .refused .buildOutOfRange
  else
    match s.agenda with
    | [] => .next (fairMove s)
    | a :: rest => perform a { s with agenda := rest }

/-- The state whose next step runs the command with the given bits: a host write of that word to CMD
stands first on the agenda, reset is released, and the core is not held (log 5). -/
def State.withFetchWord (s : State) (nbits w : Nat) : State :=
  { s with
    agenda := .hostWrite (offsetOf .cmd) (BitVec.ofNat 32 (w % 2 ^ nbits)) :: s.agenda
    rstN := true, coreHeld := false }

end Sys2Proof.Machine
end

