-- ==== Sys2Proof/Machine/Program.lean ====
section
/-! DEFINITION. The host's program notation: pseudo-instructions, lines, the start state, and listings
(30_encoding.md R131 to R133). -/

namespace Sys2Proof.Machine

/-- The expansion of a pseudo-instruction (R132). -/
def expand : Pseudo → List HostLine
  | .command i => [.wr .cmd (encode i)]
  | .setup s n d c => [.wr .srcAddr s, .wr .srcLen n, .wr .dstAddr d, .wr .dstCap c]
  | .wait => [.poll .done 1]
  | .ack => [.wr .status 6]
  | .abort e => [.wr .ctrl (2 + (BitVec.ofBool e).setWidth 32)]

/-- The action of a line (R131). A `mem` line is not a block action: it is part of the start state. -/
def lineActions : HostLine → List Action
  | .wr r v => [.hostWrite (offsetOf r) v]
  | .rd r => [.hostRead (offsetOf r)]
  | .poll f v => [.poll (offsetOf f.reg) f.hi f.lo v]
  | .mem _ _ => []

/-- What a line gives the data space before the program (R131): a `mem` line the bytes from its base
on, no other line anything. -/
def lineStart (m : Memory) : HostLine → Memory
  | .mem base bs => Memory.writeList m base.toNat bs
  | .wr _ _ | .rd _ | .poll _ _ => m

/-- The listing of a line: `W off data` or `R off`; a `mem` line is not a block action (R131, R133). -/
def lineListing : HostLine → Option Listing
  | .wr r v => some (.w (offsetOf r) v)
  | .rd r => some (.r (offsetOf r))
  | .poll f _ => some (.r (offsetOf f.reg))
  | .mem _ _ => none

/-- The agenda of a host program: the actions of its lines, in order. -/
def programAgenda (lines : List HostLine) : List Action := lines.flatMap lineActions

/-- The state in which a host program starts: every `mem` line, wherever it stands, is already in the
data space, and the program's actions come next (R131; log 5). -/
def State.withProgram (lines : List HostLine) (s : State) : State :=
  { s with mem := lines.foldl lineStart s.mem, agenda := programAgenda lines ++ s.agenda }

end Sys2Proof.Machine
end

