-- ==== Sys2Proof/Safety.lean ====
section
/-! DEFINITION. The terms the claims are stated in: when a command can be taken, what a completion
leaves, the invariant of the machine, and the spec's own descriptions of runs, matches, copies and
trees, said without the functions that compute them. -/

namespace Sys2Proof.Machine

/-- The block takes a command: idle and out of reset (40_dispatch.md R150; 70 R340). -/
abbrev State.ready (s : State) : Prop := s.busy = false ∧ s.rstN = true

/-- The regions pass the range check and are ordinary memory (40_dispatch.md R153, 20_memory.md R90). -/
abbrev State.regionsOk (s : State) : Prop := s.rangeOk = true ∧ s.ordinary = true

/-- Everything that must hold for a command's own effect to happen: ready, good regions, and a data
space in canonical form. -/
abbrev State.canRun (s : State) : Prop := s.ready ∧ s.regionsOk ∧ Memory.wf s.mem

/-- What no operation changes: the operands, CTRL, the build, the platform, the pins and the schedule
(40_dispatch.md R154; 60_exceptions.md R322). -/
structure SameFrame (s t : State) : Prop where
  build     : t.build = s.build
  platform  : t.platform = s.platform
  irqEn     : t.irqEn = s.irqEn
  srcAddr   : t.srcAddr = s.srcAddr
  srcLen    : t.srcLen = s.srcLen
  dstAddr   : t.dstAddr = s.dstAddr
  dstCap    : t.dstCap = s.dstCap
  rstN      : t.rstN = s.rstN
  regRdata  : t.regRdata = s.regRdata
  dataRdata : t.dataRdata = s.dataRdata
  agenda    : t.agenda = s.agenda
  coreHeld  : t.coreHeld = s.coreHeld

/-- The status of a completion: idle, DONE set, nothing in flight (R159, R310). -/
structure Idle (t : State) : Prop where
  busy     : t.busy = false
  done     : t.done = true
  curOp    : t.curOp = none
  abortReq : t.abortReq = false

/-- Every byte outside `[base, base + n)` reads as before. -/
def KeepsOutside (s t : State) (base n : Nat) : Prop :=
  ∀ a, a < base ∨ base + n ≤ a → Memory.read t.mem a = Memory.read s.mem a

/-- Every byte of the data space reads as before. -/
def KeepsMemory (s t : State) : Prop := ∀ a, Memory.read t.mem a = Memory.read s.mem a

/-- `t` is `s` after a completion without error whose output is `out` (R159, 20_memory.md R91). -/
structure Succeeds (s t : State) (out : List Byte) : Prop where
  frame   : SameFrame s t
  idle    : Idle t
  err     : t.err = false
  errCode : t.errCode = .none
  outLen  : t.outLen.toNat = out.length
  written : ∀ j, j < out.length → Memory.read t.mem (s.dstAddr.toNat + j) = byteAt out j
  kept    : KeepsOutside s t s.dstAddr.toNat out.length

/-- `t` is `s` after an error completion with code `e`: nothing outside the destination region has
changed (60_exceptions.md R310, 20_memory.md R91). -/
structure Fails (s t : State) (e : ErrCode) : Prop where
  frame   : SameFrame s t
  idle    : Idle t
  err     : t.err = true
  errCode : t.errCode = e
  outLen  : t.outLen = 0
  kept    : KeepsOutside s t s.dstAddr.toNat s.dstCap.toNat

/-- An error completion that has changed no byte of the data space. -/
structure FailsClean (s t : State) (e : ErrCode) : Prop where
  fails : Fails s t e
  clean : KeepsMemory s t

/-- What holds of the machine between steps (10_state.md R48, R53, R55, R60; 70 R340), beside the
canonical form of the data space. -/
structure State.Inv (s : State) : Prop where
  /-- The data space is in canonical form. -/
  memWf     : Memory.wf s.mem
  /-- `cur_op = NONE` exactly when `BUSY = 0` (R60). -/
  opBusy    : s.busy = true ↔ s.curOp ≠ none
  /-- `BUSY = 1` implies DONE, ERR, ERR_CODE and OUT_LEN 0 (R55). -/
  busyClear : s.busy = true → s.done = false ∧ s.err = false ∧ s.errCode = .none ∧ s.outLen = 0
  /-- An abort request stands only while BUSY (R43, R60). -/
  abortBusy : s.abortReq = true → s.busy = true
  /-- Nothing is emitted before the completion of an operation in flight, which is one step
  (20_memory.md R95; log 6). -/
  noOutput  : s.busy = true → s.hidden.outLen = 0
  /-- ERR stands only with a code (R47, R48). -/
  errCoded  : s.err = true → s.errCode ≠ .none
  /-- After an error OUT_LEN is 0 (R53). -/
  errLength : s.errCode ≠ .none → s.outLen = 0
  /-- An operation in flight has ordinary regions: tested when the command is taken
  (20_memory.md R90; log 12). -/
  premise   : s.busy = true → s.premiseBroken = false
  /-- While `rst_n = 0` the registers hold their reset values (70 R340). -/
  inReset   : s.rstN = false →
    s.irqEn = false ∧ s.busy = false ∧ s.done = false ∧ s.err = false ∧ s.errCode = .none ∧
    s.srcAddr = 0 ∧ s.srcLen = 0 ∧ s.dstAddr = 0 ∧ s.dstCap = 0 ∧ s.outLen = 0

/-! ### The formats, as the spec describes them -/

/-- The records of RLE.C for an input: they spell it, every count is 1 to 255, and a record has the
same value as the next one only when its run was closed at 255 (43_rle.md R280, R281). -/
def RleRuns (src : List Byte) (runs : List (Nat × Byte)) : Prop :=
  runs.flatMap (fun r => List.replicate r.1 r.2) = src ∧
  (∀ r ∈ runs, 1 ≤ r.1 ∧ r.1 ≤ 255) ∧
  runs.IsChain (fun r q => r.2 = q.2 → r.1 = 255)

/-- The bytes at distance `d` before `pos` equal those from `pos` on, `l` of them (42_lz77.md R241). -/
def RunMatches (src : List Byte) (pos d l : Nat) : Prop :=
  ∀ t, t < l → byteAt src (pos - d + t) = byteAt src (pos + t)

/-- A candidate of R241: a distance inside the window and a length inside the cap of R243. -/
def Candidate (window lookahead : Nat) (src : List Byte) (pos d l : Nat) : Prop :=
  1 ≤ d ∧ d ≤ min window pos ∧ l ≤ min lookahead (src.length - pos - 1) ∧ RunMatches src pos d l

/-- The match LZ.C takes at `pos`: the greatest length, and the smallest distance of that length
(R241). -/
def BestMatch (window lookahead : Nat) (src : List Byte) (pos d l : Nat) : Prop :=
  Candidate window lookahead src pos d l ∧
  (∀ d' l', Candidate window lookahead src pos d' l' → l' ≤ l) ∧
  (∀ d', Candidate window lookahead src pos d' l → d ≤ d')

/-- The stream of LZ.C from the cursor `pos` (42_lz77.md R244, R250; 30_encoding.md R126). -/
inductive LzParse (window lookahead : Nat) (src : List Byte) : Nat → List Byte → Prop where
  | done (pos : Nat) : src.length ≤ pos → LzParse window lookahead src pos []
  | backReference (pos d l : Nat) (rest : List Byte) :
      pos < src.length → 3 ≤ l → BestMatch window lookahead src pos d l →
      LzParse window lookahead src (pos + l + 1) rest →
      LzParse window lookahead src pos
        (BitVec.ofNat 8 (d / 256) :: BitVec.ofNat 8 d :: BitVec.ofNat 8 l :: byteAt src (pos + l) :: rest)
  | literal (pos : Nat) (rest : List Byte) :
      pos < src.length → (∀ d l, Candidate window lookahead src pos d l → l < 3) →
      LzParse window lookahead src (pos + 1) rest →
      LzParse window lookahead src pos (0 :: 0 :: 0 :: byteAt src pos :: rest)

/-- The distance a record's first two bytes state (30_encoding.md R126). -/
def recordDistance (d0 d1 : Byte) : Nat := d0.toNat * 256 + d1.toNat

/-- An LZ77 stream turns the output `out` into the output `fin` (42_lz77.md R260, R261, R265): a copy
of `l` bytes at distance `d` repeats the output byte `d` places back, its own bytes included. -/
inductive LzExpands : List Byte → List Byte → List Byte → Prop where
  | nil (out : List Byte) : LzExpands out [] out
  | literal (out : List Byte) (c : Byte) (rest fin : List Byte) :
      LzExpands (out ++ [c]) rest fin → LzExpands out (0 :: 0 :: 0 :: c :: rest) fin
  | copy (out : List Byte) (d0 d1 l c : Byte) (rest fin ext : List Byte) :
      1 ≤ recordDistance d0 d1 → recordDistance d0 d1 ≤ out.length → ext.length = l.toNat →
      (∀ t, t < ext.length →
        byteAt ext t = byteAt (out ++ ext) (out.length - recordDistance d0 d1 + t)) →
      LzExpands (out ++ ext ++ [c]) rest fin → LzExpands out (d0 :: d1 :: l :: c :: rest) fin

/-- The node `y` is live when id `x` is made: it exists, and no node made before has it as a child
(41_huffman.md R182). -/
def LiveAt (nodes : List Node) (x y : Nat) : Prop :=
  y < x ∧ ∀ p l r w, p < x → nodes[p]? = some (.internal l r w) → l ≠ some y ∧ r ≠ some y

/-- The order of R182: `(weight, id)`, compared lexicographically. -/
def Before (nodes : List Node) (x y : Nat) : Prop :=
  weightOf nodes x < weightOf nodes y ∨ (weightOf nodes x = weightOf nodes y ∧ x < y)

/-- The bits `p` lead from node `x` to node `y` (41_huffman.md R183: 0 is left, 1 is right). -/
def follow (nodes : List Node) : Nat → List Bool → Option Nat
  | x, [] => some x
  | x, b :: p =>
    match childOf nodes x b with
    | some y => follow nodes y p
    | none => none

/-- The FrequencyTable a header of `entries` describes (41_huffman.md R220, R222). -/
def enterAll (entries : List (Byte × Word)) (h : Hidden) : Hidden :=
  entries.foldl (fun g p => enterFreq p.1 p.2 g) h

/-- The tables that HUF.C builds for an input, and HUF.D for a header (R186). -/
def tablesOf (h : Hidden) : Hidden := deriveCodes (buildTree h)

/-- A Huffman stream with the given header entries, bit count and packed field (30_encoding.md R121). -/
def huffStream (entries : List (Byte × Word)) (bitLength : Nat) (packed : List Byte) : List Byte :=
  be16 (BitVec.ofNat 16 entries.length)
    ++ entries.flatMap (fun p => p.1 :: be32 p.2)
    ++ be32 (BitVec.ofNat 32 bitLength) ++ packed

/-- The bit a packed field holds at index `i`: bit `7 - (i mod 8)` of byte `i div 8` (R122). -/
def packedBit (packed : List Byte) (i : Nat) : Bool := (byteAt packed (i / 8)).getLsbD (7 - i % 8)

/-- A packed field that holds the bits, then zeros, in as many bytes as they need (R122, R194). -/
def Packs (packed : List Byte) (bits : List Bool) : Prop :=
  packed.length = ceilDiv bits.length 8 ∧ ∀ i, i < 8 * packed.length → packedBit packed i = bits.getD i false

end Sys2Proof.Machine
end

