-- ==== Sys2Proof/Certificates/Slice0/Obligations.lean ====
section
/-! DEFINITION. The statements about the compression CORE, from the numbered rules of spec/. -/

open Sys2Proof Sys2Proof.Machine

/-! ### Command words -/

/-- R114, R115: a word decodes to a command exactly when it is the word the table gives that command,
and is illegal exactly when its ALG is 0 or its RSVD is not 0. -/
def Obligations.DecodeIsTheCommandTable : Prop :=
  ∀ w : Word,
    (decode w = .ok .hufC ↔ w = 0x00000001#32) ∧ (decode w = .ok .hufD ↔ w = 0x00000005#32) ∧
    (decode w = .ok .lzC ↔ w = 0x00000002#32) ∧ (decode w = .ok .lzD ↔ w = 0x00000006#32) ∧
    (decode w = .ok .rleC ↔ w = 0x00000003#32) ∧ (decode w = .ok .rleD ↔ w = 0x00000007#32) ∧
    ((∃ e, decode w = .error e) ↔ (w.toNat % 4 = 0 ∨ 8 ≤ w.toNat))

/-- Every well-formed command's word decodes to it, and a decoded word is the encoding of what it
decodes to (derived from R114, R116). -/
def Obligations.DecodeAndEncodeAgree : Prop :=
  (∀ i : Instr, i.wf = true → decode (encode i) = .ok i) ∧
  (∀ (w : Word) (i : Instr), decode w = .ok i → encode i = w ∧ i.wf = true)

/-- The words of R114, written out, decode to their commands (a sanity statement). -/
def Obligations.WrittenOutWordsDecode : Prop :=
  decodeTableWord 32 0b00000000000000000000000000000001 = some .hufC ∧
  decodeTableWord 32 0b00000000000000000000000000000101 = some .hufD ∧
  decodeTableWord 32 0b00000000000000000000000000000010 = some .lzC ∧
  decodeTableWord 32 0b00000000000000000000000000000110 = some .lzD ∧
  decodeTableWord 32 0b00000000000000000000000000000011 = some .rleC ∧
  decodeTableWord 32 0b00000000000000000000000000000111 = some .rleD ∧
  decodeTableWord 32 0b00000000000000000000000000001011 = none

/-! ### Steps -/

/-- A step whose next action is the host's write of a command word to CMD runs that command on the
state without the action (the schedule not holding the core is the model's choice, log 5, log 6). -/
def Obligations.StepRunsTheWrittenCommand : Prop :=
  ∀ (s : State) (off : BitVec 6) (w : Word) (rest : List Action) (i : Instr),
    s.build.wf = true → s.rstN = true → s.coreHeld = false → regAt off = some .cmd →
    s.agenda = .hostWrite off w :: rest → decode w = .ok i →
    step s = exec i { s with agenda := rest }

/-- R151: acceptance of a command clears DONE, ERR, ERR_CODE, OUT_LEN and abort_req, sets cur_op and
BUSY, clears the output counter, and changes nothing else. Here the schedule holds the core in flight
(log 6). -/
def Obligations.HeldCommandIsAccepted : Prop :=
  ∀ (s : State) (off : BitVec 6) (w : Word) (rest : List Action) (i : Instr),
    s.build.wf = true → s.ready → s.coreHeld = true → s.premiseBroken = false →
    regAt off = some .cmd → s.agenda = .hostWrite off w :: rest → decode w = .ok i →
    ∃ t, step s = .next t ∧ t.busy = true ∧ t.curOp = some i ∧ t.done = false ∧ t.err = false ∧
      t.errCode = .none ∧ t.outLen = 0 ∧ t.abortReq = false ∧
      t.hidden = { s.hidden with outLen := 0 } ∧ t.draws = s.draws ∧
      t.emitted = [] ∧ t.irq = false ∧ t.mem = s.mem ∧ SameFrame { s with agenda := rest } t

/-- R152: an illegal command word, written while idle, completes at once with
UNSUPPORTED_ALGORITHM; BUSY stays 0 and the data space is unchanged. -/
def Obligations.IllegalWordIsRejected : Prop :=
  ∀ (s : State) (off : BitVec 6) (w : Word) (rest : List Action) (e : Illegal),
    s.build.wf = true → s.ready → regAt off = some .cmd →
    s.agenda = .hostWrite off w :: rest → decode w = .error e →
    ∃ t, step s = .next t ∧ t.done = true ∧ t.err = true ∧ t.errCode.code = 5 ∧ t.outLen = 0 ∧
      t.busy = false ∧ t.mem = s.mem ∧ t.curOp = s.curOp ∧ t.abortReq = s.abortReq ∧
      t.hidden = s.hidden ∧ t.irq = s.irqEn ∧ SameFrame { s with agenda := rest } t

/-- R54: while BUSY, host writes of SRC_ADDR, SRC_LEN, DST_ADDR, DST_CAP and CMD are ignored. -/
def Obligations.OperandAndCommandWritesWhileBusyAreIgnored : Prop :=
  ∀ (s : State) (off : BitVec 6) (v : Word) (rest : List Action) (r : RegName),
    s.build.wf = true → s.busy = true → regAt off = some r →
    r = .srcAddr ∨ r = .srcLen ∨ r = .dstAddr ∨ r = .dstCap ∨ r = .cmd →
    s.agenda = .hostWrite off v :: rest → step s = .next { s with agenda := rest }

/-- R165, R42, R43: what a host write of each register but CMD does, while idle and, for CTRL, while
BUSY too (where bit 1 posts an abort request); it changes nothing else. -/
def Obligations.HostWriteEffects : Prop :=
  ∀ (s : State) (off : BitVec 6) (v : Word) (rest : List Action),
    s.build.wf = true → s.rstN = true → s.agenda = .hostWrite off v :: rest →
    (regAt off = some .srcAddr → s.busy = false →
      step s = .next { s with agenda := rest, srcAddr := v }) ∧
    (regAt off = some .srcLen → s.busy = false →
      step s = .next { s with agenda := rest, srcLen := v }) ∧
    (regAt off = some .dstAddr → s.busy = false →
      step s = .next { s with agenda := rest, dstAddr := v }) ∧
    (regAt off = some .dstCap → s.busy = false →
      step s = .next { s with agenda := rest, dstCap := v }) ∧
    (regAt off = some .ctrl → step s = .next { s with
      agenda := rest
      irqEn := v.toNat % 2 == 1
      abortReq := if s.busy = true ∧ v.toNat / 2 % 2 = 1 then true else s.abortReq }) ∧
    (regAt off = some .status → step s = .next { s with
      agenda := rest
      done := if v.toNat / 2 % 2 = 1 then false else s.done
      err := if v.toNat / 4 % 2 = 1 then false else s.err }) ∧
    (regAt off = some .id ∨ regAt off = some .cfg ∨ regAt off = some .errCode ∨
      regAt off = some .outLen ∨ regAt off = none → step s = .next { s with agenda := rest })

/-- R166 and R37 to R53: a host read returns the register's current value and changes no state (the
value lands in reg_rdata, R33). The offsets are those of R37, bits [1:0] are ignored (R34), and 0x2C to
0x3C are reserved and read 0 (R39). -/
def Obligations.HostReadReturnsTheRegister : Prop :=
  ∀ (s : State) (off : BitVec 6) (rest : List Action),
    s.build.wf = true → s.rstN = true → s.agenda = .hostRead off :: rest →
    ∃ v : Word, step s = .next { s with agenda := rest, regRdata := v } ∧
      regAt off = [RegName.id, .cfg, .ctrl, .cmd, .status, .errCode, .srcAddr, .srcLen, .dstAddr,
        .dstCap, .outLen][off.toNat / 4]? ∧
      (regAt off = some .id → v = 0x434D5052#32) ∧
      (regAt off = some .cfg →
        v.toNat = s.build.lookaheadSize.toNat * 2 ^ 16 + s.build.windowSize.toNat) ∧
      (regAt off = some .ctrl → v.toNat = s.irqEn.toNat) ∧
      (regAt off = some .cmd → v = 0) ∧
      (regAt off = some .status → v.toNat = s.busy.toNat + 2 * s.done.toNat + 4 * s.err.toNat) ∧
      (regAt off = some .errCode → v.toNat = s.errCode.code.toNat) ∧
      (regAt off = some .srcAddr → v = s.srcAddr) ∧ (regAt off = some .srcLen → v = s.srcLen) ∧
      (regAt off = some .dstAddr → v = s.dstAddr) ∧ (regAt off = some .dstCap → v = s.dstCap) ∧
      (regAt off = some .outLen → v = s.outLen) ∧
      (regAt off = none → v = 0)

/-! ### Reset -/

/-- R57: what every register reads as in the state right after reset, for the reference build. -/
def Obligations.ResetRegisterValues : Prop :=
  readReg .id State.reset = 0x434D5052#32 ∧ readReg .cfg State.reset = 0x00101000#32 ∧
  readReg .ctrl State.reset = 0 ∧ readReg .status State.reset = 0 ∧
  readReg .errCode State.reset = 0 ∧ readReg .srcAddr State.reset = 0 ∧
  readReg .srcLen State.reset = 0 ∧ readReg .dstAddr State.reset = 0 ∧
  readReg .dstCap State.reset = 0 ∧ readReg .outLen State.reset = 0 ∧
  State.reset.abortReq = false ∧ State.reset.curOp = none ∧ State.reset.irq = false

/-- R340, R341: `rst_n` falling sets every register to its reset value (ID and CFG are constants) and
abandons an operation in flight without a completion; no byte outside its destination region changes,
and none at all while idle. R342: once `rst_n` has risen, a block that was in reset is idle, with the
interrupt disabled and no completion pending. That the rise changes nothing but the level of `rst_n`,
the values last read (`regRdata`, `dataRdata`) included, is the model's choice (log 14). -/
def Obligations.ResetSetsRegistersAndAbandons : Prop :=
  (∀ (s : State) (rest : List Action), s.build.wf = true → s.agenda = .assertReset :: rest →
    ∃ t, step s = .next t ∧ t.rstN = false ∧ readReg .ctrl t = 0 ∧ readReg .status t = 0 ∧
      readReg .errCode t = 0 ∧ readReg .srcAddr t = 0 ∧ readReg .srcLen t = 0 ∧
      readReg .dstAddr t = 0 ∧ readReg .dstCap t = 0 ∧ readReg .outLen t = 0 ∧
      t.abortReq = false ∧ t.curOp = none ∧ t.irq = false ∧
      readReg .id t = 0x434D5052#32 ∧ readReg .cfg t = readReg .cfg s ∧
      KeepsOutside s t s.dstAddr.toNat s.dstCap.toNat ∧ (s.busy = false → KeepsMemory s t)) ∧
  (∀ (s : State) (rest : List Action), s.build.wf = true → s.agenda = .releaseReset :: rest →
    ∃ t, step s = .next t ∧ t = { s with agenda := rest, rstN := true } ∧
      (s.Inv → s.rstN = false → t.busy = false ∧ t.irqEn = false ∧ t.done = false ∧ t.irq = false))

/-- R340: host writes while `rst_n = 0` have no effect, and a host read then changes nothing but the
value read (which is any value: the free value of log 13). -/
def Obligations.HostAccessesInResetHaveNoEffect : Prop :=
  ∀ (s : State) (off : BitVec 6) (v : Word) (rest : List Action),
    s.build.wf = true → s.rstN = false →
    (s.agenda = .hostWrite off v :: rest → step s = .next { s with agenda := rest }) ∧
    (s.agenda = .hostRead off :: rest →
      ∃ u n, step s = .next { s with agenda := rest, regRdata := u, draws := n })

/-! ### What every operation does -/

/-- R153: the range check. A command whose region extends past 2^32, or whose non-empty regions
overlap, ends in BAD_RANGE and changes no byte; the sums are made without wrap-around. Every other
command, one whose region ends at 2^32, whose regions are adjacent, or whose empty region lies inside
the other among them, passes it: where its regions are ordinary memory it does not end in BAD_RANGE. -/
def Obligations.BadRangeIsRaisedFirst : Prop :=
  ∀ (i : Instr) (s : State), s.ready →
    let bad := 2 ^ 32 < s.srcAddr.toNat + s.srcLen.toNat ∨
      2 ^ 32 < s.dstAddr.toNat + s.dstCap.toNat ∨
      (0 < s.srcLen.toNat ∧ 0 < s.dstCap.toNat ∧
        s.srcAddr.toNat < s.dstAddr.toNat + s.dstCap.toNat ∧
        s.dstAddr.toNat < s.srcAddr.toNat + s.srcLen.toNat)
    (bad → ∃ t, exec i s = .next t ∧ FailsClean s t .badRange) ∧
    (¬ bad → s.ordinary = true → ∃ t, exec i s = .next t ∧ t.errCode ≠ .badRange)

/-- R160, R322, R320: every command that is taken completes, in one step, with one of the two
completions, changes no register but STATUS, ERR_CODE, OUT_LEN, cur_op and abort_req, and raises the
interrupt exactly when it is enabled. -/
def Obligations.EveryTakenCommandCompletes : Prop :=
  ∀ (i : Instr) (s : State), s.ready → s.premiseBroken = false →
    ∃ t, exec i s = .next t ∧ SameFrame s t ∧ Idle t ∧
      t.irq = s.irqEn ∧ (t.err = true ↔ t.errCode ≠ .none) ∧ (t.err = true → t.outLen = 0) ∧
      t.errCode ≠ .unsupportedAlgorithm ∧ t.errCode ≠ .aborted

/-- R91: an operation changes no byte outside the destination region and none inside the source
region; after a completion without error the destination bytes past OUT_LEN are unchanged. -/
def Obligations.OperationFootprint : Prop :=
  ∀ (i : Instr) (s t : State), s.ready → exec i s = .next t →
    KeepsOutside s t s.dstAddr.toNat s.dstCap.toNat ∧
    (s.rangeOk = true → t.source = s.source) ∧
    (t.err = false → KeepsOutside s t s.dstAddr.toNat t.outLen.toNat ∧
      t.outLen.toNat ≤ s.dstCap.toNat)

/-- R91, R310: an error raised before the first emit changes no byte: BAD_RANGE, TRUNCATED_RECORD,
MALFORMED_HEADER, LENGTH_OVERFLOW, every error of HUF.C, any error with an empty destination, and an
error of a stream that the command also ends in with an empty destination, so that it comes before the
first emit (that last case, an INVALID_BACK_REFERENCE or a CORRUPT_STREAM, is deduced: log 8). -/
def Obligations.EarlyErrorsChangeNoByte : Prop :=
  ∀ (i : Instr) (s t : State), s.ready → exec i s = .next t →
    (t.errCode = .badRange ∨ t.errCode = .truncatedRecord ∨ t.errCode = .malformedHeader ∨
      t.errCode = .lengthOverflow ∨ (i = .hufC ∧ t.err = true) ∨ s.dstCap = 0 ∨
      (t.errCode ≠ .none ∧ t.errCode ≠ .outputOverflow ∧
        ∃ u, exec i { s with dstCap := 0 } = .next u ∧ u.errCode = t.errCode)) →
    KeepsMemory s t

/-- R300, R313: which error codes each command can end with. -/
def Obligations.ErrorCodesOfEachCommand : Prop :=
  ∀ (i : Instr) (s t : State), s.ready → exec i s = .next t →
    match i with
    | .hufC => t.errCode ∈ [ErrCode.none, .badRange, .lengthOverflow, .outputOverflow]
    | .hufD => t.errCode ∈ [ErrCode.none, .badRange, .malformedHeader, .corruptStream, .outputOverflow]
    | .lzC => t.errCode ∈ [ErrCode.none, .badRange, .outputOverflow]
    | .lzD => t.errCode ∈ [ErrCode.none, .badRange, .truncatedRecord, .invalidBackReference, .outputOverflow]
    | .rleC => t.errCode ∈ [ErrCode.none, .badRange, .outputOverflow]
    | .rleD => t.errCode ∈ [ErrCode.none, .badRange, .truncatedRecord, .outputOverflow]

/-- R157, R306: a command that succeeds with `OUT_LEN` bytes succeeds with the same bytes for every
capacity of at least that many, smaller or larger, whose regions are still good, and ends in
OUTPUT_OVERFLOW for every smaller one. -/
def Obligations.CapacityIsTheOnlyOutputLimit : Prop :=
  ∀ (i : Instr) (s t : State) (c : Word) (out : List Byte),
    s.canRun → exec i s = .next t → Succeeds s t out →
    (out.length ≤ c.toNat → State.regionsOk { s with dstCap := c } →
      ∃ u, exec i { s with dstCap := c } = .next u ∧ Succeeds { s with dstCap := c } u out) ∧
    (c.toNat < out.length →
      ∃ u, exec i { s with dstCap := c } = .next u ∧
        Fails { s with dstCap := c } u .outputOverflow)

/-- R5: the error code, the length and the output of a command are a function of the command, the
source bytes, DST_CAP and the build alone, where the addresses pass the range check. -/
def Obligations.ResultDependsOnSourceCapacityAndBuild : Prop :=
  ∀ (i : Instr) (s s' t t' : State), s.canRun → s'.canRun →
    s.source = s'.source → s.dstCap = s'.dstCap → s.build = s'.build →
    exec i s = .next t → exec i s' = .next t' →
    t.err = t'.err ∧ t.errCode = t'.errCode ∧ t.outLen = t'.outLen ∧
    (t.err = false → ∀ j, j < t.outLen.toNat →
      Memory.read t.mem (s.dstAddr.toNat + j) = Memory.read t'.mem (s'.dstAddr.toNat + j))

/-- R68: no hidden state carries information from one operation to the next: whatever the tables and
cursors hold when a command is submitted, its whole effect is the same. -/
def Obligations.HiddenStateIsNeverObserved : Prop :=
  ∀ (i : Instr) (s : State) (h : Hidden), s.ready →
    exec i { s with hidden := h } = exec i s

/-- R6: every operation with SRC_LEN = 0 completes without error and with OUT_LEN = 0. -/
def Obligations.EmptyInputSucceedsWithNoOutput : Prop :=
  ∀ (i : Instr) (s : State), s.ready → s.regionsOk → s.srcLen = 0 →
    ∃ t, exec i s = .next t ∧ Succeeds s t [] ∧ KeepsMemory s t

/-- R163: with an abort request posted, the operation in flight ends as it would have ended without
the request, or with ABORTED (the choice is the free value of log 7); either way nothing outside the
destination region changes. -/
def Obligations.AbortHasTwoOutcomes : Prop :=
  ∀ (s : State) (i : Instr), s.Inv → s.curOp = some i → s.abortReq = true →
    (coreMove s = coreMove { s with abortReq := false } ∨ Fails s (coreMove s) .aborted) ∧
    KeepsOutside s (coreMove s) s.dstAddr.toNat s.dstCap.toNat

/-- R95: an operation that is first accepted and later completed has the effect of the one step that
a command takes when nothing comes between (the schedule is the model's, log 6). -/
def Obligations.AcceptedThenCompletedIsOneStep : Prop :=
  ∀ (i : Instr) (s : State), s.ready → s.premiseBroken = false →
    exec i s = .next (coreMove (accept i s))

/-! ### Invariants and whole-machine rules -/

/-- The invariant holds right after reset. -/
def Obligations.InvariantAtReset : Prop := State.reset.Inv

/-- R53, R55, R60, R340 and the canonical form of the data space: every step keeps the invariant. Two
of its conjuncts are the model's: `noOutput`, that nothing is emitted before the one step of a
completion (R95; log 6), and `premise`, that the regions of an operation in flight are ordinary memory,
which the model tests when the command is taken (R90; log 12). -/
def Obligations.StepKeepsTheInvariant : Prop :=
  ∀ s t : State, s.Inv → step s = .next t → t.Inv

/-- R40, R41: no step changes ID or CFG. That none changes which windows are not ordinary memory is the
model's choice (R82 leaves them to the platform; log 12). -/
def Obligations.StepKeepsTheBuild : Prop :=
  ∀ s t : State, step s = .next t →
    t.build = s.build ∧ t.platform = s.platform ∧ readReg .id t = readReg .id s ∧
    readReg .cfg t = readReg .cfg s

/-- R89, R91: only another agent's write changes a byte outside the destination region; the block
never does, whatever the step. -/
def Obligations.BlockWritesOnlyItsDestination : Prop :=
  ∀ (s t : State) (a : Nat), s.Inv → step s = .next t →
    (∀ (addr : Word) (b : Byte) (rest : List Action), s.agenda = .dataWrite addr b :: rest → addr.toNat ≠ a) →
    (a < s.dstAddr.toNat ∨ s.dstAddr.toNat + s.dstCap.toNat ≤ a) →
    Memory.read t.mem a = Memory.read s.mem a

/-- R154, R54: no operation changes SRC_ADDR, SRC_LEN, DST_ADDR, DST_CAP or IRQ_EN: a step that
changes one of them performs a host write of that register or a reset. -/
def Obligations.OnlyHostWritesChangeOperands : Prop :=
  ∀ (s t : State), step s = .next t →
    (∀ rest, s.agenda ≠ .assertReset :: rest) →
    (t.srcAddr ≠ s.srcAddr → ∃ off v rest, s.agenda = .hostWrite off v :: rest ∧ regAt off = some .srcAddr ∧ s.busy = false) ∧
    (t.srcLen ≠ s.srcLen → ∃ off v rest, s.agenda = .hostWrite off v :: rest ∧ regAt off = some .srcLen ∧ s.busy = false) ∧
    (t.dstAddr ≠ s.dstAddr → ∃ off v rest, s.agenda = .hostWrite off v :: rest ∧ regAt off = some .dstAddr ∧ s.busy = false) ∧
    (t.dstCap ≠ s.dstCap → ∃ off v rest, s.agenda = .hostWrite off v :: rest ∧ regAt off = some .dstCap ∧ s.busy = false) ∧
    (t.irqEn ≠ s.irqEn → ∃ off v rest, s.agenda = .hostWrite off v :: rest ∧ regAt off = some .ctrl)

/-- R360: a busy core eventually completes. When the outside's actions are used up, and one step more,
the block is idle (a poll is left out there, since a host may poll for ever); and a `wait` (R132) while
BUSY ends, with DONE set, and the actions after it come next. A poll (R131) is a host read again and
again: with the field equal to the 32-bit number it is that read and is done, otherwise it stays first
on the agenda, and an idle block changes in nothing but the value read. The schedule is the model's (log 5, log 6). -/
def Obligations.BusyCoreEventuallyCompletes : Prop :=
  (∀ s t : State, s.Inv → (∀ off hi lo v, Action.poll off hi lo v ∉ s.agenda) →
    Sys2Proof.core.run (s.agenda.length + 1) s = .next t → t.busy = false ∧ t.agenda = []) ∧
  (∀ (s : State) (rest : List Action), s.Inv → s.build.wf = true → s.busy = true →
    s.agenda = programAgenda (expand .wait) ++ rest →
    ∃ t, Sys2Proof.core.run 2 s = .next t ∧ t.busy = false ∧ t.done = true ∧ t.agenda = rest) ∧
  (∀ (s t : State) (off : BitVec 6) (hi lo : Nat) (v : Word) (rest : List Action),
    s.agenda = .poll off hi lo v :: rest → step { s with agenda := .hostRead off :: rest } = .next t →
    (t.regRdata.toNat / 2 ^ lo % 2 ^ (hi + 1 - lo) = v.toNat → step s = .next t) ∧
    (t.regRdata.toNat / 2 ^ lo % 2 ^ (hi + 1 - lo) ≠ v.toNat → ∃ u, step s = .next u ∧ u.agenda = s.agenda ∧
      u.regRdata = t.regRdata ∧ (s.busy = false → u = { t with agenda := s.agenda })))

/-- R350 (93 U12) and R351 (93 U11): while BUSY, a write of a region byte by another agent is a hazard
violation, and a read of a destination byte returns any value (the free value of log 10) and changes
nothing else. -/
def Obligations.HazardsWhileBusy : Prop :=
  ∀ (s : State) (addr : Word) (b : Byte) (rest : List Action), s.build.wf = true → s.busy = true →
    (s.agenda = .dataWrite addr b :: rest →
      (s.srcAddr.toNat ≤ addr.toNat ∧ addr.toNat < s.srcAddr.toNat + s.srcLen.toNat) ∨
      (s.dstAddr.toNat ≤ addr.toNat ∧ addr.toNat < s.dstAddr.toNat + s.dstCap.toNat) →
      step s = .fault .hazardWrite) ∧
    (s.agenda = .dataRead addr :: rest → s.isDevice addr.toNat = false →
      s.dstAddr.toNat ≤ addr.toNat ∧ addr.toNat < s.dstAddr.toNat + s.dstCap.toNat →
      ∃ v n, step s = .next { s with agenda := rest, dataRdata := v, draws := n })

/-- R97 point 3, R102, R351: another agent reads what was last written, and its writes are what later
reads return: at every address outside an operation, and while BUSY for a read outside the destination
region (the source region too) and a write outside both regions. -/
def Obligations.DataSpaceIsMemory : Prop :=
  ∀ (s : State) (addr : Word) (b : Byte) (rest : List Action),
    s.build.wf = true → Memory.wf s.mem → s.isDevice addr.toNat = false →
    (s.agenda = .dataRead addr :: rest →
      (s.busy = false ∨ addr.toNat < s.dstAddr.toNat ∨
        s.dstAddr.toNat + s.dstCap.toNat ≤ addr.toNat) →
      step s = .next { s with agenda := rest, dataRdata := Memory.read s.mem addr.toNat }) ∧
    (s.agenda = .dataWrite addr b :: rest →
      (s.busy = false ∨
        ((addr.toNat < s.srcAddr.toNat ∨ s.srcAddr.toNat + s.srcLen.toNat ≤ addr.toNat) ∧
          (addr.toNat < s.dstAddr.toNat ∨ s.dstAddr.toNat + s.dstCap.toNat ≤ addr.toNat))) →
      ∃ t, step s = .next t ∧ Memory.read t.mem addr.toNat = b ∧
        (∀ a, a ≠ addr.toNat → Memory.read t.mem a = Memory.read s.mem a) ∧
        t = { s with agenda := rest, mem := t.mem })

/-- R13 (93 U16): a build outside the bounds is refused. R90 (93 U13): a command whose regions pass the
range check and are not all ordinary memory breaks the premise of DATA_MEM (the model's fault, log 12). -/
def Obligations.BrokenPremisesStop : Prop :=
  (∀ s : State, s.build.windowSize = 0 ∨ s.build.lookaheadSize = 0 →
    step s = .refused .buildOutOfRange) ∧
  (∀ (i : Instr) (s : State) (w : Config.Region), s.ready → s.rangeOk = true →
    w ∈ s.platform.devices → (regionsMeet w s.srcRegion || regionsMeet w s.dstRegion) = true →
    exec i s = .fault .notOrdinaryMemory)

/-! ### RLE -/

/-- R280, R281, R285: RLE.C of an input whose maximal runs, capped at 255, are `runs` completes
without error and emits one record `(count, value)` a run, in order; records longer than DST_CAP are
OUTPUT_OVERFLOW (R306). -/
def Obligations.RleCompressEmitsTheRuns : Prop :=
  ∀ (s : State) (runs : List (Nat × Byte)), s.canRun → RleRuns s.source runs →
    (2 * runs.length ≤ s.dstCap.toNat → ∃ t, exec .rleC s = .next t ∧
      Succeeds s t (runs.flatMap fun r => [BitVec.ofNat 8 r.1, r.2])) ∧
    (s.dstCap.toNat < 2 * runs.length → ∃ t, exec .rleC s = .next t ∧ Fails s t .outputOverflow)

/-- R286: the output of RLE.C is even in length and at most twice the input, and every count byte it
writes is 1 to 255. -/
def Obligations.RleCompressSize : Prop :=
  ∀ (s t : State), s.canRun → exec .rleC s = .next t → t.err = false →
    t.outLen.toNat % 2 = 0 ∧ t.outLen.toNat ≤ 2 * s.srcLen.toNat ∧
    ∀ j, 2 * j < t.outLen.toNat → Memory.read t.mem (s.dstAddr.toNat + 2 * j) ≠ 0

/-- R292, R294: RLE.D of a stream of records completes without error and emits each value as often as
its count says, nothing for a count of 0; a longer output than DST_CAP is OUTPUT_OVERFLOW (R306). -/
def Obligations.RleDecompressExpandsTheRecords : Prop :=
  ∀ (s : State) (recs : List (Byte × Byte)), s.canRun →
    s.source = recs.flatMap (fun r => [r.1, r.2]) →
    let out := recs.flatMap fun r => List.replicate r.1.toNat r.2
    (out.length ≤ s.dstCap.toNat → ∃ t, exec .rleD s = .next t ∧ Succeeds s t out) ∧
    (s.dstCap.toNat < out.length → ∃ t, exec .rleD s = .next t ∧ Fails s t .outputOverflow)

/-- R293, R267, R302: RLE.D of a stream of odd length and LZ.D of a length that is not a multiple of 4
end in TRUNCATED_RECORD, before every error of a record, and write nothing. -/
def Obligations.TruncatedStreamsAreRefusedFirst : Prop :=
  ∀ s : State, s.ready → s.regionsOk →
    (s.srcLen.toNat % 2 = 1 → ∃ t, exec .rleD s = .next t ∧ FailsClean s t .truncatedRecord) ∧
    (s.srcLen.toNat % 4 ≠ 0 → ∃ t, exec .lzD s = .next t ∧ FailsClean s t .truncatedRecord)

/-- R295: RLE round trip. RLE.D of what RLE.C wrote, into any good region that is large enough,
completes without error and produces the input. -/
def Obligations.RleRoundTrip : Prop :=
  ∀ (s t : State) (d c : Word), s.canRun → exec .rleC s = .next t → t.err = false →
    let u := { t with srcAddr := s.dstAddr, srcLen := t.outLen, dstAddr := d, dstCap := c }
    u.regionsOk → s.srcLen ≤ c →
    ∃ v, exec .rleD u = .next v ∧ Succeeds u v s.source

/-! ### LZ77 -/

/-- R241, R243: the match search answers the greatest length, and the smallest distance of that
length, among the distances of the window; with no candidate it answers length 0. -/
def Obligations.MatchSearchFindsTheBestMatch : Prop :=
  ∀ (window lookahead : Nat) (src : List Byte) (pos : Nat), pos < src.length →
    let m := findMatch window lookahead src pos
    (0 < m.2 → BestMatch window lookahead src pos m.1 m.2) ∧
    (m.2 = 0 → ∀ d l, Candidate window lookahead src pos d l → l = 0)

/-- R244, R250: LZ.C completes without error and emits the greedy stream: the best match of length 3
or more and the literal after it, or else one literal record; a stream longer than DST_CAP is
OUTPUT_OVERFLOW. -/
def Obligations.LzCompressEmitsTheGreedyStream : Prop :=
  ∀ (s : State) (out : List Byte), s.canRun →
    LzParse s.build.windowSize.toNat s.build.lookaheadSize.toNat s.source 0 out →
    (out.length ≤ s.dstCap.toNat → ∃ t, exec .lzC s = .next t ∧ Succeeds s t out) ∧
    (s.dstCap.toNat < out.length → ∃ t, exec .lzC s = .next t ∧ Fails s t .outputOverflow)

/-- R251: the output of LZ.C is a multiple of 4, at most `4n`, and at least 4 for `n >= 1`; with
`DST_CAP >= 4n` LZ.C completes without error. -/
def Obligations.LzCompressSize : Prop :=
  ∀ s : State, s.canRun →
    (∀ t, exec .lzC s = .next t → t.err = false →
      t.outLen.toNat % 4 = 0 ∧ t.outLen.toNat ≤ 4 * s.srcLen.toNat ∧
      (0 < s.srcLen.toNat → 4 ≤ t.outLen.toNat)) ∧
    (4 * s.srcLen.toNat ≤ s.dstCap.toNat → ∃ t, exec .lzC s = .next t ∧ t.err = false)

/-- R14 and a corner case of R250: with a lookahead below 3, or an input of at most 4 bytes, LZ.C
emits only literal records. -/
def Obligations.LzShortMatchesAreLiterals : Prop :=
  ∀ s : State, s.canRun → (s.build.lookaheadSize.toNat < 3 ∨ s.srcLen.toNat ≤ 4) →
    4 * s.srcLen.toNat ≤ s.dstCap.toNat →
    ∃ t, exec .lzC s = .next t ∧ Succeeds s t (s.source.flatMap fun c => [0, 0, 0, c])

/-- R260, R261, R265: LZ.D of a stream of valid records completes without error and emits what they
expand to, a copy reading the output it is itself growing; a longer output than DST_CAP is
OUTPUT_OVERFLOW. -/
def Obligations.LzDecompressExpandsTheRecords : Prop :=
  ∀ (s : State) (out : List Byte), s.canRun → LzExpands [] s.source out →
    (out.length ≤ s.dstCap.toNat → ∃ t, exec .lzD s = .next t ∧ Succeeds s t out) ∧
    (s.dstCap.toNat < out.length → ∃ t, exec .lzD s = .next t ∧ Fails s t .outputOverflow)

/-- R266, R303: a record with a distance beyond the output so far, or with distance 0 and a length, ends
LZ.D in INVALID_BACK_REFERENCE before any byte of it is emitted; where the output before it is longer
than DST_CAP, OUTPUT_OVERFLOW comes first (R313). With no output before it no byte changes, which is
deduced from R310 (log 8). -/
def Obligations.LzInvalidBackReference : Prop :=
  ∀ (s : State) (good out rest : List Byte) (d0 d1 l c : Byte), s.canRun →
    s.source = good ++ d0 :: d1 :: l :: c :: rest → rest.length % 4 = 0 →
    LzExpands [] good out →
    ((recordDistance d0 d1 = 0 ∧ l ≠ 0) ∨ out.length < recordDistance d0 d1) →
    (out.length ≤ s.dstCap.toNat → ∃ t, exec .lzD s = .next t ∧ Fails s t .invalidBackReference ∧
      (out = [] → KeepsMemory s t)) ∧
    (s.dstCap.toNat < out.length → ∃ t, exec .lzD s = .next t ∧ Fails s t .outputOverflow)

/-- R270: LZ77 round trip. LZ.D of what LZ.C wrote, on a build with any parameters (R344) and into any
good region that is large enough, completes without error and produces the input. -/
def Obligations.LzRoundTrip : Prop :=
  ∀ (s t : State) (d c : Word) (b : Config.Build), s.canRun → exec .lzC s = .next t → t.err = false →
    let u := { t with srcAddr := s.dstAddr, srcLen := t.outLen, dstAddr := d, dstCap := c, build := b }
    u.regionsOk → s.srcLen ≤ c →
    ∃ v, exec .lzD u = .next v ∧ Succeeds u v s.source

/-! ### Huffman -/

/-- R180, R181 and R123: the leaves HUF.C builds from are the byte values of the input, strictly
ascending, each with its number of occurrences. -/
def Obligations.LeavesAreTheByteCounts : Prop :=
  ∀ (src : List Byte) (h : Hidden), src.length < 2 ^ 32 →
    let leaves := leavesOf (countFreq src h)
    leaves.Pairwise (fun p q => p.1 < q.1) ∧
    (∀ p ∈ leaves, p.2.toNat = src.count p.1 ∧ 1 ≤ p.2.toNat) ∧
    (∀ v, v ∈ src ↔ ∃ f, (v, f) ∈ leaves)

/-- R181, R182: over `k` leaves the arena has `2k - 1` nodes, leaf `e` at id `e`; node `x >= k` merges
the two live nodes that come first in the order (weight, id), the first one left, and its weight is
their sum. -/
def Obligations.TreeMergesTheTwoLightest : Prop :=
  ∀ leaves : List (Byte × Word), leaves ≠ [] → leaves.length ≤ 256 →
    let nodes := (treeOf leaves).1
    nodes.length = 2 * leaves.length - 1 ∧ (treeOf leaves).2 + 1 = nodes.length ∧
    (∀ (e : Nat) (p : Byte × Word), leaves[e]? = some p → nodes[e]? = some (Node.leaf p.1 (p.2.setWidth 40))) ∧
    (∀ x, leaves.length ≤ x → x < nodes.length →
      ∃ a b, nodes[x]? = some (.internal (some a) (some b) (weightOf nodes a + weightOf nodes b)) ∧
        LiveAt nodes x a ∧ LiveAt nodes x b ∧ a ≠ b ∧
        (∀ y, LiveAt nodes x y → y ≠ a → Before nodes a y) ∧
        (∀ y, LiveAt nodes x y → y ≠ a → y ≠ b → Before nodes b y))

/-- R184, R185: the root weight is the sum of the leaf weights, with no overflow of the 40-bit
weights. -/
def Obligations.RootWeightIsTheSum : Prop :=
  ∀ leaves : List (Byte × Word), leaves ≠ [] → leaves.length ≤ 256 →
    (weightOf (treeOf leaves).1 (treeOf leaves).2).toNat = (leaves.map fun p => p.2.toNat).sum

/-- R183: with two symbols or more, the code of every present value is the path from the root to a
leaf of that value; with one symbol it is `"0"`. Its length is 1 to `k - 1` (1 when `k <= 2`). -/
def Obligations.CodesArePathsToLeaves : Prop :=
  ∀ (h : Hidden) (v : Byte), tableAt h.present v = true →
    let g := tablesOf h
    let k := (leavesOf h).length
    (2 ≤ k → ∃ x w, follow g.nodes g.root (tableAt g.code v) = some x ∧
      g.nodes[x]? = some (.leaf v w)) ∧
    (k = 1 → tableAt g.code v = [false]) ∧
    1 ≤ (tableAt g.code v).length ∧ (tableAt g.code v).length ≤ max 1 (k - 1)

/-- R184: the codes form a prefix code: no code of a present value is a prefix of another's. -/
def Obligations.CodesArePrefixFree : Prop :=
  ∀ (h : Hidden) (v u : Byte), tableAt h.present v = true → tableAt h.present u = true → v ≠ u →
    ¬ tableAt (tablesOf h).code v <+: tableAt (tablesOf h).code u

/-- R186, R222: the tables depend on the FrequencyTable only, not on the order of the entries. -/
def Obligations.TablesIgnoreEntryOrder : Prop :=
  ∀ (es fs : List (Byte × Word)) (h : Hidden), (es.map Prod.fst).Nodup → es.Perm fs →
    tablesOf (enterAll es (clearFreq h)) = tablesOf (enterAll fs (clearFreq h))

/-- R121, R122, R191 to R194, R200, R307, R313: HUF.C of a non-empty input whose bit stream is longer
than its field can state ends in LENGTH_OVERFLOW before any byte, whatever DST_CAP is. Otherwise, where
the stream fits, it completes without error and emits the header, the bit length and the packed bits;
where it does not fit it ends in OUTPUT_OVERFLOW before any byte. -/
def Obligations.HuffmanCompressEmitsTheStream : Prop :=
  ∀ s : State, s.canRun → s.srcLen ≠ 0 →
    let g := tablesOf (countFreq s.source s.hidden)
    let bits := s.source.flatMap (tableAt g.code)
    let size := 6 + 5 * (leavesOf g).length + ceilDiv bits.length 8
    (2 ^ 32 ≤ bits.length → ∃ t, exec .hufC s = .next t ∧ FailsClean s t .lengthOverflow) ∧
    (bits.length < 2 ^ 32 → size ≤ s.dstCap.toNat →
      ∃ t packed, exec .hufC s = .next t ∧ Packs packed bits ∧
        Succeeds s t (huffStream (leavesOf g) bits.length packed) ∧ t.outLen.toNat = size) ∧
    (bits.length < 2 ^ 32 → s.dstCap.toNat < size →
      ∃ t, exec .hufC s = .next t ∧ FailsClean s t .outputOverflow)

/-- R222, R224: HUF.D raises MALFORMED_HEADER, before any output byte, for a buffer of one byte, for
more than 256 symbols, for entries that do not fit, for a repeated value, and for a packed field that
does not fit. -/
def Obligations.HuffmanMalformedHeaders : Prop :=
  ∀ s : State, s.ready → s.regionsOk →
    let src := s.source
    let n := src.length
    let k := (byteAt src 0).toNat * 256 + (byteAt src 1).toNat
    let bitLength := (be32At src (2 + 5 * k)).toNat
    (n = 1 ∨
      (2 ≤ n ∧ 256 < k) ∨
      (2 ≤ n ∧ n < 6 + 5 * k) ∨
      (6 + 5 * k ≤ n ∧ ∃ e f, e < f ∧ f < k ∧ byteAt src (2 + 5 * e) = byteAt src (2 + 5 * f)) ∨
      (6 + 5 * k ≤ n ∧ n - (6 + 5 * k) < ceilDiv bitLength 8)) →
    ∃ t, exec .hufD s = .next t ∧ FailsClean s t .malformedHeader

/-- R223: a stream with no symbols decodes to no output when bitLength is 0 and is CORRUPT_STREAM
otherwise; bytes after the packed field are ignored (R224). That this CORRUPT_STREAM changes no byte is
deduced from R310 (log 8). -/
def Obligations.HuffmanZeroSymbols : Prop :=
  ∀ (s : State) (bitLength : Nat) (packed trailing : List Byte), s.ready → s.regionsOk →
    bitLength < 2 ^ 32 → packed.length = ceilDiv bitLength 8 →
    s.source = huffStream [] bitLength packed ++ trailing →
    (bitLength = 0 → ∃ t, exec .hufD s = .next t ∧ Succeeds s t []) ∧
    (0 < bitLength → ∃ t, exec .hufD s = .next t ∧ FailsClean s t .corruptStream)

/-- R225, R226: with one symbol each `0` bit emits it, and a `1` bit is CORRUPT_STREAM; where more
symbols than DST_CAP come before it, or before the end, OUTPUT_OVERFLOW comes first (R306, R313). -/
def Obligations.HuffmanOneSymbol : Prop :=
  ∀ (s : State) (v : Byte) (f : Word) (bitLength : Nat) (packed trailing : List Byte), s.canRun →
    bitLength < 2 ^ 32 → packed.length = ceilDiv bitLength 8 →
    s.source = huffStream [(v, f)] bitLength packed ++ trailing →
    ((∀ i, i < bitLength → packedBit packed i = false) →
      (bitLength ≤ s.dstCap.toNat →
        ∃ t, exec .hufD s = .next t ∧ Succeeds s t (List.replicate bitLength v)) ∧
      (s.dstCap.toNat < bitLength → ∃ t, exec .hufD s = .next t ∧ Fails s t .outputOverflow)) ∧
    (∀ j, j < bitLength → packedBit packed j = true → (∀ i, i < j → packedBit packed i = false) →
      (j ≤ s.dstCap.toNat → ∃ t, exec .hufD s = .next t ∧ Fails s t .corruptStream) ∧
      (s.dstCap.toNat < j → ∃ t, exec .hufD s = .next t ∧ Fails s t .outputOverflow))

/-- R220, R222, R224, R228: HUF.D of a header with distinct values in any order and of the codes of the
symbols `xs`, whatever the padding bits and the trailing bytes, completes without error and emits
`xs`. -/
def Obligations.HuffmanDecompressDecodesTheCodes : Prop :=
  ∀ (s : State) (entries : List (Byte × Word)) (xs packed trailing : List Byte), s.canRun →
    entries ≠ [] → (entries.map Prod.fst).Nodup → (∀ x ∈ xs, x ∈ entries.map Prod.fst) →
    let g := tablesOf (enterAll entries (clearFreq s.hidden))
    let bits := xs.flatMap (tableAt g.code)
    bits.length < 2 ^ 32 → packed.length = ceilDiv bits.length 8 →
    (∀ i, i < bits.length → packedBit packed i = bits.getD i false) →
    s.source = huffStream entries bits.length packed ++ trailing →
    (xs.length ≤ s.dstCap.toNat → ∃ t, exec .hufD s = .next t ∧ Succeeds s t xs) ∧
    (s.dstCap.toNat < xs.length → ∃ t, exec .hufD s = .next t ∧ Fails s t .outputOverflow)

/-- R227: bits that end inside a codeword are CORRUPT_STREAM: after the codes of `xs`, a part of a
code of some symbol, neither empty nor whole; where `xs` is longer than DST_CAP, OUTPUT_OVERFLOW comes
first (R313). -/
def Obligations.HuffmanEndInsideCodeword : Prop :=
  ∀ (s : State) (entries : List (Byte × Word)) (xs packed trailing : List Byte) (y : Byte)
    (part : List Bool), s.canRun →
    (entries.map Prod.fst).Nodup → (∀ x ∈ xs, x ∈ entries.map Prod.fst) →
    y ∈ entries.map Prod.fst →
    let g := tablesOf (enterAll entries (clearFreq s.hidden))
    let bits := xs.flatMap (tableAt g.code) ++ part
    part ≠ [] → part <+: tableAt g.code y → part ≠ tableAt g.code y →
    bits.length < 2 ^ 32 → packed.length = ceilDiv bits.length 8 →
    (∀ i, i < bits.length → packedBit packed i = bits.getD i false) →
    s.source = huffStream entries bits.length packed ++ trailing →
    (xs.length ≤ s.dstCap.toNat → ∃ t, exec .hufD s = .next t ∧ Fails s t .corruptStream) ∧
    (s.dstCap.toNat < xs.length → ∃ t, exec .hufD s = .next t ∧ Fails s t .outputOverflow)

/-- R230: Huffman round trip. HUF.D of what HUF.C wrote, into any good region that is large enough,
completes without error and produces the input. -/
def Obligations.HuffmanRoundTrip : Prop :=
  ∀ (s t : State) (d c : Word), s.canRun → exec .hufC s = .next t → t.err = false →
    let u := { t with srcAddr := s.dstAddr, srcLen := t.outLen, dstAddr := d, dstCap := c }
    u.regionsOk → s.srcLen ≤ c →
    ∃ v, exec .hufD u = .next v ∧ Succeeds u v s.source

/-! ### The host's notation and the stream integers -/

/-- R132: each pseudo-instruction's expansion, as the host writes and polls it stands for. R131: what
each line does, and the state a program starts in: its actions, in the order of its lines, come before
any other, and its `mem` lines are in the data space already, wherever they stand: a last `mem` line
adds its bytes and no action, a last line of another kind changes no byte. How a program is loaded is
the model's choice (log 5). -/
def Obligations.PseudoInstructionExpansions : Prop :=
  (∀ s n d c : Word, programAgenda (expand (.setup s n d c)) =
    [.hostWrite 0x18 s, .hostWrite 0x1C n, .hostWrite 0x20 d, .hostWrite 0x24 c]) ∧
  programAgenda (expand (.command .hufC)) = [.hostWrite 0x0C 1] ∧
  programAgenda (expand (.command .hufD)) = [.hostWrite 0x0C 5] ∧
  programAgenda (expand (.command .lzC)) = [.hostWrite 0x0C 2] ∧
  programAgenda (expand (.command .lzD)) = [.hostWrite 0x0C 6] ∧
  programAgenda (expand (.command .rleC)) = [.hostWrite 0x0C 3] ∧
  programAgenda (expand (.command .rleD)) = [.hostWrite 0x0C 7] ∧
  programAgenda (expand .wait) = [.poll 0x10 1 1 1] ∧
  programAgenda (expand .ack) = [.hostWrite 0x10 6] ∧
  programAgenda (expand (.abort false)) = [.hostWrite 0x08 2] ∧
  programAgenda (expand (.abort true)) = [.hostWrite 0x08 3] ∧
  (∀ r v, programAgenda [.wr r v] = [.hostWrite (offsetOf r) v]) ∧
  (∀ r, programAgenda [.rd r] = [.hostRead (offsetOf r)]) ∧
  (∀ f v, programAgenda [.poll f v] = [.poll (offsetOf f.reg) f.hi f.lo v]) ∧
  (∀ p q, programAgenda (p ++ q) = programAgenda p ++ programAgenda q) ∧
  (∀ (s : State) (lines : List HostLine),
    (s.withProgram lines).agenda = programAgenda lines ++ s.agenda) ∧
  (∀ s : State, s.withProgram [] = s) ∧
  (∀ (s : State) (lines : List HostLine) (l : HostLine), (∀ base bs, l ≠ .mem base bs) →
    (s.withProgram (lines ++ [l])).mem = (s.withProgram lines).mem) ∧
  (∀ (s : State) (lines : List HostLine) (base : Word) (bs : List Byte), Memory.wf s.mem →
    (∀ l ∈ lines, l.wf = true) → base.toNat + bs.length ≤ 2 ^ 32 →
    let u := s.withProgram lines
    let t := s.withProgram (lines ++ [.mem base bs])
    t = { u with mem := t.mem } ∧ Memory.readList t.mem base.toNat bs.length = bs ∧
    KeepsOutside u t base.toNat bs.length)

/-- R323: `ack` clears DONE and ERR, `irq` falls, and ERR_CODE and OUT_LEN keep their values. -/
def Obligations.AcknowledgeClearsDoneAndErr : Prop :=
  ∀ (s : State) (rest : List Action), s.build.wf = true → s.rstN = true →
    s.agenda = programAgenda (expand .ack) ++ rest →
    ∃ t, step s = .next t ∧ t.done = false ∧ t.err = false ∧ t.irq = false ∧
      t.errCode = s.errCode ∧ t.outLen = s.outLen ∧ t.busy = s.busy ∧ t.mem = s.mem ∧
      SameFrame { s with agenda := rest } t

/-- R18: the bytes of `be16` and `be32`, most significant first, and what `rd_be16` and `rd_be32` read
from bytes. -/
def Obligations.BigEndianFields : Prop :=
  (∀ v : BitVec 16, (be16 v).map BitVec.toNat = [v.toNat / 2 ^ 8, v.toNat % 2 ^ 8]) ∧
  (∀ v : Word, (be32 v).map BitVec.toNat =
    [v.toNat / 2 ^ 24, v.toNat / 2 ^ 16 % 2 ^ 8, v.toNat / 2 ^ 8 % 2 ^ 8, v.toNat % 2 ^ 8]) ∧
  (∀ xs i, (be16At xs i).toNat = (byteAt xs i).toNat * 2 ^ 8 + (byteAt xs (i + 1)).toNat) ∧
  (∀ xs i, (be32At xs i).toNat = (byteAt xs i).toNat * 2 ^ 24 + (byteAt xs (i + 1)).toNat * 2 ^ 16 +
    (byteAt xs (i + 2)).toNat * 2 ^ 8 + (byteAt xs (i + 3)).toNat)
end

