-- ==== Sys2Proof/Laws/State.lean ====
section
/-! SUPPORT. What each named update of the state leaves in each field, one lemma a field, true by rfl. -/

namespace Sys2Proof.Machine

/-! `accept` -/

@[simp] theorem accept_build (op : Instr) (s : State) : (accept op s).build = s.build := rfl
@[simp] theorem accept_platform (op : Instr) (s : State) : (accept op s).platform = s.platform := rfl
@[simp] theorem accept_irqEn (op : Instr) (s : State) : (accept op s).irqEn = s.irqEn := rfl
@[simp] theorem accept_busy (op : Instr) (s : State) : (accept op s).busy = true := rfl
@[simp] theorem accept_done (op : Instr) (s : State) : (accept op s).done = false := rfl
@[simp] theorem accept_err (op : Instr) (s : State) : (accept op s).err = false := rfl
@[simp] theorem accept_errCode (op : Instr) (s : State) : (accept op s).errCode = .none := rfl
@[simp] theorem accept_srcAddr (op : Instr) (s : State) : (accept op s).srcAddr = s.srcAddr := rfl
@[simp] theorem accept_srcLen (op : Instr) (s : State) : (accept op s).srcLen = s.srcLen := rfl
@[simp] theorem accept_dstAddr (op : Instr) (s : State) : (accept op s).dstAddr = s.dstAddr := rfl
@[simp] theorem accept_dstCap (op : Instr) (s : State) : (accept op s).dstCap = s.dstCap := rfl
@[simp] theorem accept_outLen (op : Instr) (s : State) : (accept op s).outLen = 0 := rfl
@[simp] theorem accept_curOp (op : Instr) (s : State) : (accept op s).curOp = some op := rfl
@[simp] theorem accept_abortReq (op : Instr) (s : State) : (accept op s).abortReq = false := rfl
@[simp] theorem accept_hidden (op : Instr) (s : State) : (accept op s).hidden = { s.hidden with outLen := 0 } := rfl
@[simp] theorem accept_mem (op : Instr) (s : State) : (accept op s).mem = s.mem := rfl
@[simp] theorem accept_rstN (op : Instr) (s : State) : (accept op s).rstN = s.rstN := rfl
@[simp] theorem accept_regRdata (op : Instr) (s : State) : (accept op s).regRdata = s.regRdata := rfl
@[simp] theorem accept_dataRdata (op : Instr) (s : State) : (accept op s).dataRdata = s.dataRdata := rfl
@[simp] theorem accept_agenda (op : Instr) (s : State) : (accept op s).agenda = s.agenda := rfl
@[simp] theorem accept_coreHeld (op : Instr) (s : State) : (accept op s).coreHeld = s.coreHeld := rfl
@[simp] theorem accept_draws (op : Instr) (s : State) : (accept op s).draws = s.draws := rfl

/-! `reject` -/

@[simp] theorem reject_build (s : State) : (reject s).build = s.build := rfl
@[simp] theorem reject_platform (s : State) : (reject s).platform = s.platform := rfl
@[simp] theorem reject_irqEn (s : State) : (reject s).irqEn = s.irqEn := rfl
@[simp] theorem reject_busy (s : State) : (reject s).busy = s.busy := rfl
@[simp] theorem reject_done (s : State) : (reject s).done = true := rfl
@[simp] theorem reject_err (s : State) : (reject s).err = true := rfl
@[simp] theorem reject_errCode (s : State) : (reject s).errCode = .unsupportedAlgorithm := rfl
@[simp] theorem reject_srcAddr (s : State) : (reject s).srcAddr = s.srcAddr := rfl
@[simp] theorem reject_srcLen (s : State) : (reject s).srcLen = s.srcLen := rfl
@[simp] theorem reject_dstAddr (s : State) : (reject s).dstAddr = s.dstAddr := rfl
@[simp] theorem reject_dstCap (s : State) : (reject s).dstCap = s.dstCap := rfl
@[simp] theorem reject_outLen (s : State) : (reject s).outLen = 0 := rfl
@[simp] theorem reject_curOp (s : State) : (reject s).curOp = s.curOp := rfl
@[simp] theorem reject_abortReq (s : State) : (reject s).abortReq = s.abortReq := rfl
@[simp] theorem reject_hidden (s : State) : (reject s).hidden = s.hidden := rfl
@[simp] theorem reject_mem (s : State) : (reject s).mem = s.mem := rfl
@[simp] theorem reject_rstN (s : State) : (reject s).rstN = s.rstN := rfl
@[simp] theorem reject_regRdata (s : State) : (reject s).regRdata = s.regRdata := rfl
@[simp] theorem reject_dataRdata (s : State) : (reject s).dataRdata = s.dataRdata := rfl
@[simp] theorem reject_agenda (s : State) : (reject s).agenda = s.agenda := rfl
@[simp] theorem reject_coreHeld (s : State) : (reject s).coreHeld = s.coreHeld := rfl
@[simp] theorem reject_draws (s : State) : (reject s).draws = s.draws := rfl

/-! `finish` -/

@[simp] theorem finish_build (s : State) : (finish s).build = s.build := rfl
@[simp] theorem finish_platform (s : State) : (finish s).platform = s.platform := rfl
@[simp] theorem finish_irqEn (s : State) : (finish s).irqEn = s.irqEn := rfl
@[simp] theorem finish_busy (s : State) : (finish s).busy = false := rfl
@[simp] theorem finish_done (s : State) : (finish s).done = true := rfl
@[simp] theorem finish_err (s : State) : (finish s).err = false := rfl
@[simp] theorem finish_errCode (s : State) : (finish s).errCode = .none := rfl
@[simp] theorem finish_srcAddr (s : State) : (finish s).srcAddr = s.srcAddr := rfl
@[simp] theorem finish_srcLen (s : State) : (finish s).srcLen = s.srcLen := rfl
@[simp] theorem finish_dstAddr (s : State) : (finish s).dstAddr = s.dstAddr := rfl
@[simp] theorem finish_dstCap (s : State) : (finish s).dstCap = s.dstCap := rfl
@[simp] theorem finish_outLen (s : State) : (finish s).outLen = s.hidden.outLen := rfl
@[simp] theorem finish_curOp (s : State) : (finish s).curOp = none := rfl
@[simp] theorem finish_abortReq (s : State) : (finish s).abortReq = false := rfl
@[simp] theorem finish_hidden (s : State) : (finish s).hidden = Config.freeHidden s.draws := rfl
@[simp] theorem finish_mem (s : State) : (finish s).mem = s.mem := rfl
@[simp] theorem finish_rstN (s : State) : (finish s).rstN = s.rstN := rfl
@[simp] theorem finish_regRdata (s : State) : (finish s).regRdata = s.regRdata := rfl
@[simp] theorem finish_dataRdata (s : State) : (finish s).dataRdata = s.dataRdata := rfl
@[simp] theorem finish_agenda (s : State) : (finish s).agenda = s.agenda := rfl
@[simp] theorem finish_coreHeld (s : State) : (finish s).coreHeld = s.coreHeld := rfl
@[simp] theorem finish_draws (s : State) : (finish s).draws = s.draws + 1 := rfl

/-! `errorCompletion` -/

@[simp] theorem errorCompletion_build (e : ErrCode) (s : State) : (errorCompletion e s).build = s.build := rfl
@[simp] theorem errorCompletion_platform (e : ErrCode) (s : State) : (errorCompletion e s).platform = s.platform := rfl
@[simp] theorem errorCompletion_irqEn (e : ErrCode) (s : State) : (errorCompletion e s).irqEn = s.irqEn := rfl
@[simp] theorem errorCompletion_busy (e : ErrCode) (s : State) : (errorCompletion e s).busy = false := rfl
@[simp] theorem errorCompletion_done (e : ErrCode) (s : State) : (errorCompletion e s).done = true := rfl
@[simp] theorem errorCompletion_err (e : ErrCode) (s : State) : (errorCompletion e s).err = true := rfl
@[simp] theorem errorCompletion_errCode (e : ErrCode) (s : State) : (errorCompletion e s).errCode = e := rfl
@[simp] theorem errorCompletion_srcAddr (e : ErrCode) (s : State) : (errorCompletion e s).srcAddr = s.srcAddr := rfl
@[simp] theorem errorCompletion_srcLen (e : ErrCode) (s : State) : (errorCompletion e s).srcLen = s.srcLen := rfl
@[simp] theorem errorCompletion_dstAddr (e : ErrCode) (s : State) : (errorCompletion e s).dstAddr = s.dstAddr := rfl
@[simp] theorem errorCompletion_dstCap (e : ErrCode) (s : State) : (errorCompletion e s).dstCap = s.dstCap := rfl
@[simp] theorem errorCompletion_outLen (e : ErrCode) (s : State) : (errorCompletion e s).outLen = 0 := rfl
@[simp] theorem errorCompletion_curOp (e : ErrCode) (s : State) : (errorCompletion e s).curOp = none := rfl
@[simp] theorem errorCompletion_abortReq (e : ErrCode) (s : State) : (errorCompletion e s).abortReq = false := rfl
@[simp] theorem errorCompletion_hidden (e : ErrCode) (s : State) : (errorCompletion e s).hidden = Config.freeHidden s.draws := rfl
@[simp] theorem errorCompletion_mem (e : ErrCode) (s : State) : (errorCompletion e s).mem = s.mem := rfl
@[simp] theorem errorCompletion_rstN (e : ErrCode) (s : State) : (errorCompletion e s).rstN = s.rstN := rfl
@[simp] theorem errorCompletion_regRdata (e : ErrCode) (s : State) : (errorCompletion e s).regRdata = s.regRdata := rfl
@[simp] theorem errorCompletion_dataRdata (e : ErrCode) (s : State) : (errorCompletion e s).dataRdata = s.dataRdata := rfl
@[simp] theorem errorCompletion_agenda (e : ErrCode) (s : State) : (errorCompletion e s).agenda = s.agenda := rfl
@[simp] theorem errorCompletion_coreHeld (e : ErrCode) (s : State) : (errorCompletion e s).coreHeld = s.coreHeld := rfl
@[simp] theorem errorCompletion_draws (e : ErrCode) (s : State) : (errorCompletion e s).draws = s.draws + 1 := rfl

/-! `spoilDestination` -/

@[simp] theorem spoilDestination_build (s : State) : (spoilDestination s).build = s.build := rfl
@[simp] theorem spoilDestination_platform (s : State) : (spoilDestination s).platform = s.platform := rfl
@[simp] theorem spoilDestination_irqEn (s : State) : (spoilDestination s).irqEn = s.irqEn := rfl
@[simp] theorem spoilDestination_busy (s : State) : (spoilDestination s).busy = s.busy := rfl
@[simp] theorem spoilDestination_done (s : State) : (spoilDestination s).done = s.done := rfl
@[simp] theorem spoilDestination_err (s : State) : (spoilDestination s).err = s.err := rfl
@[simp] theorem spoilDestination_errCode (s : State) : (spoilDestination s).errCode = s.errCode := rfl
@[simp] theorem spoilDestination_srcAddr (s : State) : (spoilDestination s).srcAddr = s.srcAddr := rfl
@[simp] theorem spoilDestination_srcLen (s : State) : (spoilDestination s).srcLen = s.srcLen := rfl
@[simp] theorem spoilDestination_dstAddr (s : State) : (spoilDestination s).dstAddr = s.dstAddr := rfl
@[simp] theorem spoilDestination_dstCap (s : State) : (spoilDestination s).dstCap = s.dstCap := rfl
@[simp] theorem spoilDestination_outLen (s : State) : (spoilDestination s).outLen = s.outLen := rfl
@[simp] theorem spoilDestination_curOp (s : State) : (spoilDestination s).curOp = s.curOp := rfl
@[simp] theorem spoilDestination_abortReq (s : State) : (spoilDestination s).abortReq = s.abortReq := rfl
@[simp] theorem spoilDestination_hidden (s : State) : (spoilDestination s).hidden = s.hidden := rfl
@[simp] theorem spoilDestination_mem (s : State) : (spoilDestination s).mem = Memory.spoil s.mem s.draws s.dstAddr.toNat s.dstBytes := rfl
@[simp] theorem spoilDestination_rstN (s : State) : (spoilDestination s).rstN = s.rstN := rfl
@[simp] theorem spoilDestination_regRdata (s : State) : (spoilDestination s).regRdata = s.regRdata := rfl
@[simp] theorem spoilDestination_dataRdata (s : State) : (spoilDestination s).dataRdata = s.dataRdata := rfl
@[simp] theorem spoilDestination_agenda (s : State) : (spoilDestination s).agenda = s.agenda := rfl
@[simp] theorem spoilDestination_coreHeld (s : State) : (spoilDestination s).coreHeld = s.coreHeld := rfl
@[simp] theorem spoilDestination_draws (s : State) : (spoilDestination s).draws = s.draws := rfl

/-! `resetRegisters` -/

@[simp] theorem resetRegisters_build (s : State) : (resetRegisters s).build = s.build := rfl
@[simp] theorem resetRegisters_platform (s : State) : (resetRegisters s).platform = s.platform := rfl
@[simp] theorem resetRegisters_irqEn (s : State) : (resetRegisters s).irqEn = false := rfl
@[simp] theorem resetRegisters_busy (s : State) : (resetRegisters s).busy = false := rfl
@[simp] theorem resetRegisters_done (s : State) : (resetRegisters s).done = false := rfl
@[simp] theorem resetRegisters_err (s : State) : (resetRegisters s).err = false := rfl
@[simp] theorem resetRegisters_errCode (s : State) : (resetRegisters s).errCode = .none := rfl
@[simp] theorem resetRegisters_srcAddr (s : State) : (resetRegisters s).srcAddr = 0 := rfl
@[simp] theorem resetRegisters_srcLen (s : State) : (resetRegisters s).srcLen = 0 := rfl
@[simp] theorem resetRegisters_dstAddr (s : State) : (resetRegisters s).dstAddr = 0 := rfl
@[simp] theorem resetRegisters_dstCap (s : State) : (resetRegisters s).dstCap = 0 := rfl
@[simp] theorem resetRegisters_outLen (s : State) : (resetRegisters s).outLen = 0 := rfl
@[simp] theorem resetRegisters_curOp (s : State) : (resetRegisters s).curOp = none := rfl
@[simp] theorem resetRegisters_abortReq (s : State) : (resetRegisters s).abortReq = false := rfl
@[simp] theorem resetRegisters_hidden (s : State) : (resetRegisters s).hidden = Config.freeHidden s.draws := rfl
@[simp] theorem resetRegisters_mem (s : State) : (resetRegisters s).mem = s.mem := rfl
@[simp] theorem resetRegisters_rstN (s : State) : (resetRegisters s).rstN = false := rfl
@[simp] theorem resetRegisters_regRdata (s : State) : (resetRegisters s).regRdata = s.regRdata := rfl
@[simp] theorem resetRegisters_dataRdata (s : State) : (resetRegisters s).dataRdata = s.dataRdata := rfl
@[simp] theorem resetRegisters_agenda (s : State) : (resetRegisters s).agenda = s.agenda := rfl
@[simp] theorem resetRegisters_coreHeld (s : State) : (resetRegisters s).coreHeld = s.coreHeld := rfl
@[simp] theorem resetRegisters_draws (s : State) : (resetRegisters s).draws = s.draws + 1 := rfl

/-! `releaseReset` -/

@[simp] theorem releaseReset_build (s : State) : (releaseReset s).build = s.build := rfl
@[simp] theorem releaseReset_platform (s : State) : (releaseReset s).platform = s.platform := rfl
@[simp] theorem releaseReset_irqEn (s : State) : (releaseReset s).irqEn = s.irqEn := rfl
@[simp] theorem releaseReset_busy (s : State) : (releaseReset s).busy = s.busy := rfl
@[simp] theorem releaseReset_done (s : State) : (releaseReset s).done = s.done := rfl
@[simp] theorem releaseReset_err (s : State) : (releaseReset s).err = s.err := rfl
@[simp] theorem releaseReset_errCode (s : State) : (releaseReset s).errCode = s.errCode := rfl
@[simp] theorem releaseReset_srcAddr (s : State) : (releaseReset s).srcAddr = s.srcAddr := rfl
@[simp] theorem releaseReset_srcLen (s : State) : (releaseReset s).srcLen = s.srcLen := rfl
@[simp] theorem releaseReset_dstAddr (s : State) : (releaseReset s).dstAddr = s.dstAddr := rfl
@[simp] theorem releaseReset_dstCap (s : State) : (releaseReset s).dstCap = s.dstCap := rfl
@[simp] theorem releaseReset_outLen (s : State) : (releaseReset s).outLen = s.outLen := rfl
@[simp] theorem releaseReset_curOp (s : State) : (releaseReset s).curOp = s.curOp := rfl
@[simp] theorem releaseReset_abortReq (s : State) : (releaseReset s).abortReq = s.abortReq := rfl
@[simp] theorem releaseReset_hidden (s : State) : (releaseReset s).hidden = s.hidden := rfl
@[simp] theorem releaseReset_mem (s : State) : (releaseReset s).mem = s.mem := rfl
@[simp] theorem releaseReset_rstN (s : State) : (releaseReset s).rstN = true := rfl
@[simp] theorem releaseReset_regRdata (s : State) : (releaseReset s).regRdata = s.regRdata := rfl
@[simp] theorem releaseReset_dataRdata (s : State) : (releaseReset s).dataRdata = s.dataRdata := rfl
@[simp] theorem releaseReset_agenda (s : State) : (releaseReset s).agenda = s.agenda := rfl
@[simp] theorem releaseReset_coreHeld (s : State) : (releaseReset s).coreHeld = s.coreHeld := rfl
@[simp] theorem releaseReset_draws (s : State) : (releaseReset s).draws = s.draws := rfl

/-! `writeStatus` -/

@[simp] theorem writeStatus_build (v : Word) (s : State) : (State.writeStatus v s).build = s.build := rfl
@[simp] theorem writeStatus_platform (v : Word) (s : State) : (State.writeStatus v s).platform = s.platform := rfl
@[simp] theorem writeStatus_irqEn (v : Word) (s : State) : (State.writeStatus v s).irqEn = s.irqEn := rfl
@[simp] theorem writeStatus_busy (v : Word) (s : State) : (State.writeStatus v s).busy = s.busy := rfl
@[simp] theorem writeStatus_done (v : Word) (s : State) : (State.writeStatus v s).done = (s.done && !v.getLsbD 1) := rfl
@[simp] theorem writeStatus_err (v : Word) (s : State) : (State.writeStatus v s).err = (s.err && !v.getLsbD 2) := rfl
@[simp] theorem writeStatus_errCode (v : Word) (s : State) : (State.writeStatus v s).errCode = s.errCode := rfl
@[simp] theorem writeStatus_srcAddr (v : Word) (s : State) : (State.writeStatus v s).srcAddr = s.srcAddr := rfl
@[simp] theorem writeStatus_srcLen (v : Word) (s : State) : (State.writeStatus v s).srcLen = s.srcLen := rfl
@[simp] theorem writeStatus_dstAddr (v : Word) (s : State) : (State.writeStatus v s).dstAddr = s.dstAddr := rfl
@[simp] theorem writeStatus_dstCap (v : Word) (s : State) : (State.writeStatus v s).dstCap = s.dstCap := rfl
@[simp] theorem writeStatus_outLen (v : Word) (s : State) : (State.writeStatus v s).outLen = s.outLen := rfl
@[simp] theorem writeStatus_curOp (v : Word) (s : State) : (State.writeStatus v s).curOp = s.curOp := rfl
@[simp] theorem writeStatus_abortReq (v : Word) (s : State) : (State.writeStatus v s).abortReq = s.abortReq := rfl
@[simp] theorem writeStatus_hidden (v : Word) (s : State) : (State.writeStatus v s).hidden = s.hidden := rfl
@[simp] theorem writeStatus_mem (v : Word) (s : State) : (State.writeStatus v s).mem = s.mem := rfl
@[simp] theorem writeStatus_rstN (v : Word) (s : State) : (State.writeStatus v s).rstN = s.rstN := rfl
@[simp] theorem writeStatus_regRdata (v : Word) (s : State) : (State.writeStatus v s).regRdata = s.regRdata := rfl
@[simp] theorem writeStatus_dataRdata (v : Word) (s : State) : (State.writeStatus v s).dataRdata = s.dataRdata := rfl
@[simp] theorem writeStatus_agenda (v : Word) (s : State) : (State.writeStatus v s).agenda = s.agenda := rfl
@[simp] theorem writeStatus_coreHeld (v : Word) (s : State) : (State.writeStatus v s).coreHeld = s.coreHeld := rfl
@[simp] theorem writeStatus_draws (v : Word) (s : State) : (State.writeStatus v s).draws = s.draws := rfl

/-! `writeCtrl` -/

@[simp] theorem writeCtrl_build (v : Word) (s : State) : (State.writeCtrl v s).build = s.build := rfl
@[simp] theorem writeCtrl_platform (v : Word) (s : State) : (State.writeCtrl v s).platform = s.platform := rfl
@[simp] theorem writeCtrl_irqEn (v : Word) (s : State) : (State.writeCtrl v s).irqEn = v.getLsbD 0 := rfl
@[simp] theorem writeCtrl_busy (v : Word) (s : State) : (State.writeCtrl v s).busy = s.busy := rfl
@[simp] theorem writeCtrl_done (v : Word) (s : State) : (State.writeCtrl v s).done = s.done := rfl
@[simp] theorem writeCtrl_err (v : Word) (s : State) : (State.writeCtrl v s).err = s.err := rfl
@[simp] theorem writeCtrl_errCode (v : Word) (s : State) : (State.writeCtrl v s).errCode = s.errCode := rfl
@[simp] theorem writeCtrl_srcAddr (v : Word) (s : State) : (State.writeCtrl v s).srcAddr = s.srcAddr := rfl
@[simp] theorem writeCtrl_srcLen (v : Word) (s : State) : (State.writeCtrl v s).srcLen = s.srcLen := rfl
@[simp] theorem writeCtrl_dstAddr (v : Word) (s : State) : (State.writeCtrl v s).dstAddr = s.dstAddr := rfl
@[simp] theorem writeCtrl_dstCap (v : Word) (s : State) : (State.writeCtrl v s).dstCap = s.dstCap := rfl
@[simp] theorem writeCtrl_outLen (v : Word) (s : State) : (State.writeCtrl v s).outLen = s.outLen := rfl
@[simp] theorem writeCtrl_curOp (v : Word) (s : State) : (State.writeCtrl v s).curOp = s.curOp := rfl
@[simp] theorem writeCtrl_abortReq (v : Word) (s : State) : (State.writeCtrl v s).abortReq = (s.abortReq || (s.busy && v.getLsbD 1)) := rfl
@[simp] theorem writeCtrl_hidden (v : Word) (s : State) : (State.writeCtrl v s).hidden = s.hidden := rfl
@[simp] theorem writeCtrl_mem (v : Word) (s : State) : (State.writeCtrl v s).mem = s.mem := rfl
@[simp] theorem writeCtrl_rstN (v : Word) (s : State) : (State.writeCtrl v s).rstN = s.rstN := rfl
@[simp] theorem writeCtrl_regRdata (v : Word) (s : State) : (State.writeCtrl v s).regRdata = s.regRdata := rfl
@[simp] theorem writeCtrl_dataRdata (v : Word) (s : State) : (State.writeCtrl v s).dataRdata = s.dataRdata := rfl
@[simp] theorem writeCtrl_agenda (v : Word) (s : State) : (State.writeCtrl v s).agenda = s.agenda := rfl
@[simp] theorem writeCtrl_coreHeld (v : Word) (s : State) : (State.writeCtrl v s).coreHeld = s.coreHeld := rfl
@[simp] theorem writeCtrl_draws (v : Word) (s : State) : (State.writeCtrl v s).draws = s.draws := rfl

/-! `hostRead` -/

@[simp] theorem hostRead_build (off : BitVec 6) (s : State) : (hostRead off s).build = s.build := rfl
@[simp] theorem hostRead_platform (off : BitVec 6) (s : State) : (hostRead off s).platform = s.platform := rfl
@[simp] theorem hostRead_irqEn (off : BitVec 6) (s : State) : (hostRead off s).irqEn = s.irqEn := rfl
@[simp] theorem hostRead_busy (off : BitVec 6) (s : State) : (hostRead off s).busy = s.busy := rfl
@[simp] theorem hostRead_done (off : BitVec 6) (s : State) : (hostRead off s).done = s.done := rfl
@[simp] theorem hostRead_err (off : BitVec 6) (s : State) : (hostRead off s).err = s.err := rfl
@[simp] theorem hostRead_errCode (off : BitVec 6) (s : State) : (hostRead off s).errCode = s.errCode := rfl
@[simp] theorem hostRead_srcAddr (off : BitVec 6) (s : State) : (hostRead off s).srcAddr = s.srcAddr := rfl
@[simp] theorem hostRead_srcLen (off : BitVec 6) (s : State) : (hostRead off s).srcLen = s.srcLen := rfl
@[simp] theorem hostRead_dstAddr (off : BitVec 6) (s : State) : (hostRead off s).dstAddr = s.dstAddr := rfl
@[simp] theorem hostRead_dstCap (off : BitVec 6) (s : State) : (hostRead off s).dstCap = s.dstCap := rfl
@[simp] theorem hostRead_outLen (off : BitVec 6) (s : State) : (hostRead off s).outLen = s.outLen := rfl
@[simp] theorem hostRead_curOp (off : BitVec 6) (s : State) : (hostRead off s).curOp = s.curOp := rfl
@[simp] theorem hostRead_abortReq (off : BitVec 6) (s : State) : (hostRead off s).abortReq = s.abortReq := rfl
@[simp] theorem hostRead_hidden (off : BitVec 6) (s : State) : (hostRead off s).hidden = s.hidden := rfl
@[simp] theorem hostRead_mem (off : BitVec 6) (s : State) : (hostRead off s).mem = s.mem := rfl
@[simp] theorem hostRead_rstN (off : BitVec 6) (s : State) : (hostRead off s).rstN = s.rstN := rfl
@[simp] theorem hostRead_regRdata (off : BitVec 6) (s : State) : (hostRead off s).regRdata = hostReadValue off s := rfl
@[simp] theorem hostRead_dataRdata (off : BitVec 6) (s : State) : (hostRead off s).dataRdata = s.dataRdata := rfl
@[simp] theorem hostRead_agenda (off : BitVec 6) (s : State) : (hostRead off s).agenda = s.agenda := rfl
@[simp] theorem hostRead_coreHeld (off : BitVec 6) (s : State) : (hostRead off s).coreHeld = s.coreHeld := rfl
@[simp] theorem hostRead_draws (off : BitVec 6) (s : State) : (hostRead off s).draws = if s.rstN then s.draws else s.draws + 1 := rfl

/-! `State.withProgram` -/

@[simp] theorem withProgram_build (p : List HostLine) (s : State) : (s.withProgram p).build = s.build := rfl
@[simp] theorem withProgram_platform (p : List HostLine) (s : State) : (s.withProgram p).platform = s.platform := rfl
@[simp] theorem withProgram_irqEn (p : List HostLine) (s : State) : (s.withProgram p).irqEn = s.irqEn := rfl
@[simp] theorem withProgram_busy (p : List HostLine) (s : State) : (s.withProgram p).busy = s.busy := rfl
@[simp] theorem withProgram_done (p : List HostLine) (s : State) : (s.withProgram p).done = s.done := rfl
@[simp] theorem withProgram_err (p : List HostLine) (s : State) : (s.withProgram p).err = s.err := rfl
@[simp] theorem withProgram_errCode (p : List HostLine) (s : State) : (s.withProgram p).errCode = s.errCode := rfl
@[simp] theorem withProgram_srcAddr (p : List HostLine) (s : State) : (s.withProgram p).srcAddr = s.srcAddr := rfl
@[simp] theorem withProgram_srcLen (p : List HostLine) (s : State) : (s.withProgram p).srcLen = s.srcLen := rfl
@[simp] theorem withProgram_dstAddr (p : List HostLine) (s : State) : (s.withProgram p).dstAddr = s.dstAddr := rfl
@[simp] theorem withProgram_dstCap (p : List HostLine) (s : State) : (s.withProgram p).dstCap = s.dstCap := rfl
@[simp] theorem withProgram_outLen (p : List HostLine) (s : State) : (s.withProgram p).outLen = s.outLen := rfl
@[simp] theorem withProgram_curOp (p : List HostLine) (s : State) : (s.withProgram p).curOp = s.curOp := rfl
@[simp] theorem withProgram_abortReq (p : List HostLine) (s : State) : (s.withProgram p).abortReq = s.abortReq := rfl
@[simp] theorem withProgram_hidden (p : List HostLine) (s : State) : (s.withProgram p).hidden = s.hidden := rfl
@[simp] theorem withProgram_rstN (p : List HostLine) (s : State) : (s.withProgram p).rstN = s.rstN := rfl
@[simp] theorem withProgram_regRdata (p : List HostLine) (s : State) : (s.withProgram p).regRdata = s.regRdata := rfl
@[simp] theorem withProgram_dataRdata (p : List HostLine) (s : State) : (s.withProgram p).dataRdata = s.dataRdata := rfl
@[simp] theorem withProgram_coreHeld (p : List HostLine) (s : State) : (s.withProgram p).coreHeld = s.coreHeld := rfl
@[simp] theorem withProgram_draws (p : List HostLine) (s : State) : (s.withProgram p).draws = s.draws := rfl
@[simp] theorem withProgram_mem (p : List HostLine) (s : State) :
    (s.withProgram p).mem = p.foldl lineStart s.mem := rfl
@[simp] theorem withProgram_agenda (p : List HostLine) (s : State) :
    (s.withProgram p).agenda = programAgenda p ++ s.agenda := rfl

end Sys2Proof.Machine
end

