-- ==== Sys2Proof/Laws/Memory.lean ====
section
/-! SUPPORT. The data space: a read after a write, the canonical form, and free bytes. -/

namespace Sys2Proof.Machine

@[simp] theorem read_nil (a : Nat) : Memory.read [] a = Memory.unlisted := rfl

@[simp] theorem read_cons (k a : Nat) (v : Byte) (rest : Memory) :
    Memory.read ((k, v) :: rest) a = if a = k then v else Memory.read rest a := rfl

/-- An address that no entry lists reads as unlisted. -/
theorem read_of_not_listed {m : Memory} {a : Nat} (h : ∀ c ∈ m, c.1 ≠ a) :
    Memory.read m a = Memory.unlisted := by
  induction m with
  | nil => rfl
  | cons c rest ih =>
    obtain ⟨k, v⟩ := c
    have hk : a ≠ k := fun e => h (k, v) (by simp) e.symm
    rw [read_cons, if_neg hk]
    exact ih fun c hc => h c (by simp [hc])

/-- A write leaves every other address alone, whatever the list's form. -/
theorem read_write_other (m : Memory) {a x : Nat} (b : Byte) (h : x ≠ a) :
    Memory.read (Memory.write m a b) x = Memory.read m x := by
  induction m with
  | nil => simp only [Memory.write, Memory.cell]; split <;> simp [h]
  | cons c rest ih =>
    obtain ⟨k, v⟩ := c
    simp only [Memory.write, Memory.cell]
    split
    · split <;> simp [h]
    · split
      · subst k; split <;> simp [h]
      · simp [ih]

/-- In a canonical list, entries after the first lie above it. -/
theorem above_of_wf {k : Nat} {v : Byte} {rest : Memory} (h : Memory.wf ((k, v) :: rest)) :
    ∀ c ∈ rest, k < c.1 := (List.pairwise_cons.1 h.1).1

theorem tail_wf {c : Host.Cell} {rest : Memory} (h : Memory.wf (c :: rest)) : Memory.wf rest :=
  ⟨(List.pairwise_cons.1 h.1).2, fun d hd => h.2 d (by simp [hd])⟩

/-- A read after a write to the same address gives the value written. -/
theorem read_write_same {m : Memory} (a : Nat) (b : Byte) (h : Memory.wf m) :
    Memory.read (Memory.write m a b) a = b := by
  induction m with
  | nil =>
    simp only [Memory.write, Memory.cell]
    split
    · next hb => simp [hb]
    · simp
  | cons c rest ih =>
    obtain ⟨k, v⟩ := c
    have above := above_of_wf h
    simp only [Memory.write, Memory.cell]
    split
    · next hlt =>
      split
      · next hb =>
        rw [hb]
        refine read_of_not_listed fun d hd => ?_
        rcases List.mem_cons.1 hd with rfl | hd
        · exact fun e => by simp at e; omega
        · have := above d hd; omega
      · simp
    · split
      · next heq =>
        subst heq
        split
        · next hb =>
          rw [hb]
          exact read_of_not_listed fun d hd => by have := above d hd; omega
        · simp
      · next hne => rw [read_cons, if_neg hne]; exact ih (tail_wf h)

/-- What a write lists is what was listed, or the address written. -/
theorem mem_write {m : Memory} {a : Nat} {b : Byte} {c : Host.Cell} (h : c ∈ Memory.write m a b) :
    c ∈ m ∨ (c = (a, b) ∧ b ≠ Memory.unlisted) := by
  induction m with
  | nil =>
    simp only [Memory.write, Memory.cell] at h
    split at h
    · simp at h
    · next hb => simp at h; exact .inr ⟨h, hb⟩
  | cons d rest ih =>
    obtain ⟨k, v⟩ := d
    simp only [Memory.write, Memory.cell] at h
    split at h
    · split at h
      · exact .inl h
      · next hb =>
        rcases List.mem_cons.1 h with rfl | h
        · exact .inr ⟨rfl, hb⟩
        · exact .inl h
    · split at h
      · split at h
        · exact .inl (by simp [h])
        · next hb =>
          rcases List.mem_cons.1 h with rfl | h
          · exact .inr ⟨rfl, hb⟩
          · exact .inl (by simp [h])
      · rcases List.mem_cons.1 h with rfl | h
        · exact .inl (by simp)
        · rcases ih h with h | h
          · exact .inl (by simp [h])
          · exact .inr h

/-- A write inside the data space keeps the canonical form. -/
theorem write_wf {m : Memory} {a : Nat} (b : Byte) (h : Memory.wf m) (ha : a < Config.spaceSize) :
    Memory.wf (Memory.write m a b) := by
  refine ⟨?_, fun c hc => ?_⟩
  · induction m with
    | nil => simp only [Memory.write, Memory.cell]; split <;> simp
    | cons d rest ih =>
      obtain ⟨k, v⟩ := d
      have above := above_of_wf h
      have hrest := (tail_wf h).1
      simp only [Memory.write, Memory.cell]
      split
      · next hlt =>
        split
        · exact h.1
        · refine List.pairwise_cons.2 ⟨fun c hc => ?_, h.1⟩
          rcases List.mem_cons.1 hc with rfl | hc
          · exact hlt
          · have := above c hc; simp; omega
      · split
        · next heq =>
          subst heq
          split
          · exact hrest
          · exact List.pairwise_cons.2 ⟨above, hrest⟩
        · next hne =>
          refine List.pairwise_cons.2 ⟨fun c hc => ?_, ih (tail_wf h)⟩
          rcases mem_write hc with hc | ⟨rfl, -⟩
          · exact above c hc
          · simp; omega
  · rcases mem_write hc with hc | ⟨rfl, hb⟩
    · exact h.2 c hc
    · exact ⟨ha, hb⟩

/-- Free bytes change nothing outside their range. -/
theorem read_spoil_outside (m : Memory) (draw base n a : Nat) (h : a < base ∨ base + n ≤ a) :
    Memory.read (Memory.spoil m draw base n) a = Memory.read m a := by
  induction n with
  | zero => rfl
  | succ n ih =>
    rw [Memory.spoil, read_write_other _ _ (by omega)]
    exact ih (by omega)

/-- Free bytes inside the data space keep the canonical form. -/
theorem spoil_wf {m : Memory} (draw base n : Nat) (h : Memory.wf m) (hn : base + n ≤ Config.spaceSize) :
    Memory.wf (Memory.spoil m draw base n) := by
  induction n with
  | zero => exact h
  | succ n ih => exact write_wf _ (ih (by omega)) (by omega)

@[simp] theorem length_readList (m : Memory) (base n : Nat) : (Memory.readList m base n).length = n := by
  simp [Memory.readList]

/-- The byte of a list read from the data space. -/
theorem byteAt_readList (m : Memory) {base n i : Nat} (h : i < n) :
    byteAt (Memory.readList m base n) i = Memory.read m (base + i) := by
  simp [byteAt, Memory.readList, h]

/-- Two ranges that read the same bytes read the same list. -/
theorem readList_congr {m m' : Memory} {base base' n : Nat}
    (h : ∀ i, i < n → Memory.read m (base + i) = Memory.read m' (base' + i)) :
    Memory.readList m base n = Memory.readList m' base' n := by
  simp only [Memory.readList]
  exact List.map_congr_left fun i hi => h i (List.mem_range.1 hi)

/-- A range that holds the bytes of a list reads as the list. -/
theorem readList_eq {m : Memory} {base : Nat} {xs : List Byte}
    (h : ∀ j, j < xs.length → Memory.read m (base + j) = byteAt xs j) :
    Memory.readList m base xs.length = xs := by
  refine List.ext_getElem (by simp) fun i h1 h2 => ?_
  have := h i h2
  simpa [Memory.readList, byteAt, h2] using this

@[simp] theorem length_source (s : State) : s.source.length = s.srcLen.toNat := by
  simp [State.source]

end Sys2Proof.Machine
end

