-- ==== Sys2Proof/Laws/Emit.lean ====
section
/-! SUPPORT. What emitting a list of bytes does (40_dispatch.md R157), said once. -/

namespace Sys2Proof.Machine

theorem read_writeList_outside (m : Memory) (base : Nat) (bs : List Byte) {a : Nat}
    (h : a < base ∨ base + bs.length ≤ a) :
    Memory.read (Memory.writeList m base bs) a = Memory.read m a := by
  induction bs generalizing m base with
  | nil => rfl
  | cons b bs ih =>
    simp only [List.length_cons] at h
    rw [Memory.writeList, ih _ _ (by omega), read_write_other _ _ (by omega)]

theorem writeList_wf {m : Memory} {base : Nat} {bs : List Byte} (h : Memory.wf m)
    (hb : base + bs.length ≤ Config.spaceSize) : Memory.wf (Memory.writeList m base bs) := by
  induction bs generalizing m base with
  | nil => exact h
  | cons b bs ih =>
    simp only [List.length_cons] at hb
    exact ih (write_wf b h (by omega)) (by omega)

theorem read_writeList {m : Memory} {base : Nat} {bs : List Byte} (h : Memory.wf m)
    (hb : base + bs.length ≤ Config.spaceSize) {j : Nat} (hj : j < bs.length) :
    Memory.read (Memory.writeList m base bs) (base + j) = byteAt bs j := by
  induction bs generalizing m base j with
  | nil => simp at hj
  | cons b bs ih =>
    simp only [List.length_cons] at hb hj
    rw [Memory.writeList]
    cases j with
    | zero =>
      rw [read_writeList_outside _ _ _ (by omega), Nat.add_zero, read_write_same base b h]
      simp [byteAt]
    | succ j =>
      have := ih (base := base + 1) (j := j) (write_wf (a := base) b h (by omega)) (by omega) (by omega)
      rw [show base + (j + 1) = base + 1 + j from by omega, this]
      simp [byteAt]

/-- The state after `bs` has been emitted, all of it having fitted. -/
def emittedState (bs : List Byte) (s : State) : State :=
  { s with
    mem := Memory.writeList s.mem (s.dstAddr.toNat + s.hidden.outLen.toNat) bs
    hidden := { s.hidden with outLen := s.hidden.outLen + BitVec.ofNat 32 bs.length } }

/-- The bytes that still fit. -/
def State.room (s : State) : Nat := s.dstCap.toNat - s.hidden.outLen.toNat

theorem emit_some {s : State} {b : Byte} (h : 0 < s.room) : emit b s = some (emittedState [b] s) := by
  have hne : s.hidden.outLen ≠ s.dstCap := by
    intro e; simp [State.room, e] at h
  simp [emit, hne, emittedState, Memory.writeList]

theorem emit_none {s : State} {b : Byte} (hle : s.hidden.outLen.toNat ≤ s.dstCap.toNat)
    (h : s.room = 0) : emit b s = none := by
  have : s.hidden.outLen = s.dstCap := by
    apply BitVec.eq_of_toNat_eq; simp [State.room] at h; omega
  simp [emit, this]

theorem outLen_add {s : State} {n : Nat} (h : n ≤ s.room) :
    (s.hidden.outLen + BitVec.ofNat 32 n).toNat = s.hidden.outLen.toNat + n := by
  have := s.dstCap.isLt
  have := s.hidden.outLen.isLt
  simp only [State.room] at h
  simp only [BitVec.toNat_add, BitVec.toNat_ofNat]
  omega

theorem emittedState_cons {b : Byte} {bs : List Byte} {s : State} (h : 0 < s.room) :
    emittedState bs (emittedState [b] s) = emittedState (b :: bs) s := by
  have h1 := outLen_add (s := s) (n := 1) (by omega)
  simp only [emittedState, Memory.writeList, List.length_cons, List.length_nil, Nat.zero_add]
  rw [h1]
  have : s.hidden.outLen + BitVec.ofNat 32 1 + BitVec.ofNat 32 bs.length
      = s.hidden.outLen + BitVec.ofNat 32 (bs.length + 1) := by
    apply BitVec.eq_of_toNat_eq; simp [BitVec.toNat_add]; omega
  rw [this, Nat.add_assoc]

/-- Emitting a list: what fits is written in order, and OUTPUT_OVERFLOW is raised exactly when
something does not fit (R157). -/
theorem emitAll_eq (bs : List Byte) {s : State} (h : s.hidden.outLen.toNat ≤ s.dstCap.toNat) :
    emitAll bs s = (emittedState (bs.take s.room) s, decide (s.room < bs.length)) := by
  induction bs generalizing s with
  | nil => simp [emitAll, emittedState, Memory.writeList]
  | cons b bs ih =>
    by_cases hr : s.room = 0
    · simp [emitAll, emit_none h hr, hr, emittedState, Memory.writeList]
    · have hpos : 0 < s.room := by omega
      have h1 := outLen_add (s := s) (n := 1) (by omega)
      have hroom : (emittedState [b] s).room = s.room - 1 := by
        simp only [State.room, emittedState, List.length_cons, List.length_nil, Nat.zero_add] at *
        omega
      have hle : (emittedState [b] s).hidden.outLen.toNat ≤ (emittedState [b] s).dstCap.toNat := by
        simp only [State.room] at hpos
        simp only [emittedState, List.length_cons, List.length_nil, Nat.zero_add]
        omega
      simp only [emitAll, emit_some hpos]
      rw [ih hle, hroom, emittedState_cons hpos]
      obtain ⟨n, hn⟩ : ∃ n, s.room = n + 1 := ⟨s.room - 1, by omega⟩
      simp [hn]

end Sys2Proof.Machine
end

