-- ==== Sys2Proof/Laws/Operate.lean ====
section
/-! SUPPORT. What taking a command does, for whatever rule the command has: one lemma an outcome. -/

namespace Sys2Proof.Machine

/-- The rule of each command, as a function of the accepted state. -/
def ruleOf : Instr → State → Emission
  | .hufC => fun t => huffCompress t.dstCap.toNat t.source t.hidden
  | .hufD => fun t => huffDecompress t.source t.hidden
  | .lzC => fun t => lzCompress t.build.windowSize.toNat t.build.lookaheadSize.toNat t.source
  | .lzD => fun t => lzDecompress t.source
  | .rleC => fun t => rleCompress t.source
  | .rleD => fun t => rleDecompress t.source

/-- Every command is taken and operated in the same way. -/
theorem exec_eq_submit (i : Instr) (s : State) : exec i s = submit i (operate (ruleOf i)) s := by
  cases i <;> rfl

/-- The core's move on an operation in flight. -/
theorem coreMove_eq (s : State) :
    coreMove s = match s.curOp with
      | none => s
      | some i => operate (ruleOf i) s := by
  unfold coreMove
  split <;> rename_i h <;> rw [h] <;> rfl

@[simp] theorem accept_source (op : Instr) (s : State) : (accept op s).source = s.source := rfl
@[simp] theorem accept_rangeOk (op : Instr) (s : State) : (accept op s).rangeOk = s.rangeOk := rfl

theorem rangeOk_dst {s : State} (h : s.rangeOk = true) :
    s.dstAddr.toNat + s.dstCap.toNat ≤ Config.spaceSize := by
  simp only [State.rangeOk, Bool.and_eq_true, decide_eq_true_eq] at h
  exact h.1.2

theorem submit_ready {op : Instr} {run : State → State} {s : State} (h : s.ready)
    (hp : s.premiseBroken = false) : submit op run s = .next (run (accept op s)) := by
  simp [submit, h.1, h.2, hp]

theorem premise_of_regionsOk {s : State} (h : s.regionsOk) : s.premiseBroken = false := by
  simp [State.premiseBroken, h.1, h.2]

/-- The three ends of an operation whose range check passes, from a state that has emitted nothing
and has no abort request. -/
theorem operate_cases (rule : State → Emission) {s : State} (ha : s.abortReq = false)
    (hr : s.rangeOk = true) (ho : s.hidden.outLen = 0) :
    ((rule s).bytes.length ≤ s.dstCap.toNat ∧ (rule s).error = none ∧
      operate rule s = finish (emittedState (rule s).bytes s)) ∨
    ((rule s).bytes.length ≤ s.dstCap.toNat ∧ ∃ e, (rule s).error = some e ∧
      operate rule s = raise e (emittedState (rule s).bytes s)) ∨
    (s.dstCap.toNat < (rule s).bytes.length ∧
      operate rule s = raise .outputOverflow (emittedState ((rule s).bytes.take s.dstCap.toNat) s)) := by
  have hroom : s.room = s.dstCap.toNat := by simp [State.room, ho]
  have he := emitAll_eq (rule s).bytes (s := s) (by simp [ho])
  rw [hroom] at he
  simp only [operate, ha, hr, he, Bool.false_and, Bool.false_eq_true, if_false, Bool.not_true]
  by_cases hl : s.dstCap.toNat < (rule s).bytes.length
  · right; right
    simp [hl]
  · have hl' : (rule s).bytes.length ≤ s.dstCap.toNat := by omega
    rw [List.take_of_length_le hl']
    cases hE : (rule s).error with
    | none => left; simp [hl, hl']
    | some e => right; left; exact ⟨hl', e, rfl, by simp [hl]⟩

/-- The output counter after at most DST_CAP bytes of an operation that had emitted none. -/
theorem emittedState_outLen {bs : List Byte} {s : State} (ho : s.hidden.outLen = 0)
    (hl : bs.length ≤ s.dstCap.toNat) : (emittedState bs s).hidden.outLen.toNat = bs.length := by
  have := s.dstCap.isLt
  simp [emittedState, ho]
  omega

theorem emittedState_keepsOutside {bs : List Byte} {s : State} (ho : s.hidden.outLen = 0) :
    KeepsOutside s (emittedState bs s) s.dstAddr.toNat bs.length := by
  intro a h
  simp only [emittedState, ho]
  exact read_writeList_outside _ _ _ (by simpa using h)

/-- `finish()` after the output has been emitted. -/
theorem finish_succeeds {bs : List Byte} {s : State} (ho : s.hidden.outLen = 0)
    (hl : bs.length ≤ s.dstCap.toNat) (hr : s.rangeOk = true) (hw : Memory.wf s.mem) :
    Succeeds s (finish (emittedState bs s)) bs where
  frame := by constructor <;> rfl
  idle := by constructor <;> rfl
  err := rfl
  errCode := rfl
  outLen := by simpa using emittedState_outLen ho hl
  written j hj := by
    have := rangeOk_dst hr
    simp only [finish_mem, emittedState, ho]
    exact read_writeList hw (by simp; omega) hj
  kept := emittedState_keepsOutside ho

/-- Free bytes in the destination region change nothing outside it. -/
theorem spoilDestination_keepsOutside (s : State) :
    KeepsOutside s (spoilDestination s) s.dstAddr.toNat s.dstCap.toNat := by
  intro a ha
  have : s.dstBytes ≤ s.dstCap.toNat := Nat.min_le_left _ _
  exact read_spoil_outside _ _ _ _ _ (by omega)

/-- Free bytes in the destination region keep the canonical form, wherever the region lies. -/
theorem spoilDestination_wf {s : State} (h : Memory.wf s.mem) : Memory.wf (spoilDestination s).mem := by
  have h1 := s.dstAddr.isLt
  have h2 : s.dstBytes ≤ Config.spaceSize - s.dstAddr.toNat := Nat.min_le_right _ _
  exact spoil_wf _ _ _ h (by simp only [Config.spaceSize] at *; omega)

/-- `raise E` changes nothing outside the destination region, and nothing at all where nothing has
been emitted. -/
theorem raise_fails (e : ErrCode) {bs : List Byte} {s : State} (ho : s.hidden.outLen = 0)
    (hl : bs.length ≤ s.dstCap.toNat) :
    Fails s (raise e (emittedState bs s)) e ∧
      (bs = [] → KeepsMemory s (raise e (emittedState bs s))) := by
  have hlen := emittedState_outLen ho hl
  have hkeep := emittedState_keepsOutside (bs := bs) ho
  refine ⟨⟨?_, ?_, rfl, rfl, rfl, fun a ha => ?_⟩, fun hb a => ?_⟩
  · unfold raise; split <;> constructor <;> rfl
  · unfold raise; split <;> constructor <;> rfl
  · unfold raise
    split
    · exact hkeep a (by omega)
    · exact (spoilDestination_keepsOutside (emittedState bs s) a ha).trans (hkeep a (by omega))
  · subst hb
    have h0 : (emittedState [] s).hidden.outLen = 0 := by
      apply BitVec.eq_of_toNat_eq; simpa using hlen
    rw [raise, if_pos h0]
    exact hkeep a (by simp; omega)

/-- A command whose emission fits and has no error succeeds with that output. -/
theorem submit_succeeds {op : Instr} {rule : State → Emission} {s : State} (h : s.canRun)
    (he : (rule (accept op s)).error = none)
    (hl : (rule (accept op s)).bytes.length ≤ s.dstCap.toNat) :
    ∃ t, submit op (operate rule) s = .next t ∧ Succeeds s t (rule (accept op s)).bytes := by
  obtain ⟨hready, hreg, hw⟩ := h
  refine ⟨_, submit_ready hready (premise_of_regionsOk hreg), ?_⟩
  rcases operate_cases rule (s := accept op s) rfl hreg.1 rfl with ⟨-, -, e⟩ | ⟨-, e, h1, -⟩ | ⟨h1, -⟩
  · rw [e]
    have := finish_succeeds (bs := (rule (accept op s)).bytes) (s := accept op s) rfl hl hreg.1 hw
    exact ⟨⟨this.frame.1, this.frame.2, this.frame.3, this.frame.4, this.frame.5, this.frame.6,
      this.frame.7, this.frame.8, this.frame.9, this.frame.10, this.frame.11, this.frame.12⟩,
      this.idle, this.err, this.errCode, this.outLen, this.written, this.kept⟩
  · simp [he] at h1
  · simp at h1; omega

theorem fails_of_accept {op : Instr} {s t : State} {e : ErrCode} (h : Fails (accept op s) t e) :
    Fails s t e :=
  ⟨⟨h.frame.1, h.frame.2, h.frame.3, h.frame.4, h.frame.5, h.frame.6, h.frame.7, h.frame.8,
    h.frame.9, h.frame.10, h.frame.11, h.frame.12⟩, h.idle, h.err, h.errCode, h.outLen, h.kept⟩

/-- A command whose emission fits and ends in an error fails with it, and changes no byte where
nothing was emitted. -/
theorem submit_fails {op : Instr} {rule : State → Emission} {s : State} {e : ErrCode}
    (h : s.ready) (hreg : s.regionsOk) (he : (rule (accept op s)).error = some e)
    (hl : (rule (accept op s)).bytes.length ≤ s.dstCap.toNat) :
    ∃ t, submit op (operate rule) s = .next t ∧ Fails s t e ∧
      ((rule (accept op s)).bytes = [] → KeepsMemory s t) := by
  refine ⟨_, submit_ready h (premise_of_regionsOk hreg), ?_⟩
  rcases operate_cases rule (s := accept op s) rfl hreg.1 rfl with ⟨-, h1, -⟩ | ⟨-, e', h1, h2⟩ | ⟨h1, -⟩
  · simp [he] at h1
  · rw [h2]
    obtain rfl : e = e' := by simpa [he] using h1
    have := raise_fails e (bs := (rule (accept op s)).bytes) (s := accept op s) rfl hl
    exact ⟨fails_of_accept this.1, this.2⟩
  · simp at h1; omega

/-- A command whose emission does not fit ends in OUTPUT_OVERFLOW. -/
theorem submit_overflows {op : Instr} {rule : State → Emission} {s : State} (h : s.ready)
    (hreg : s.regionsOk) (hl : s.dstCap.toNat < (rule (accept op s)).bytes.length) :
    ∃ t, submit op (operate rule) s = .next t ∧ Fails s t .outputOverflow := by
  refine ⟨_, submit_ready h (premise_of_regionsOk hreg), ?_⟩
  rcases operate_cases rule (s := accept op s) rfl hreg.1 rfl with ⟨h1, -⟩ | ⟨h1, -⟩ | ⟨-, h2⟩
  · simp at h1; omega
  · simp at h1; omega
  · rw [h2]
    refine fails_of_accept (raise_fails _ rfl ?_).1
    simp

/-- A command whose range check fails ends in BAD_RANGE and changes no byte. -/
theorem submit_badRange {op : Instr} {rule : State → Emission} {s : State} (h : s.ready)
    (hr : s.rangeOk = false) :
    ∃ t, submit op (operate rule) s = .next t ∧ FailsClean s t .badRange := by
  refine ⟨_, submit_ready h (by simp [State.premiseBroken, hr]), ?_⟩
  have e : operate rule (accept op s) = raise .badRange (accept op s) := by
    simp [operate, hr]
  rw [e]
  have h0 : raise .badRange (accept op s) = errorCompletion .badRange (accept op s) := by
    simp [raise]
  rw [h0]
  exact ⟨⟨by constructor <;> rfl, by constructor <;> rfl, rfl, rfl, rfl, fun _ _ => rfl⟩, fun _ => rfl⟩

end Sys2Proof.Machine
end

