-- ==== Sys2Proof/Laws/HuffTables.lean ====
section
/-! SUPPORT. The FrequencyTable and the leaves (41_huffman.md R180, R181). -/

namespace Sys2Proof.Machine

@[simp] theorem tableAt_put_same {α : Type} (t : Vector α 256) (v : Byte) (x : α) :
    tableAt (tablePut t v x) v = x := by simp [tableAt, tablePut]

theorem tableAt_put_other {α : Type} (t : Vector α 256) {v u : Byte} (x : α) (h : u ≠ v) :
    tableAt (tablePut t v x) u = tableAt t u := by
  have : v.toNat ≠ u.toNat := fun e => h (BitVec.eq_of_toNat_eq e.symm)
  simp [tableAt, tablePut, Vector.getElem_set_ne, this]

@[simp] theorem tableAt_replicate {α : Type} (x : α) (v : Byte) :
    tableAt (Vector.replicate 256 x) v = x := by simp [tableAt]

/-- Two tables with the same entries are the same. -/
theorem table_ext {α : Type} {t u : Vector α 256} (h : ∀ v, tableAt t v = tableAt u v) : t = u := by
  refine Vector.ext fun i hi => ?_
  have := h (BitVec.ofNat 8 i)
  simpa [tableAt, Nat.mod_eq_of_lt hi] using this

theorem mem_allBytes (v : Byte) : v ∈ allBytes := by
  refine List.mem_map.2 ⟨v.toNat, List.mem_range.2 v.isLt, by simp⟩

/-- The byte values come in strictly ascending order. -/
theorem allBytes_sorted : allBytes.Pairwise (fun p q => p < q) := by
  refine List.pairwise_map.2 (List.Pairwise.imp_of_mem ?_ List.pairwise_lt_range)
  intro a b ha hb h
  simp only [List.mem_range, Config.maxSymbols] at ha hb
  rw [BitVec.lt_def]
  simp [Nat.mod_eq_of_lt ha, Nat.mod_eq_of_lt hb, h]

/-- The leaves are the present values with their frequencies. -/
theorem mem_leavesOf {h : Hidden} {v : Byte} {f : Word} :
    (v, f) ∈ leavesOf h ↔ tableAt h.present v = true ∧ f = tableAt h.freq v := by
  simp only [leavesOf, List.mem_map, List.mem_filter, mem_allBytes, true_and, Prod.mk.injEq]
  constructor
  · rintro ⟨u, hu, rfl, rfl⟩; exact ⟨hu, rfl⟩
  · rintro ⟨hv, rfl⟩; exact ⟨v, hv, rfl, rfl⟩

/-- The leaves come in strictly ascending order of value (30_encoding.md R123). -/
theorem leavesOf_sorted (h : Hidden) : (leavesOf h).Pairwise (fun p q => p.1 < q.1) :=
  List.pairwise_map.2 (List.Pairwise.filter _ allBytes_sorted)

/-- The leaves are the one ascending list of the present values with their frequencies. -/
theorem leavesOf_eq {h : Hidden} {ps : List (Byte × Word)} (hs : ps.Pairwise fun p q => p.1 < q.1)
    (hm : ∀ v f, (v, f) ∈ ps ↔ tableAt h.present v = true ∧ f = tableAt h.freq v) :
    leavesOf h = ps := by
  have hirr : ∀ {l : List (Byte × Word)}, l.Pairwise (fun p q => p.1 < q.1) → l.Nodup := fun hl =>
    hl.imp fun h e => BitVec.ne_of_lt h (congrArg Prod.fst e)
  refine List.Perm.eq_of_pairwise (fun p q _ _ h1 h2 => ?_) (leavesOf_sorted h) hs
    ((List.perm_ext_iff_of_nodup (hirr (leavesOf_sorted h)) (hirr hs)).2 fun p => ?_)
  · exact absurd (BitVec.lt_trans h1 h2) (BitVec.lt_irrefl _)
  · obtain ⟨v, f⟩ := p
    rw [mem_leavesOf, hm]

theorem leavesOf_length_le (h : Hidden) : (leavesOf h).length ≤ 256 := by
  have : (allBytes.filter (tableAt h.present)).length ≤ allBytes.length := List.length_filter_le _ _
  simpa [leavesOf, allBytes] using this

/-- The tables only depend on FREQ and PRESENT. -/
theorem leavesOf_congr {g h : Hidden} (hf : g.freq = h.freq) (hp : g.present = h.present) :
    leavesOf g = leavesOf h := by simp [leavesOf, hf, hp]

theorem countFreq_concat (xs : List Byte) (x : Byte) (h : Hidden) :
    countFreq (xs ++ [x]) h
      = enterFreq x (tableAt (countFreq xs h).freq x + 1) (countFreq xs h) := by
  simp [countFreq]

/-- FREQ counts the occurrences of each value (R180). -/
theorem countFreq_freq (xs : List Byte) (h : Hidden) (v : Byte) :
    tableAt (countFreq xs h).freq v = BitVec.ofNat 32 (xs.count v) := by
  induction xs using List.reverseRecOn with
  | nil => simp [countFreq, clearFreq]
  | append_singleton xs x ih =>
    rw [countFreq_concat]
    simp only [enterFreq]
    by_cases hx : v = x
    · subst hx
      rw [tableAt_put_same, ih]
      simp [List.count_append, BitVec.ofNat_add]
    · rw [tableAt_put_other _ _ hx, ih]
      simp [List.count_append, Ne.symm hx]

/-- PRESENT marks the values that occur (R180). -/
theorem countFreq_present (xs : List Byte) (h : Hidden) (v : Byte) :
    tableAt (countFreq xs h).present v = true ↔ v ∈ xs := by
  induction xs using List.reverseRecOn with
  | nil => simp [countFreq, clearFreq]
  | append_singleton xs x ih =>
    rw [countFreq_concat]
    simp only [enterFreq]
    by_cases hx : v = x
    · subst hx; simp
    · rw [tableAt_put_other _ _ hx, ih]
      simp [hx]

/-- A header's entries, each value once, make the table they state (R222). -/
theorem enterAll_spec (es : List (Byte × Word)) (hn : (es.map Prod.fst).Nodup) (h : Hidden)
    (v : Byte) :
    tableAt (enterAll es h).present v = (tableAt h.present v || (es.map Prod.fst).contains v) ∧
    (∀ f, (v, f) ∈ es → tableAt (enterAll es h).freq v = f) ∧
    (v ∉ es.map Prod.fst → tableAt (enterAll es h).freq v = tableAt h.freq v) := by
  induction es generalizing h with
  | nil => simp [enterAll]
  | cons p es ih =>
    obtain ⟨u, g⟩ := p
    simp only [List.map_cons, List.nodup_cons] at hn
    obtain ⟨i1, i2, i3⟩ := ih hn.2 (enterFreq u g h)
    have e : enterAll ((u, g) :: es) h = enterAll es (enterFreq u g h) := rfl
    rw [e]
    refine ⟨?_, ?_, ?_⟩
    · rw [i1]
      by_cases hv : v = u
      · subst hv; simp [enterFreq]
      · simp [enterFreq, tableAt_put_other _ _ hv, hv]
    · intro f hf
      rcases List.mem_cons.1 hf with hf | hf
      · obtain ⟨rfl, rfl⟩ := Prod.mk.inj hf
        rw [i3 hn.1]
        simp [enterFreq]
      · exact i2 f hf
    · intro hv
      simp only [List.map_cons, List.mem_cons, not_or] at hv
      rw [i3 hv.2]
      exact tableAt_put_other _ _ hv.1

/-- PRESENT of a header's table marks its values. -/
theorem enterAll_present {es : List (Byte × Word)} (hn : (es.map Prod.fst).Nodup) (h : Hidden)
    (v : Byte) : tableAt (enterAll es (clearFreq h)).present v = true ↔ v ∈ es.map Prod.fst := by
  rw [(enterAll_spec es hn _ v).1]
  simp [clearFreq]

/-- Only FREQ and PRESENT change as a header is entered. -/
theorem enterAll_frame (es : List (Byte × Word)) (h : Hidden) :
    enterAll es h = { h with freq := (enterAll es h).freq, present := (enterAll es h).present } := by
  induction es generalizing h with
  | nil => rfl
  | cons p es ih =>
    have e : enterAll (p :: es) h = enterAll es (enterFreq p.1 p.2 h) := rfl
    rw [e, ih]
    rfl

theorem countFreq_frame (xs : List Byte) (h : Hidden) :
    countFreq xs h = { h with freq := (countFreq xs h).freq, present := (countFreq xs h).present } := by
  induction xs using List.reverseRecOn with
  | nil => rfl
  | append_singleton xs x ih => rw [countFreq_concat, ih]; rfl

/-- A table has as many leaves as its header has entries. -/
theorem leavesOf_enterAll_length {es : List (Byte × Word)} (hn : (es.map Prod.fst).Nodup)
    (h : Hidden) : (leavesOf (enterAll es (clearFreq h))).length = es.length := by
  have h1 : (allBytes.filter (tableAt (enterAll es (clearFreq h)).present)).Perm (es.map Prod.fst) := by
    refine (List.perm_ext_iff_of_nodup ?_ hn).2 fun v => ?_
    · exact (allBytes_sorted.imp fun h => (BitVec.ne_of_lt h)).filter _
    · rw [List.mem_filter, enterAll_present hn]
      simp [mem_allBytes]
  simpa [leavesOf] using h1.length_eq

end Sys2Proof.Machine
end

