-- ==== Sys2Proof/Laws/HuffTree.lean ====
section
/-! SUPPORT. The tree builder (41_huffman.md R181, R182): what each merge does, and the invariant of the
merge loop. -/

namespace Sys2Proof.Machine

/-! ### The lightest node -/

theorem before_trans {nodes : List Node} {x y z : Nat} (h1 : Before nodes x y)
    (h2 : Before nodes y z) : Before nodes x z := by
  unfold Before at *
  simp only [BitVec.lt_def, ← BitVec.toNat_inj] at *
  omega

theorem before_total {nodes : List Node} {x y : Nat} (h : x ≠ y) (hn : ¬ Before nodes x y) :
    Before nodes y x := by
  unfold Before at *
  simp only [BitVec.lt_def, ← BitVec.toNat_inj] at *
  omega

theorem lighter_iff {nodes : List Node} {x y : Nat} : lighter nodes x y = true ↔ Before nodes x y := by
  simp [lighter, Before]

theorem foldl_lightest (nodes : List Node) (xs : List Nat) (x : Nat) :
    let m := xs.foldl (fun best y => if lighter nodes y best then y else best) x
    (m = x ∨ m ∈ xs) ∧ (m ≠ x → Before nodes m x) ∧ ∀ y ∈ xs, y ≠ m → Before nodes m y := by
  induction xs generalizing x with
  | nil => simp
  | cons z xs ih =>
    simp only [List.foldl_cons]
    by_cases hz : lighter nodes z x = true
    · rw [if_pos hz]
      have hb := lighter_iff.1 hz
      obtain ⟨i1, i2, i3⟩ := ih z
      refine ⟨?_, fun _ => ?_, fun y hy hne => ?_⟩
      · rcases i1 with h | h
        · exact .inr (by simp [h])
        · exact .inr (by simp [h])
      · by_cases hm : (xs.foldl (fun best y => if lighter nodes y best then y else best) z) = z
        · rw [hm]; exact hb
        · exact before_trans (i2 hm) hb
      · rcases List.mem_cons.1 hy with rfl | hy
        · exact i2 (Ne.symm hne)
        · exact i3 y hy hne
    · rw [if_neg hz]
      have hb : ¬ Before nodes z x := fun h => hz (lighter_iff.2 h)
      obtain ⟨i1, i2, i3⟩ := ih x
      refine ⟨?_, i2, fun y hy hne => ?_⟩
      · rcases i1 with h | h
        · exact .inl h
        · exact .inr (by simp [h])
      · rcases List.mem_cons.1 hy with rfl | hy
        · by_cases hm : (xs.foldl (fun best y => if lighter nodes y best then y else best) x) = x
          · rw [hm] at hne ⊢
            exact before_total hne hb
          · by_cases hzx : y = x
            · subst hzx; exact i2 hm
            · exact before_trans (i2 hm) (before_total hzx hb)
        · exact i3 y hy hne

/-- `argmin` of R182: the lightest is live and comes before every other. -/
theorem lightest_spec {nodes : List Node} {live : List Nat} {a : Nat}
    (h : lightest nodes live = some a) : a ∈ live ∧ ∀ y ∈ live, y ≠ a → Before nodes a y := by
  match live, h with
  | x :: xs, h =>
    simp only [lightest, Option.some.injEq] at h
    obtain ⟨h1, h2, h3⟩ := foldl_lightest nodes xs x
    rw [h] at h1 h2 h3
    refine ⟨by rcases h1 with h | h <;> simp [h], fun y hy hne => ?_⟩
    rcases List.mem_cons.1 hy with rfl | hy
    · exact h2 (Ne.symm hne)
    · exact h3 y hy hne

theorem lightest_none {nodes : List Node} {live : List Nat} (h : lightest nodes live = none) :
    live = [] := by
  cases live with
  | nil => rfl
  | cons x xs => simp [lightest] at h

/-! ### A node appended to the arena -/

theorem getElem?_append_of_lt {nodes : List Node} {n : Node} {x : Nat} (h : x < nodes.length) :
    (nodes ++ [n])[x]? = nodes[x]? := List.getElem?_append_left h

theorem weightOf_append {nodes : List Node} {n : Node} {x : Nat} (h : x < nodes.length) :
    weightOf (nodes ++ [n]) x = weightOf nodes x := by
  simp only [weightOf, getElem?_append_of_lt h]

theorem weightOf_last (nodes : List Node) (n : Node) :
    weightOf (nodes ++ [n]) nodes.length = n.weight := by
  simp [weightOf]

theorem before_append {nodes : List Node} {n : Node} {x y : Nat} (hx : x < nodes.length)
    (hy : y < nodes.length) : Before (nodes ++ [n]) x y ↔ Before nodes x y := by
  simp only [Before, weightOf_append hx, weightOf_append hy]

theorem liveAt_append {nodes : List Node} {n : Node} {x y : Nat} (hx : x ≤ nodes.length) :
    LiveAt (nodes ++ [n]) x y ↔ LiveAt nodes x y := by
  unfold LiveAt
  constructor
  · rintro ⟨h1, h2⟩
    refine ⟨h1, fun p l r w hp h => h2 p l r w hp ?_⟩
    rw [getElem?_append_of_lt (by omega)]; exact h
  · rintro ⟨h1, h2⟩
    refine ⟨h1, fun p l r w hp h => h2 p l r w hp ?_⟩
    rw [getElem?_append_of_lt (by omega)] at h; exact h

/-- Node `x` is the merge of the two live nodes that come first (R182). -/
def IsMerge (nodes : List Node) (x : Nat) : Prop :=
  ∃ a b, nodes[x]? = some (.internal (some a) (some b) (weightOf nodes a + weightOf nodes b)) ∧
    LiveAt nodes x a ∧ LiveAt nodes x b ∧ a ≠ b ∧
    (∀ y, LiveAt nodes x y → y ≠ a → Before nodes a y) ∧
    (∀ y, LiveAt nodes x y → y ≠ a → y ≠ b → Before nodes b y)

theorem isMerge_append {nodes : List Node} {n : Node} {x : Nat} (hx : x < nodes.length)
    (h : IsMerge nodes x) : IsMerge (nodes ++ [n]) x := by
  obtain ⟨a, b, h1, h2, h3, h4, h5, h6⟩ := h
  have ha : a < nodes.length := Nat.lt_trans h2.1 hx
  have hb : b < nodes.length := Nat.lt_trans h3.1 hx
  have hle := Nat.le_of_lt hx
  refine ⟨a, b, ?_, (liveAt_append hle).2 h2, (liveAt_append hle).2 h3, h4, fun y hy hn => ?_,
    fun y hy hn hn' => ?_⟩
  · rw [getElem?_append_of_lt hx, h1, weightOf_append ha, weightOf_append hb]
  · have hy' := (liveAt_append hle).1 hy
    exact (before_append ha (Nat.lt_trans hy'.1 hx)).2 (h5 y hy' hn)
  · have hy' := (liveAt_append hle).1 hy
    exact (before_append hb (Nat.lt_trans hy'.1 hx)).2 (h6 y hy' hn hn')

theorem childOf_append {nodes : List Node} {n : Node} {x : Nat} (bit : Bool)
    (h : x < nodes.length) : childOf (nodes ++ [n]) x bit = childOf nodes x bit := by
  simp only [childOf, getElem?_append_of_lt h]

theorem childOf_lt_length {nodes : List Node} {x y : Nat} {bit : Bool}
    (h : childOf nodes x bit = some y) : x < nodes.length := by
  unfold childOf at h
  by_contra hx
  rw [List.getElem?_eq_none (by omega)] at h
  simp at h

theorem follow_append {nodes : List Node} {n : Node} {x y : Nat} {p : List Bool}
    (h : follow nodes x p = some y) : follow (nodes ++ [n]) x p = some y := by
  induction p generalizing x with
  | nil => exact h
  | cons b p ih =>
    rw [follow] at h ⊢
    cases hc : childOf nodes x b with
    | none => simp [hc] at h
    | some z =>
      rw [hc] at h
      rw [childOf_append b (childOf_lt_length hc), hc]
      exact ih h

/-! ### The merge loop -/

/-- What holds of the arena and the live set between merges. -/
structure MergeInv (leaves : List (Byte × Word)) (nodes : List Node) (live : List Nat) : Prop where
  nodup  : live.Nodup
  isLive : ∀ y, y ∈ live ↔ LiveAt nodes nodes.length y
  count  : nodes.length + live.length = 2 * leaves.length
  long   : leaves.length ≤ nodes.length
  leaf   : ∀ e : Nat, e < leaves.length → nodes[e]? = (leafNodes leaves)[e]?
  merges : ∀ x, leaves.length ≤ x → x < nodes.length → IsMerge nodes x
  reach  : ∀ y, y < nodes.length → ∃ x ∈ live, ∃ p, follow nodes x p = some y
  sum    : (live.map fun x => (weightOf nodes x).toNat).sum = (leaves.map fun p => p.2.toNat).sum

theorem leafNodes_getElem? (leaves : List (Byte × Word)) (e : Nat) :
    (leafNodes leaves)[e]? = leaves[e]?.map fun p => .leaf p.1 (p.2.setWidth 40) := by
  simp [leafNodes]

theorem mergeInv_start (leaves : List (Byte × Word)) :
    MergeInv leaves (leafNodes leaves) (List.range leaves.length) where
  nodup := List.nodup_range
  isLive y := by
    have hlen : (leafNodes leaves).length = leaves.length := by simp [leafNodes]
    rw [List.mem_range, LiveAt, hlen]
    refine ⟨fun h => ⟨h, fun p l r w hp hn => ?_⟩, fun h => h.1⟩
    rw [leafNodes_getElem?] at hn
    cases hl : leaves[p]? <;> simp [hl] at hn
  count := by simp [leafNodes]; omega
  long := by simp [leafNodes]
  leaf _ _ := rfl
  merges x h1 h2 := by simp [leafNodes] at h2; omega
  reach y hy := ⟨y, by simpa [leafNodes] using hy, [], rfl⟩
  sum := by
    congr 1
    refine List.ext_getElem (by simp) fun i h1 h2 => ?_
    have hi : i < leaves.length := by simpa using h1
    have := (leaves[i]).2.isLt
    simp [weightOf, leafNodes_getElem?, hi, Node.weight]
    omega

theorem sum_erase {f : Nat → Nat} {live : List Nat} {a : Nat} (h : a ∈ live) :
    (live.map f).sum = f a + ((live.erase a).map f).sum := by
  have := (List.perm_cons_erase h).map f
  simpa using this.sum_eq

/-- One merge keeps the invariant. -/
theorem mergeInv_merge {leaves : List (Byte × Word)} {nodes : List Node} {live : List Nat}
    {a b : Nat} (hk : leaves.length ≤ 256) (h : MergeInv leaves nodes live)
    (ha : lightest nodes live = some a) (hb : lightest nodes (live.erase a) = some b) :
    MergeInv leaves
      (nodes ++ [.internal (some a) (some b) (weightOf nodes a + weightOf nodes b)])
      (((live.erase a).erase b) ++ [nodes.length]) := by
  obtain ⟨ha1, ha2⟩ := lightest_spec ha
  obtain ⟨hb1, hb2⟩ := lightest_spec hb
  have hne : b ≠ a := (h.nodup.mem_erase_iff.1 hb1).1
  have hbl : b ∈ live := (h.nodup.mem_erase_iff.1 hb1).2
  have hnd : (live.erase a).Nodup := h.nodup.erase _
  have hlt : ∀ y ∈ live, y < nodes.length := fun y hy => ((h.isLive y).1 hy).1
  have hmem : ∀ y, y ∈ (live.erase a).erase b ↔ y ∈ live ∧ y ≠ a ∧ y ≠ b := by
    intro y
    rw [hnd.mem_erase_iff, h.nodup.mem_erase_iff]
    tauto
  have hlen : (nodes ++ [Node.internal (some a) (some b)
      (weightOf nodes a + weightOf nodes b)]).length = nodes.length + 1 := by simp
  have hnew : (nodes ++ [Node.internal (some a) (some b)
      (weightOf nodes a + weightOf nodes b)])[nodes.length]? =
      some (Node.internal (some a) (some b) (weightOf nodes a + weightOf nodes b)) := by simp
  -- the weights of distinct live nodes do not overflow 40 bits
  have hsum2 : (weightOf nodes a).toNat + (weightOf nodes b).toNat +
      (((live.erase a).erase b).map fun x => (weightOf nodes x).toNat).sum
        = (leaves.map fun p => p.2.toNat).sum := by
    rw [← h.sum, sum_erase (f := fun x => (weightOf nodes x).toNat) ha1,
      sum_erase (f := fun x => (weightOf nodes x).toNat) hb1]
    omega
  have htot : (leaves.map fun p => p.2.toNat).sum ≤ leaves.length * (2 ^ 32 - 1) := by
    have := List.sum_le_card_nsmul (leaves.map fun p => p.2.toNat) (2 ^ 32 - 1) (by
      intro x hx
      obtain ⟨p, -, rfl⟩ := List.mem_map.1 hx
      exact Nat.le_sub_one_of_lt p.2.isLt)
    simpa using this
  have hadd : (weightOf nodes a + weightOf nodes b).toNat =
      (weightOf nodes a).toNat + (weightOf nodes b).toNat := by
    rw [BitVec.toNat_add, Nat.mod_eq_of_lt]
    have : leaves.length * (2 ^ 32 - 1) ≤ 256 * (2 ^ 32 - 1) := Nat.mul_le_mul_right _ hk
    omega
  refine ⟨?_, fun y => ?_, ?_, ?_, fun e he => ?_, fun x hx1 hx2 => ?_, fun y hy => ?_, ?_⟩
  · refine List.nodup_append.2 ⟨hnd.erase _, by simp, fun x hx y hy => ?_⟩
    have := hlt x ((hmem x).1 hx).1
    simp at hy
    omega
  · rw [hlen, List.mem_append, List.mem_singleton, hmem]
    constructor
    · rintro (⟨h1, h2, h3⟩ | rfl)
      · have hl := (h.isLive y).1 h1
        refine ⟨by have := hl.1; omega, fun p l r w hp hn => ?_⟩
        rcases Nat.lt_or_ge p nodes.length with hp' | hp'
        · rw [getElem?_append_of_lt hp'] at hn
          exact hl.2 p l r w hp' hn
        · obtain rfl : p = nodes.length := by omega
          rw [hnew] at hn
          simp only [Option.some.injEq, Node.internal.injEq] at hn
          obtain ⟨rfl, rfl, -⟩ := hn
          exact ⟨fun e => h2 (by simpa using e.symm), fun e => h3 (by simpa using e.symm)⟩
      · refine ⟨by omega, fun p l r w hp hn => ?_⟩
        rcases Nat.lt_or_ge p nodes.length with hp' | hp'
        · rw [getElem?_append_of_lt hp'] at hn
          rcases Nat.lt_or_ge p leaves.length with hpk | hpk
          · rw [h.leaf p hpk, leafNodes_getElem?] at hn
            cases hl : leaves[p]? <;> simp [hl] at hn
          · obtain ⟨a', b', e, la, lb, -⟩ := h.merges p hpk hp'
            rw [e] at hn
            simp only [Option.some.injEq, Node.internal.injEq] at hn
            obtain ⟨rfl, rfl, -⟩ := hn
            have := la.1; have := lb.1
            exact ⟨fun e => by simp at e; omega, fun e => by simp at e; omega⟩
        · obtain rfl : p = nodes.length := by omega
          rw [hnew] at hn
          simp only [Option.some.injEq, Node.internal.injEq] at hn
          obtain ⟨rfl, rfl, -⟩ := hn
          have := hlt a ha1; have := hlt b hbl
          exact ⟨fun e => by simp at e; omega, fun e => by simp at e; omega⟩
    · rintro ⟨h1, h2⟩
      rcases Nat.lt_or_ge y nodes.length with hy | hy
      · left
        have hny := h2 nodes.length _ _ _ (by omega) hnew
        refine ⟨(h.isLive y).2 ⟨hy, fun p l r w hp hn => h2 p l r w (by omega) ?_⟩,
          fun e => hny.1 (by rw [e]), fun e => hny.2 (by rw [e])⟩
        rw [getElem?_append_of_lt hp]; exact hn
      · right; omega
  · have e1 := List.length_erase_of_mem ha1
    have e2 := List.length_erase_of_mem hb1
    have p1 := List.length_pos_of_mem ha1
    have p2 := List.length_pos_of_mem hb1
    have := h.count
    simp only [List.length_append, List.length_cons, List.length_nil]
    omega
  · have := h.long; omega
  · rw [getElem?_append_of_lt (by have := h.long; omega)]; exact h.leaf e he
  · rcases Nat.lt_or_ge x nodes.length with hx | hx
    · exact isMerge_append hx (h.merges x hx1 hx)
    · obtain rfl : x = nodes.length := by omega
      refine ⟨a, b, ?_, (liveAt_append (Nat.le_refl _)).2 ((h.isLive a).1 ha1),
        (liveAt_append (Nat.le_refl _)).2 ((h.isLive b).1 hbl), Ne.symm hne, fun y hy hn => ?_,
        fun y hy hn hn' => ?_⟩
      · rw [hnew, weightOf_append (hlt a ha1), weightOf_append (hlt b hbl)]
      · have hy' := (liveAt_append (Nat.le_refl _)).1 hy
        exact (before_append (hlt a ha1) hy'.1).2 (ha2 y ((h.isLive y).2 hy') hn)
      · have hy' := (liveAt_append (Nat.le_refl _)).1 hy
        exact (before_append (hlt b hbl) hy'.1).2
          (hb2 y (h.nodup.mem_erase_iff.2 ⟨hn, (h.isLive y).2 hy'⟩) hn')
  · rw [hlen] at hy
    rcases Nat.lt_or_ge y nodes.length with hy' | hy'
    · obtain ⟨x, hx, p, hp⟩ := h.reach y hy'
      have hp' := follow_append (n := .internal (some a) (some b)
        (weightOf nodes a + weightOf nodes b)) hp
      by_cases hxa : x = a
      · subst hxa
        refine ⟨nodes.length, by simp, false :: p, ?_⟩
        rw [follow, childOf, hnew]
        exact hp'
      · by_cases hxb : x = b
        · subst hxb
          refine ⟨nodes.length, by simp, true :: p, ?_⟩
          rw [follow, childOf, hnew]
          exact hp'
        · exact ⟨x, by simp [(hmem x).2 ⟨hx, hxa, hxb⟩], p, hp'⟩
    · exact ⟨nodes.length, by simp, [], by rw [follow]; congr 1; omega⟩
  · rw [List.map_append, List.sum_append, List.map_singleton, List.sum_singleton,
      weightOf_last, Node.weight, hadd, ← hsum2]
    have : (((live.erase a).erase b).map fun x => (weightOf (nodes ++ [Node.internal (some a)
        (some b) (weightOf nodes a + weightOf nodes b)]) x).toNat)
        = ((live.erase a).erase b).map fun x => (weightOf nodes x).toNat := by
      refine List.map_congr_left fun x hx => ?_
      rw [weightOf_append (hlt x ((hmem x).1 hx).1)]
    rw [this]
    omega

/-- The loop ends with one live node and the invariant. -/
theorem mergeLoop_inv {leaves : List (Byte × Word)} (hk : leaves.length ≤ 256) (fuel : Nat) :
    ∀ {nodes : List Node} {live : List Nat}, MergeInv leaves nodes live → live ≠ [] →
      live.length ≤ fuel →
      MergeInv leaves (mergeLoop fuel nodes live).1 (mergeLoop fuel nodes live).2 ∧
        (mergeLoop fuel nodes live).2.length = 1 := by
  induction fuel with
  | zero =>
    intro nodes live h hne hl
    exact absurd (List.eq_nil_of_length_eq_zero (by omega)) hne
  | succ fuel ih =>
    intro nodes live h hne hl
    rw [mergeLoop]
    cases ha : lightest nodes live with
    | none => exact absurd (lightest_none ha) hne
    | some a =>
      have e1 := List.length_erase_of_mem (lightest_spec ha).1
      have p1 := List.length_pos_of_mem (lightest_spec ha).1
      simp only
      cases hb : lightest nodes (live.erase a) with
      | none =>
        have := congrArg List.length (lightest_none hb)
        simp only [List.length_nil] at this
        exact ⟨h, by simp only; omega⟩
      | some b =>
        have e2 := List.length_erase_of_mem (lightest_spec hb).1
        have p2 := List.length_pos_of_mem (lightest_spec hb).1
        exact ih (mergeInv_merge hk h ha hb) (by simp)
          (by simp only [List.length_append, List.length_cons, List.length_nil]; omega)

/-- The tree over some leaves: the invariant with the root alone live. -/
theorem treeOf_inv {leaves : List (Byte × Word)} (hne : leaves ≠ []) (hk : leaves.length ≤ 256) :
    MergeInv leaves (treeOf leaves).1 [(treeOf leaves).2] := by
  have hpos : 0 < leaves.length := List.length_pos_iff.2 hne
  obtain ⟨h1, h2⟩ := mergeLoop_inv hk leaves.length (mergeInv_start leaves)
    (by intro e; simp at e; exact hne e) (by simp)
  obtain ⟨r, hr⟩ := List.length_eq_one_iff.1 h2
  rw [treeOf]
  simp only
  rw [hr] at h1 ⊢
  simpa using h1

/-- Over `k` leaves the tree uses `2k - 1` entries, and the last one is the root (R181). -/
theorem treeOf_size {leaves : List (Byte × Word)} (hne : leaves ≠ []) (hk : leaves.length ≤ 256) :
    (treeOf leaves).1.length + 1 = 2 * leaves.length ∧
      (treeOf leaves).2 + 1 = (treeOf leaves).1.length := by
  have h := treeOf_inv hne hk
  have hc := h.count
  simp only [List.length_cons, List.length_nil] at hc
  refine ⟨by omega, ?_⟩
  -- the last node is no child, so it is the live one
  have hpos : 0 < leaves.length := List.length_pos_iff.2 hne
  have hlast : LiveAt (treeOf leaves).1 (treeOf leaves).1.length ((treeOf leaves).1.length - 1) := by
    refine ⟨by omega, fun p l r w hp hn => ?_⟩
    rcases Nat.lt_or_ge p leaves.length with hpk | hpk
    · rw [h.leaf p hpk, leafNodes_getElem?] at hn
      cases hl : leaves[p]? <;> simp [hl] at hn
    · obtain ⟨a, b, e, la, lb, -⟩ := h.merges p hpk hp
      rw [e] at hn
      simp only [Option.some.injEq, Node.internal.injEq] at hn
      obtain ⟨rfl, rfl, -⟩ := hn
      have := la.1; have := lb.1
      exact ⟨fun e => by simp at e; omega, fun e => by simp at e; omega⟩
  have := (h.isLive _).2 hlast
  simp only [List.mem_singleton] at this
  omega

end Sys2Proof.Machine
end

