-- ==== Sys2Proof/Laws/HuffCodes.lean ====
section
/-! SUPPORT. The codes read off a tree, and the decoder's walk over them (41_huffman.md R183, R184,
R220, R225 to R227). -/

namespace Sys2Proof.Machine

/-- The bits `q` lead from node `x` to a leaf of the value `v`. -/
def Reaches (nodes : List Node) (x : Nat) (q : List Bool) (v : Byte) : Prop :=
  ∃ y w, follow nodes x q = some y ∧ nodes[y]? = some (.leaf v w)

/-- Every internal node has two children of smaller id. -/
def Descends (nodes : List Node) : Prop :=
  ∀ (x : Nat) l r w, nodes[x]? = some (Node.internal l r w) → ∃ a b, l = some a ∧ r = some b ∧ a < x ∧ b < x

/-! ### Paths -/

theorem follow_leaf {nodes : List Node} {x y : Nat} {v : Byte} {w : BitVec 40} {q : List Bool}
    (hx : nodes[x]? = some (.leaf v w)) (h : follow nodes x q = some y) : q = [] ∧ y = x := by
  cases q with
  | nil => simpa [follow, eq_comm] using h
  | cons b q => simp [follow, childOf, hx] at h

theorem follow_concat (nodes : List Node) (p q : List Bool) (x : Nat) :
    follow nodes x (p ++ q) = (follow nodes x p).bind fun y => follow nodes y q := by
  induction p generalizing x with
  | nil => simp [follow]
  | cons b p ih =>
    simp only [List.cons_append, follow]
    cases childOf nodes x b with
    | none => rfl
    | some y => exact ih y

/-- A path to a leaf is no proper part of another one. -/
theorem reaches_prefix {nodes : List Node} {x : Nat} {p q : List Bool} {v u : Byte}
    (hp : Reaches nodes x p v) (hq : Reaches nodes x q u) (h : p <+: q) : v = u ∧ p = q := by
  obtain ⟨r, rfl⟩ := h
  obtain ⟨y, w, hy, hl⟩ := hp
  obtain ⟨z, w', hz, hl'⟩ := hq
  rw [follow_concat, hy, Option.bind_some] at hz
  obtain ⟨rfl, rfl⟩ := follow_leaf hl hz
  rw [hl] at hl'
  simp only [Option.some.injEq, Node.leaf.injEq] at hl'
  exact ⟨hl'.1, by simp⟩

theorem childOf_lt {nodes : List Node} (hd : Descends nodes) {x y : Nat} {b : Bool}
    (h : childOf nodes x b = some y) : y < x := by
  unfold childOf at h
  split at h
  · rename_i l r w hx
    obtain ⟨a, c, rfl, rfl, ha, hc⟩ := hd x l r w hx
    cases b <;> simp at h <;> omega
  · simp at h

/-- Ids fall along a path. -/
theorem follow_lt {nodes : List Node} (hd : Descends nodes) {x y : Nat} {p : List Bool}
    (h : follow nodes x p = some y) : y + p.length ≤ x := by
  induction p generalizing x with
  | nil => simp [follow] at h; simp [h]
  | cons b p ih =>
    rw [follow] at h
    cases hc : childOf nodes x b with
    | none => simp [hc] at h
    | some z =>
      rw [hc] at h
      have := ih h
      have := childOf_lt hd hc
      simp only [List.length_cons]
      omega

/-- Every node on a path but the last is internal, so a path is no longer than their number. -/
theorem follow_length {nodes : List Node} (hd : Descends nodes) {k : Nat}
    (hk : ∀ x b y, childOf nodes x b = some y → k ≤ x) {x y : Nat} {p : List Bool} (hp : p ≠ [])
    (h : follow nodes x p = some y) : k + p.length ≤ x + 1 := by
  induction p generalizing x with
  | nil => exact absurd rfl hp
  | cons b p ih =>
    rw [follow] at h
    cases hc : childOf nodes x b with
    | none => simp [hc] at h
    | some z =>
      rw [hc] at h
      have hx := hk x b z hc
      by_cases hp' : p = []
      · subst hp'; simp; omega
      · have := ih hp' h
        have := childOf_lt hd hc
        simp only [List.length_cons]
        omega

/-! ### The walk that writes the codes -/

/-- `walk(x, p)` of R183: the code of a value below `x` is `p` and its path; the others stay. -/
theorem walkCodes_spec {nodes : List Node} (hd : Descends nodes) (v : Byte) (fuel : Nat) :
    ∀ (x : Nat) (p : List Bool) (t : Vector (List Bool) 256), x < fuel →
      (∃ q, Reaches nodes x q v ∧ tableAt (walkCodes nodes fuel x p t) v = p ++ q) ∨
      ((∀ q, ¬ Reaches nodes x q v) ∧ tableAt (walkCodes nodes fuel x p t) v = tableAt t v) := by
  induction fuel with
  | zero => intro x p t h; omega
  | succ fuel ih =>
    intro x p t hx
    rw [walkCodes]
    cases hn : nodes[x]? with
    | none =>
      right
      refine ⟨?_, rfl⟩
      rintro q ⟨y, w, hf, hl⟩
      cases q with
      | nil =>
        simp only [follow, Option.some.injEq] at hf
        subst hf; simp [hn] at hl
      | cons b q => simp [follow, childOf, hn] at hf
    | some n =>
      cases n with
      | leaf sym w =>
        simp only
        by_cases hv : v = sym
        · subst hv
          exact .inl ⟨[], ⟨x, w, rfl, hn⟩, by simp⟩
        · right
          refine ⟨?_, tableAt_put_other _ _ hv⟩
          rintro q ⟨y, w', hf, hl⟩
          obtain ⟨-, rfl⟩ := follow_leaf hn hf
          rw [hn] at hl
          simp only [Option.some.injEq, Node.leaf.injEq] at hl
          exact hv hl.1.symm
      | internal l r w =>
        obtain ⟨a, b, rfl, rfl, ha, hb⟩ := hd x l r w hn
        simp only
        have hca : childOf nodes x false = some a := by simp [childOf, hn]
        have hcb : childOf nodes x true = some b := by simp [childOf, hn]
        rcases ih b (p ++ [true]) (walkCodes nodes fuel a (p ++ [false]) t) (by omega) with
          ⟨q, ⟨y, w', hf, hl⟩, e⟩ | ⟨h1, e⟩
        · exact .inl ⟨true :: q, ⟨y, w', by rw [follow, hcb]; exact hf, hl⟩, by rw [e]; simp⟩
        · rcases ih a (p ++ [false]) t (by omega) with ⟨q, ⟨y, w', hf, hl⟩, e'⟩ | ⟨h2, e'⟩
          · exact .inl ⟨false :: q, ⟨y, w', by rw [follow, hca]; exact hf, hl⟩, by rw [e, e']; simp⟩
          · right
            refine ⟨?_, by rw [e, e']⟩
            rintro q ⟨y, w', hf, hl⟩
            cases q with
            | nil =>
              simp only [follow, Option.some.injEq] at hf
              subst hf; rw [hn] at hl; simp at hl
            | cons c q =>
              rw [follow] at hf
              cases c with
              | false => rw [hca] at hf; exact h2 q ⟨y, w', hf, hl⟩
              | true => rw [hcb] at hf; exact h1 q ⟨y, w', hf, hl⟩

/-! ### The tree over a FrequencyTable -/

theorem descends_of_inv {leaves : List (Byte × Word)} {nodes : List Node} {live : List Nat}
    (h : MergeInv leaves nodes live) : Descends nodes := by
  intro x l r w hx
  rcases Nat.lt_or_ge x leaves.length with hk | hk
  · rw [h.leaf x hk, leafNodes_getElem?] at hx
    cases hl : leaves[x]? <;> simp [hl] at hx
  · have hlt : x < nodes.length := by
      by_contra hc
      rw [List.getElem?_eq_none (by omega)] at hx
      simp at hx
    obtain ⟨a, b, e, la, lb, -⟩ := h.merges x hk hlt
    rw [e] at hx
    simp only [Option.some.injEq, Node.internal.injEq] at hx
    exact ⟨a, b, hx.1.symm, hx.2.1.symm, la.1, lb.1⟩

theorem childOf_ge_of_inv {leaves : List (Byte × Word)} {nodes : List Node} {live : List Nat}
    (h : MergeInv leaves nodes live) {x y : Nat} {b : Bool} (hc : childOf nodes x b = some y) :
    leaves.length ≤ x := by
  by_contra hk
  rw [childOf, h.leaf x (by omega), leafNodes_getElem?] at hc
  cases hl : leaves[x]? <;> simp [hl] at hc

/-- Every leaf is reached from the root. -/
theorem reaches_of_mem {leaves : List (Byte × Word)} (hk : leaves.length ≤ 256) {v : Byte} {f : Word}
    (hm : (v, f) ∈ leaves) : ∃ q, Reaches (treeOf leaves).1 (treeOf leaves).2 q v := by
  have h := treeOf_inv (List.ne_nil_of_mem hm) hk
  obtain ⟨e, he, hv⟩ := List.mem_iff_getElem.1 hm
  have hl := h.long
  obtain ⟨x, hx, q, hq⟩ := h.reach e (by omega)
  obtain rfl : x = (treeOf leaves).2 := by simpa using hx
  refine ⟨q, e, f.setWidth 40, hq, ?_⟩
  rw [h.leaf e he, leafNodes_getElem?, List.getElem?_eq_getElem he, hv]
  rfl

theorem treeOf_singleton (v : Byte) (f : Word) :
    treeOf [(v, f)] = ([.leaf v (f.setWidth 40)], 0) := rfl

@[simp] theorem buildTree_nodes (h : Hidden) : (buildTree h).nodes = (treeOf (leavesOf h)).1 := rfl
@[simp] theorem buildTree_root (h : Hidden) : (buildTree h).root = (treeOf (leavesOf h)).2 := rfl
@[simp] theorem tablesOf_nodes (h : Hidden) : (tablesOf h).nodes = (treeOf (leavesOf h)).1 := rfl
@[simp] theorem tablesOf_root (h : Hidden) : (tablesOf h).root = (treeOf (leavesOf h)).2 := rfl
@[simp] theorem leavesOf_tablesOf (h : Hidden) : leavesOf (tablesOf h) = leavesOf h := rfl
@[simp] theorem leavesOf_buildTree (h : Hidden) : leavesOf (buildTree h) = leavesOf h := rfl
theorem tablesOf_code (h : Hidden) :
    (tablesOf h).code = codesOf (treeOf (leavesOf h)).1 (treeOf (leavesOf h)).2 := rfl

theorem mem_leavesOf_of_present {h : Hidden} {v : Byte} (hv : tableAt h.present v = true) :
    (v, tableAt h.freq v) ∈ leavesOf h := mem_leavesOf.2 ⟨hv, rfl⟩

theorem leavesOf_pos {h : Hidden} {v : Byte} (hv : tableAt h.present v = true) :
    0 < (leavesOf h).length := List.length_pos_of_mem (mem_leavesOf_of_present hv)

/-- With two symbols or more the root is internal. -/
theorem root_internal {leaves : List (Byte × Word)} (h2 : 2 ≤ leaves.length)
    (hk : leaves.length ≤ 256) : ∃ a b w,
      (treeOf leaves).1[(treeOf leaves).2]? = some (.internal (some a) (some b) w) := by
  have hne : leaves ≠ [] := by intro e; simp [e] at h2
  have hs := treeOf_size hne hk
  obtain ⟨a, b, e, -⟩ := (treeOf_inv hne hk).merges (treeOf leaves).2 (by omega) (by omega)
  exact ⟨a, b, _, e⟩

/-- With two symbols or more the code of a present value is its path from the root, of length 1 to
`k - 1` (R183). -/
theorem code_reaches {h : Hidden} {v : Byte} (hv : tableAt h.present v = true)
    (h2 : 2 ≤ (leavesOf h).length) :
    Reaches (treeOf (leavesOf h)).1 (treeOf (leavesOf h)).2 (tableAt (tablesOf h).code v) v ∧
      1 ≤ (tableAt (tablesOf h).code v).length ∧
      (tableAt (tablesOf h).code v).length + 1 ≤ (leavesOf h).length := by
  have hk := leavesOf_length_le h
  have hm := mem_leavesOf_of_present hv
  have hne := List.ne_nil_of_mem hm
  have hinv := treeOf_inv hne hk
  have hd := descends_of_inv hinv
  have hs := treeOf_size hne hk
  obtain ⟨a, b, w, hroot⟩ := root_internal h2 hk
  rw [tablesOf_code, codesOf, hroot]
  simp only
  rcases walkCodes_spec hd v _ (treeOf (leavesOf h)).2 [] (Vector.replicate 256 [])
    (show _ < (treeOf (leavesOf h)).1.length by omega) with ⟨q, hq, e⟩ | ⟨hno, -⟩
  · rw [e, List.nil_append]
    have hne' : q ≠ [] := by
      rintro rfl
      obtain ⟨y, w', hf, hl⟩ := hq
      simp only [follow, Option.some.injEq] at hf
      rw [← hf, hroot] at hl
      simp at hl
    refine ⟨hq, List.length_pos_iff.2 hne', ?_⟩
    obtain ⟨y, w', hf, -⟩ := hq
    have := follow_length hd (k := (leavesOf h).length)
      (fun x b y hc => childOf_ge_of_inv hinv hc) hne' hf
    omega
  · obtain ⟨q, hq⟩ := reaches_of_mem hk hm
    exact absurd hq (hno q)

/-- With one symbol its code is `"0"` (R183). -/
theorem code_single {h : Hidden} {v : Byte} (hv : tableAt h.present v = true)
    (h1 : (leavesOf h).length = 1) :
    leavesOf h = [(v, tableAt h.freq v)] ∧ tableAt (tablesOf h).code v = [false] := by
  obtain ⟨p, hp⟩ := List.length_eq_one_iff.1 h1
  have hm := mem_leavesOf_of_present hv
  rw [hp, List.mem_singleton] at hm
  subst hm
  refine ⟨hp, ?_⟩
  rw [tablesOf_code, hp, treeOf_singleton]
  simp [codesOf]

/-! ### The decoder -/

/-- The decoder's tree over a FrequencyTable (R220, R225). -/
def decoderOf (h : Hidden) : Hidden := decoderRoot (buildTree h)

theorem decoderOf_many {h : Hidden} (h2 : 2 ≤ (leavesOf h).length) : decoderOf h = buildTree h := by
  obtain ⟨a, b, w, hroot⟩ := root_internal h2 (leavesOf_length_le h)
  simp only [decoderOf, decoderRoot, buildTree_nodes, buildTree_root, hroot]

theorem decoderOf_single {h : Hidden} {v : Byte} {f : Word} (h1 : leavesOf h = [(v, f)]) :
    (decoderOf h).nodes = [.leaf v (f.setWidth 40), .internal (some 0) none (f.setWidth 40)] ∧
      (decoderOf h).root = 1 := by
  simp [decoderOf, decoderRoot, h1, treeOf_singleton]

/-- The code of a present value leads the decoder from its root to a leaf of the value. -/
theorem decoder_reaches {h : Hidden} {v : Byte} (hv : tableAt h.present v = true) :
    Reaches (decoderOf h).nodes (decoderOf h).root (tableAt (tablesOf h).code v) v ∧
      tableAt (tablesOf h).code v ≠ [] := by
  have hpos := leavesOf_pos hv
  by_cases h2 : 2 ≤ (leavesOf h).length
  · rw [decoderOf_many h2]
    obtain ⟨h1, h2, -⟩ := code_reaches hv h2
    exact ⟨h1, List.length_pos_iff.1 h2⟩
  · obtain ⟨e1, e2⟩ := code_single hv (by omega)
    obtain ⟨e3, e4⟩ := decoderOf_single e1
    rw [e2, e3, e4]
    exact ⟨⟨0, _, rfl, rfl⟩, by simp⟩

theorem after_nil (em : Emission) : Emission.after [] em = em := rfl

theorem after_after (xs ys : List Byte) (em : Emission) :
    Emission.after xs (Emission.after ys em) = Emission.after (xs ++ ys) em := by
  simp [Emission.after]

/-- The walk over a path to a leaf emits its value and starts again at the root. -/
theorem walkBits_reaches {nodes : List Node} (root : Nat) {cur : Nat} {p : List Bool} {v : Byte}
    (h : Reaches nodes cur p v) (hp : p ≠ []) (rest : List Bool) :
    walkBits nodes root cur (p ++ rest) = .after [v] (walkBits nodes root root rest) := by
  induction p generalizing cur with
  | nil => exact absurd rfl hp
  | cons b p ih =>
    obtain ⟨y, w, hf, hl⟩ := h
    rw [follow] at hf
    cases hc : childOf nodes cur b with
    | none => simp [hc] at hf
    | some z =>
      rw [hc] at hf
      simp only at hf
      rw [List.cons_append, walkBits, hc]
      simp only
      cases hz : nodes[z]? with
      | some n =>
        cases n with
        | leaf sym w' =>
          obtain ⟨rfl, rfl⟩ := follow_leaf hz hf
          rw [hz] at hl
          simp only [Option.some.injEq, Node.leaf.injEq] at hl
          simp [hl.1]
        | internal l r w' =>
          refine ih ⟨y, w, hf, hl⟩ ?_
          rintro rfl
          simp only [follow, Option.some.injEq] at hf
          rw [hf, hl] at hz
          simp at hz
      | none =>
        refine ih ⟨y, w, hf, hl⟩ ?_
        rintro rfl
        simp only [follow, Option.some.injEq] at hf
        rw [hf, hl] at hz
        simp at hz

/-- The walk over the codes of some present values emits them (R220). -/
theorem walkBits_codes {h : Hidden} (xs : List Byte) (hx : ∀ x ∈ xs, tableAt h.present x = true)
    (rest : List Bool) :
    walkBits (decoderOf h).nodes (decoderOf h).root (decoderOf h).root
        (xs.flatMap (tableAt (tablesOf h).code) ++ rest)
      = .after xs (walkBits (decoderOf h).nodes (decoderOf h).root (decoderOf h).root rest) := by
  induction xs with
  | nil => simp [after_nil]
  | cons x xs ih =>
    obtain ⟨h1, h2⟩ := decoder_reaches (hx x (by simp))
    rw [List.flatMap_cons, List.append_assoc, walkBits_reaches _ h1 h2,
      ih fun y hy => hx y (by simp [hy]), after_after]
    rfl

/-- The walk over a part of a path to a leaf that is not the whole emits nothing and is where the
path has led it. -/
theorem walkBits_part {nodes : List Node} (root : Nat) {cur : Nat} {p q : List Bool} {v : Byte}
    (h : Reaches nodes cur (p ++ q) v) (hq : q ≠ []) :
    ∃ z, follow nodes cur p = some z ∧
      walkBits nodes root cur p = if z = root then .finished [] else .raised .corruptStream := by
  induction p generalizing cur with
  | nil => exact ⟨cur, rfl, rfl⟩
  | cons b p ih =>
    obtain ⟨y, w, hf, hl⟩ := h
    rw [List.cons_append, follow] at hf
    cases hc : childOf nodes cur b with
    | none => simp [hc] at hf
    | some z =>
      rw [hc] at hf
      simp only at hf
      obtain ⟨z', h1, h2⟩ := ih ⟨y, w, hf, hl⟩
      refine ⟨z', by rw [follow, hc]; exact h1, ?_⟩
      rw [walkBits, hc]
      simp only
      cases hz : nodes[z]? with
      | some n =>
        cases n with
        | leaf sym w' =>
          have := (follow_leaf hz hf).1
          simp [hq] at this
        | internal l r w' => exact h2
      | none => exact h2

/-- Bits that end inside a codeword are corrupt (R227). -/
theorem walkBits_inside {h : Hidden} {y : Byte} (hy : tableAt h.present y = true) {part : List Bool}
    (hp : part ≠ []) (hpre : part <+: tableAt (tablesOf h).code y)
    (hne : part ≠ tableAt (tablesOf h).code y) :
    walkBits (decoderOf h).nodes (decoderOf h).root (decoderOf h).root part
      = .raised .corruptStream := by
  obtain ⟨q, hq⟩ := hpre
  have hq' : q ≠ [] := by rintro rfl; exact hne (by simpa using hq)
  obtain ⟨h1, -⟩ := decoder_reaches hy
  rw [← hq] at h1
  obtain ⟨z, hz, e⟩ := walkBits_part (decoderOf h).root h1 hq'
  rw [e, if_neg]
  rintro rfl
  by_cases h2 : 2 ≤ (leavesOf h).length
  · have hm := mem_leavesOf_of_present hy
    have hd := descends_of_inv (treeOf_inv (List.ne_nil_of_mem hm) (leavesOf_length_le h))
    rw [decoderOf_many h2] at hz
    have := follow_lt hd hz
    have := List.length_pos_iff.2 hp
    omega
  · obtain ⟨-, e2⟩ := code_single hy (by have := leavesOf_pos hy; omega)
    have hl := congrArg List.length hq
    rw [e2] at hl
    simp only [List.length_append, List.length_cons, List.length_nil] at hl
    have := List.length_pos_iff.2 hp
    have := List.length_pos_iff.2 hq'
    omega

end Sys2Proof.Machine
end

