-- ==== Sys2Proof/Laws/HuffStream.lean ====
section
/-! SUPPORT. The Huffman stream: bit-packing, the header, and the two rules on them
(30_encoding.md R121, R122; 41_huffman.md R190 to R194, R200, R220 to R224). -/

namespace Sys2Proof.Machine

/-! ### Bytes of a list -/

theorem byteAt_append_left {xs ys : List Byte} {i : Nat} (h : i < xs.length) :
    byteAt (xs ++ ys) i = byteAt xs i := by
  simp [byteAt, List.getElem?_append_left h]

theorem byteAt_append_right (xs ys : List Byte) (i : Nat) :
    byteAt (xs ++ ys) (xs.length + i) = byteAt ys i := by
  simp [byteAt, List.getElem?_append_right]

theorem byteAt_drop (xs : List Byte) (n i : Nat) : byteAt (xs.drop n) i = byteAt xs (n + i) := by
  simp [byteAt]

theorem be32At_drop (xs : List Byte) (n i : Nat) : be32At (xs.drop n) i = be32At xs (n + i) := by
  simp [be32At, byteAt_drop, Nat.add_assoc]

theorem be16At_be16 (v : BitVec 16) (ys : List Byte) : be16At (be16 v ++ ys) 0 = v := by
  apply BitVec.eq_of_getLsbD_eq
  intro i hi
  simp only [be16At, be16, rdBe16, byteAt, List.cons_append, List.nil_append, List.getD_cons_zero,
    List.getD_cons_succ, Nat.zero_add, BitVec.getLsbD_append, BitVec.getLsbD_extractLsb']
  by_cases h : i < 8
  · simp [h]
  · simp [h, show i - 8 < 8 by omega, show 8 + (i - 8) = i by omega]

theorem be32At_be32 (v : Word) (ys : List Byte) : be32At (be32 v ++ ys) 0 = v := by
  apply BitVec.eq_of_getLsbD_eq
  intro i hi
  simp only [be32At, be32, rdBe32, byteAt, List.cons_append, List.nil_append, List.getD_cons_zero,
    List.getD_cons_succ, Nat.zero_add, BitVec.getLsbD_append, BitVec.getLsbD_extractLsb']
  by_cases h : i < 8
  · simp [h]
  · by_cases h1 : i - 8 < 8
    · simp [h, h1, show 8 + (i - 8) = i by omega]
    · by_cases h2 : i - 8 - 8 < 8
      · simp [h, h1, h2, show 16 + (i - 8 - 8) = i by omega]
      · simp [h, h1, h2, show i - 8 - 8 - 8 < 8 by omega, show 24 + (i - 8 - 8 - 8) = i by omega]

@[simp] theorem length_be16 (v : BitVec 16) : (be16 v).length = 2 := rfl
@[simp] theorem length_be32 (v : Word) : (be32 v).length = 4 := rfl

/-! ### Bit-packing -/

theorem shiftIn_bit (acc : Byte) (b : Bool) {j : Nat} (hj : j < 8) :
    (acc * 2 + (BitVec.ofBool b).setWidth 8).getLsbD j = if j = 0 then b else acc.getLsbD (j - 1) := by
  have hb : ∀ i, i ≠ 0 → ((BitVec.ofBool b).setWidth 8).getLsbD i = false := by
    intro i hi
    cases b <;> simp [BitVec.ofBool, hi]
  have e : (acc * 2 + (BitVec.ofBool b).setWidth 8 : Byte)
      = acc <<< 1 ||| (BitVec.ofBool b).setWidth 8 := by
    rw [show (acc * 2 : Byte) = acc <<< 1 by apply BitVec.eq_of_toNat_eq; simp [BitVec.toNat_mul, Nat.shiftLeft_eq]]
    refine BitVec.add_eq_or_of_and_eq_zero _ _ ?_
    apply BitVec.eq_of_getLsbD_eq
    intro i hi
    rw [BitVec.getLsbD_and]
    by_cases h0 : i = 0
    · subst h0; simp
    · rw [hb i h0]; simp
  rw [e, BitVec.getLsbD_or]
  by_cases h0 : j = 0
  · subst h0; cases b <;> simp [BitVec.ofBool]
  · rw [hb j h0, if_neg h0]
    simp [hj, show ¬ j < 1 by omega, BitVec.getLsbD_eq_getElem (show j - 1 < 8 by omega)]

theorem packedBit_cons (x : Byte) (xs : List Byte) (i : Nat) :
    packedBit (x :: xs) i = if i < 8 then x.getLsbD (7 - i) else packedBit xs (i - 8) := by
  unfold packedBit byteAt
  by_cases h : i < 8
  · simp [h, Nat.div_eq_of_lt h, Nat.mod_eq_of_lt h]
  · have e1 : i / 8 = (i - 8) / 8 + 1 := by omega
    have e2 : i % 8 = (i - 8) % 8 := by omega
    simp [h, e1, e2]

theorem ceilDiv_eight (n : Nat) : ceilDiv n 8 = (n + 7) / 8 := rfl

/-- What is packed after `acc` holds `accN` bits: those bits, then the rest, then zeros. -/
theorem packBits_spec (bits : List Bool) : ∀ (acc : Byte) (accN : Nat), accN < 8 →
    (packBits acc accN bits).length = ceilDiv (accN + bits.length) 8 ∧
    ∀ i, i < 8 * (packBits acc accN bits).length → packedBit (packBits acc accN bits) i =
      if i < accN then acc.getLsbD (accN - 1 - i) else bits.getD (i - accN) false := by
  induction bits with
  | nil =>
    intro acc accN h
    rw [packBits]
    by_cases h0 : 0 < accN
    · rw [if_pos h0]
      refine ⟨by simp [ceilDiv_eight]; omega, fun i hi => ?_⟩
      simp only [List.length_cons, List.length_nil] at hi
      rw [packedBit_cons, if_pos (by omega), BitVec.getLsbD_shiftLeft]
      by_cases hi' : i < accN
      · simp [hi', show 7 - i < 8 by omega, show ¬ 7 - i < 8 - accN by omega,
          show 7 - i - (8 - accN) = accN - 1 - i by omega]
      · simp [hi', show 7 - i < 8 - accN by omega]
    · rw [if_neg h0]
      refine ⟨by simp [ceilDiv_eight]; omega, fun i hi => by simp at hi⟩
  | cons b bits ih =>
    intro acc accN h
    rw [packBits]
    by_cases h8 : accN + 1 = 8
    · rw [if_pos h8]
      obtain ⟨l, hbit⟩ := ih 0 0 (by omega)
      refine ⟨by simp only [List.length_cons, l, ceilDiv_eight]; omega, fun i hi => ?_⟩
      rw [packedBit_cons]
      by_cases hi8 : i < 8
      · rw [if_pos hi8, shiftIn_bit _ _ (by omega)]
        by_cases hl : i < accN
        · rw [if_neg (by omega), if_pos hl]
          congr 1; omega
        · rw [if_pos (by omega), if_neg hl]
          obtain rfl : i = accN := by omega
          simp
      · rw [if_neg hi8, hbit (i - 8) (by simp only [List.length_cons] at hi; omega), if_neg (by omega),
          if_neg (by omega), show i - accN = i - 8 - 0 + 1 by omega]
        rfl
    · rw [if_neg h8]
      obtain ⟨l, hbit⟩ := ih (acc * 2 + (BitVec.ofBool b).setWidth 8) (accN + 1) (by omega)
      refine ⟨by rw [l]; simp only [List.length_cons, ceilDiv_eight]; omega, fun i hi => ?_⟩
      rw [hbit i hi]
      by_cases hl : i < accN
      · rw [if_pos (by omega), if_pos hl, shiftIn_bit _ _ (by omega), if_neg (by omega)]
        congr 1; omega
      · rw [if_neg hl]
        by_cases he : i = accN
        · subst he
          rw [if_pos (by omega), shiftIn_bit _ _ (by omega), if_pos (by omega)]
          simp
        · rw [if_neg (by omega), show i - accN = i - (accN + 1) + 1 by omega]
          rfl

/-- Bit-packing holds the bits, in as many bytes as they need (R122, R194). -/
theorem packs_packBits (bits : List Bool) : Packs (packBits 0 0 bits) bits := by
  obtain ⟨h1, h2⟩ := packBits_spec bits 0 0 (by omega)
  refine ⟨by simpa using h1, fun i hi => ?_⟩
  simpa using h2 i hi

/-! ### The length of the bit stream -/

theorem sum_indicator {vs : List Byte} (hn : vs.Nodup) (f : Byte → Nat) {x : Byte} (hx : x ∈ vs) :
    (vs.map fun v => if x = v then f v else 0).sum = f x := by
  induction vs with
  | nil => simp at hx
  | cons u vs ih =>
    rw [List.nodup_cons] at hn
    rw [List.map_cons, List.sum_cons]
    by_cases h : x = u
    · subst h
      have : (vs.map fun v => if x = v then f v else 0) = vs.map fun _ => 0 :=
        List.map_congr_left fun v hv => if_neg fun (e : x = v) => hn.1 (e ▸ hv)
      simp [this]
    · rw [if_neg h, ih hn.2 (by simpa [h] using hx), Nat.zero_add]

theorem sum_by_count {vs : List Byte} (hn : vs.Nodup) (f : Byte → Nat) (xs : List Byte)
    (hx : ∀ x ∈ xs, x ∈ vs) :
    (vs.map fun v => xs.count v * f v).sum = (xs.map f).sum := by
  induction xs with
  | nil => simp
  | cons x xs ih =>
    rw [List.map_cons, List.sum_cons, ← ih fun y hy => hx y (by simp [hy]),
      ← sum_indicator hn f (hx x (by simp)), ← List.sum_map_add]
    congr 1
    refine List.map_congr_left fun v _ => ?_
    rw [List.count_cons]
    by_cases h : x = v
    · simp [h, Nat.add_mul, Nat.add_comm]
    · simp [h]

/-- `bitLength` is the length of the bit stream (R190). -/
theorem bitLengthOf_eq {src : List Byte} (hl : src.length < 2 ^ 32) (h : Hidden)
    (t : Vector (List Bool) 256) :
    bitLengthOf { countFreq src h with code := t } = (src.flatMap (tableAt t)).length := by
  have hnd : (allBytes.filter (tableAt (countFreq src h).present)).Nodup :=
    (allBytes_sorted.imp fun h => (BitVec.ne_of_lt h)).filter _
  have hmem : ∀ x ∈ src, x ∈ allBytes.filter (tableAt (countFreq src h).present) := fun x hx =>
    List.mem_filter.2 ⟨mem_allBytes x, (countFreq_present src h x).2 hx⟩
  rw [List.length_flatMap, ← sum_by_count hnd (fun v => (tableAt t v).length) src hmem, bitLengthOf,
    leavesOf_congr (g := { countFreq src h with code := t }) (h := countFreq src h) rfl rfl, leavesOf,
    List.map_map]
  congr 1
  refine List.map_congr_left fun v _ => ?_
  have : src.count v < 2 ^ 32 := Nat.lt_of_le_of_lt List.count_le_length hl
  simp only [Function.comp, countFreq_freq, BitVec.toNat_ofNat, Nat.mod_eq_of_lt this]

/-- The same of the tables HUF.C builds. -/
theorem bitLengthOf_tablesOf {src : List Byte} (hl : src.length < 2 ^ 32) (h : Hidden) :
    bitLengthOf (tablesOf (countFreq src h))
      = (src.flatMap (tableAt (tablesOf (countFreq src h)).code)).length := by
  rw [← bitLengthOf_eq hl h (tablesOf (countFreq src h)).code]
  rfl

/-- The rule of HUF.C on a non-empty input (R200). -/
theorem huffCompress_eq (cap : Nat) {src : List Byte} (hne : src.length ≠ 0)
    (hl : src.length < 2 ^ 32) (h : Hidden) :
    let g := tablesOf (countFreq src h)
    let bits := src.flatMap (tableAt g.code)
    huffCompress cap src h =
      if 2 ^ 32 - 1 < bits.length then .raised .lengthOverflow
      else if cap < 6 + 5 * (leavesOf g).length + ceilDiv bits.length 8 then .raised .outputOverflow
      else .finished (huffStream (leavesOf g) bits.length (packBits 0 0 bits)) := by
  intro g bits
  have e : bitLengthOf (deriveCodes (buildTree (countFreq src h))) = bits.length :=
    bitLengthOf_tablesOf hl h
  rw [huffCompress, if_neg hne]
  simp only [e]
  rfl

/-- The size of a Huffman stream (R121, R192). -/
theorem huffStream_length (es : List (Byte × Word)) (n : Nat) (packed : List Byte) :
    (huffStream es n packed).length = 6 + 5 * es.length + packed.length := by
  have : (es.flatMap fun p => p.1 :: be32 p.2).length = 5 * es.length := by
    induction es with
    | nil => rfl
    | cons p es ih => simp only [List.flatMap_cons, List.length_append, ih, List.length_cons, length_be32]; omega
  simp only [huffStream, List.length_append, this, length_be16, length_be32]
  omega

/-! ### The header -/

/-- A header is entered only when no value comes twice (R222). -/
theorem readEntries_distinct {src : List Byte} (left : Nat) : ∀ {e : Nat} {h g : Hidden},
    readEntries src left e h = some g →
      (∀ i, e ≤ i → i < e + left → tableAt h.present (byteAt src (2 + 5 * i)) = false) ∧
      (∀ i j, e ≤ i → i < j → j < e + left → byteAt src (2 + 5 * i) ≠ byteAt src (2 + 5 * j)) := by
  induction left with
  | zero => intro e h g _; exact ⟨fun i _ _ => by omega, fun i j _ _ _ => by omega⟩
  | succ left ih =>
    intro e h g hr
    rw [readEntries] at hr
    split at hr
    · simp at hr
    · rename_i hp
      obtain ⟨i1, i2⟩ := ih hr
      have hput : ∀ i, e + 1 ≤ i → i < e + (left + 1) →
          byteAt src (2 + 5 * i) ≠ byteAt src (2 + 5 * e) ∧
            tableAt h.present (byteAt src (2 + 5 * i)) = false := by
        intro i h1 h2
        have := i1 i h1 (by omega)
        by_cases hv : byteAt src (2 + 5 * i) = byteAt src (2 + 5 * e)
        · rw [hv] at this; simp [enterFreq] at this
        · rw [enterFreq] at this
          simp only [tableAt_put_other _ _ hv] at this
          exact ⟨hv, this⟩
      refine ⟨fun i h1 h2 => ?_, fun i j h1 h2 h3 => ?_⟩
      · rcases Nat.eq_or_lt_of_le h1 with rfl | h1
        · simpa using hp
        · exact (hput i h1 h2).2
      · rcases Nat.eq_or_lt_of_le h1 with rfl | h1
        · exact (hput j (by omega) h3).1.symm
        · exact i2 i j h1 h2 (by omega)

/-- The entries of a header with distinct values make the table they state. -/
theorem readEntries_eq {src : List Byte} (es : List (Byte × Word)) :
    ∀ {e : Nat} {h : Hidden} {tail : List Byte},
      src.drop (2 + 5 * e) = es.flatMap (fun p => p.1 :: be32 p.2) ++ tail →
      (es.map Prod.fst).Nodup → (∀ v ∈ es.map Prod.fst, tableAt h.present v = false) →
      readEntries src es.length e h = some (enterAll es h) := by
  induction es with
  | nil => intro e h tail _ _ _; rfl
  | cons p es ih =>
    obtain ⟨u, f⟩ := p
    intro e h tail hs hn hp
    simp only [List.map_cons, List.nodup_cons] at hn
    have h0 : byteAt src (2 + 5 * e) = u := by
      have := byteAt_drop src (2 + 5 * e) 0
      rw [hs] at this
      simpa [byteAt] using this.symm
    have hd1 : src.drop (3 + 5 * e) = be32 f ++ (es.flatMap (fun p => p.1 :: be32 p.2) ++ tail) := by
      rw [show 3 + 5 * e = 2 + 5 * e + 1 by omega, ← List.drop_drop, hs]
      simp
    have h1 : be32At src (3 + 5 * e) = f := by
      have := be32At_drop src (3 + 5 * e) 0
      rw [hd1, be32At_be32] at this
      simpa using this.symm
    have hd5 : src.drop (2 + 5 * (e + 1)) = es.flatMap (fun p => p.1 :: be32 p.2) ++ tail := by
      rw [show 2 + 5 * (e + 1) = 3 + 5 * e + 4 by omega, ← List.drop_drop, hd1]
      simp [be32]
    rw [List.length_cons, readEntries]
    simp only [h0, h1]
    rw [if_neg (by simp [hp u (by simp)])]
    refine ih hd5 hn.2 fun v hv => ?_
    have hvu : v ≠ u := fun (e : v = u) => hn.1 (e ▸ hv)
    rw [enterFreq]
    simp only [tableAt_put_other _ _ hvu]
    exact hp v (by simp [hv])

theorem nodup_bytes_length {vs : List Byte} (h : vs.Nodup) : vs.length ≤ 256 := by
  have hs : vs.Subperm allBytes := h.subperm fun v _ => mem_allBytes v
  simpa [allBytes] using hs.length_le

/-- The rule of HUF.D on a well-formed stream with anything after it (R220, R224). -/
theorem huffDecompress_eq {es : List (Byte × Word)} {n : Nat} {packed trailing : List Byte}
    (hn : (es.map Prod.fst).Nodup) (hb : n < 2 ^ 32) (hp : packed.length = ceilDiv n 8) (h : Hidden) :
    huffDecompress (huffStream es n packed ++ trailing) h =
      huffPayload (huffStream es n packed ++ trailing) es.length n (6 + 5 * es.length)
        (enterAll es (clearFreq h)) := by
  have hk : es.length ≤ 256 := by simpa using nodup_bytes_length hn
  have hlen := huffStream_length es n packed
  generalize hsrc : huffStream es n packed ++ trailing = src
  have hl : src.length = 6 + 5 * es.length + packed.length + trailing.length := by
    rw [← hsrc, List.length_append, hlen]
  have hk' : (be16At src 0).toNat = es.length := by
    rw [← hsrc, huffStream, List.append_assoc, List.append_assoc, List.append_assoc, be16At_be16,
      BitVec.toNat_ofNat, Nat.mod_eq_of_lt (by omega)]
  have hd2 : src.drop 2 = es.flatMap (fun p => p.1 :: be32 p.2)
      ++ (be32 (BitVec.ofNat 32 n) ++ (packed ++ trailing)) := by
    rw [← hsrc, huffStream]
    simp [be16, be32]
  have hflat : (es.flatMap fun p => p.1 :: be32 p.2).length = 5 * es.length := by
    have := hlen
    simp only [huffStream, List.length_append, length_be16, length_be32] at this
    omega
  have hbl : (be32At src (2 + 5 * es.length)).toNat = n := by
    have := be32At_drop src (2 + 5 * es.length) 0
    rw [← List.drop_drop, hd2, List.drop_left' hflat, be32At_be32] at this
    rw [Nat.add_zero] at this
    rw [← this, BitVec.toNat_ofNat, Nat.mod_eq_of_lt hb]
  have hre := readEntries_eq (src := src) es (e := 0) (h := clearFreq h) (by simpa using hd2) hn
    (by simp [clearFreq])
  rw [huffDecompress, if_neg (by omega), if_neg (by omega)]
  simp only [hk', hre, hbl, Config.maxSymbols]
  rw [if_neg (by omega), if_neg (by omega), if_neg (by omega)]

/-- The bits HUF.D walks are those of the packed field (R122). -/
theorem streamBits_eq {es : List (Byte × Word)} {packed trailing : List Byte} {bits : List Bool}
    {n : Nat} (hb : n = bits.length) (hp : packed.length = ceilDiv bits.length 8)
    (hbits : ∀ i, i < bits.length → packedBit packed i = bits.getD i false) :
    streamBits (huffStream es n packed ++ trailing) (6 + 5 * es.length) bits.length = bits := by
  subst hb
  have hpre : (huffStream es bits.length []).length = 6 + 5 * es.length := by
    simp [huffStream_length]
  have hsplit : huffStream es bits.length packed ++ trailing
      = huffStream es bits.length [] ++ (packed ++ trailing) := by simp [huffStream]
  refine List.ext_getElem (by simp [streamBits]) fun i h1 h2 => ?_
  have hi : i < 8 * packed.length := by rw [hp, ceilDiv_eight]; omega
  simp only [streamBits, List.getElem_map, List.getElem_range, streamBit]
  rw [hsplit, ← hpre, byteAt_append_right, byteAt_append_left (by omega)]
  have := hbits i h2
  rw [packedBit] at this
  rw [this]
  simp [h2]

/-- The rule of HUF.D on a stream with symbols whose packed field holds `bits` (R220). -/
theorem huffDecompress_walk {es : List (Byte × Word)} {packed trailing : List Byte}
    {bits : List Bool} (hne : es ≠ []) (hn : (es.map Prod.fst).Nodup) (hb : bits.length < 2 ^ 32)
    (hp : packed.length = ceilDiv bits.length 8)
    (hbits : ∀ i, i < bits.length → packedBit packed i = bits.getD i false) (h : Hidden) :
    huffDecompress (huffStream es bits.length packed ++ trailing) h =
      walkBits (decoderOf (enterAll es (clearFreq h))).nodes (decoderOf (enterAll es (clearFreq h))).root
        (decoderOf (enterAll es (clearFreq h))).root bits := by
  have hk : es.length ≠ 0 := fun e => hne (List.eq_nil_of_length_eq_zero e)
  rw [huffDecompress_eq hn hb hp h, huffPayload, if_neg hk]
  simp only [streamBits_eq rfl hp hbits]
  rfl

/-! ### The round trip of the tables -/

/-- The header of a table makes a table with the same leaves, so the same tree and codes (R186). -/
theorem leavesOf_enterAll_leavesOf (h g : Hidden) :
    leavesOf (enterAll (leavesOf h) (clearFreq g)) = leavesOf h := by
  have hfst : (leavesOf h).map Prod.fst = allBytes.filter (tableAt h.present) := by
    simp [leavesOf, Function.comp_def]
  have hnd : ((leavesOf h).map Prod.fst).Nodup := by
    rw [hfst]; exact (allBytes_sorted.imp fun h => (BitVec.ne_of_lt h)).filter _
  have hpres : ∀ v, tableAt (enterAll (leavesOf h) (clearFreq g)).present v = tableAt h.present v := by
    intro v
    rw [Bool.eq_iff_iff, enterAll_present hnd, hfst, List.mem_filter]
    simp [mem_allBytes]
  rw [leavesOf, List.filter_congr fun v _ => hpres v]
  refine List.map_congr_left fun v hv => ?_
  have hv' : tableAt h.present v = true := (List.mem_filter.1 hv).2
  rw [(enterAll_spec _ hnd _ v).2.1 _ (mem_leavesOf_of_present hv')]

/-- The codes depend on the leaves alone. -/
theorem tablesOf_code_congr {g h : Hidden} (e : leavesOf g = leavesOf h) :
    (tablesOf g).code = (tablesOf h).code := by rw [tablesOf_code, tablesOf_code, e]

end Sys2Proof.Machine
end

