-- ==== Sys2Proof/Laws/Lz77.lean ====
section
/-! SUPPORT. The LZ77 codec: the match search, the greedy scan, and the records' expansion. -/

namespace Sys2Proof.Machine

theorem matchLength_le (src : List Byte) (i j m : Nat) : matchLength src i j m ≤ m := by
  induction m generalizing i j with
  | zero => simp [matchLength]
  | succ m ih =>
    rw [matchLength]
    split
    · have := ih (i + 1) (j + 1); omega
    · omega

/-- A length is at most the match length exactly when that many bytes agree (42_lz77.md R241). -/
theorem le_matchLength_iff (src : List Byte) (i j m l : Nat) (h : l ≤ m) :
    l ≤ matchLength src i j m ↔ ∀ t, t < l → byteAt src (i + t) = byteAt src (j + t) := by
  induction m generalizing i j l with
  | zero =>
    obtain rfl : l = 0 := by omega
    simp
  | succ m ih =>
    cases l with
    | zero => simp
    | succ l =>
      rw [matchLength]
      split
      · next he =>
        have := ih (i + 1) (j + 1) l (by omega)
        rw [Nat.add_le_add_iff_right, this]
        constructor
        · intro H t ht
          cases t with
          | zero => simpa using he
          | succ t => have := H t (by omega); rwa [Nat.add_right_comm, Nat.add_right_comm j] at this
        · intro H t ht
          have := H (t + 1) (by omega)
          rwa [Nat.add_right_comm, Nat.add_right_comm j]
      · next he =>
        constructor
        · intro h; omega
        · intro H; exact absurd (by simpa using H 0 (by omega)) he

/-- What the search over the first `k` distances has found: an upper bound of every candidate's
length, met by the recorded distance and by no smaller one. -/
theorem foldl_betterMatch (src : List Byte) (pos maxLen k : Nat) :
    let m := (List.range' 1 k).foldl (betterMatch src pos maxLen) (0, 0)
    (∀ d, 1 ≤ d → d ≤ k → matchLength src (pos - d) pos maxLen ≤ m.2) ∧
    (0 < m.2 → 1 ≤ m.1 ∧ m.1 ≤ k ∧ matchLength src (pos - m.1) pos maxLen = m.2 ∧
      ∀ d, 1 ≤ d → d < m.1 → matchLength src (pos - d) pos maxLen < m.2) := by
  induction k with
  | zero => simp; omega
  | succ k ih =>
    rw [List.range'_concat, List.foldl_append]
    simp only [List.foldl_cons, List.foldl_nil, Nat.one_mul]
    generalize (List.range' 1 k).foldl (betterMatch src pos maxLen) (0, 0) = m at ih
    obtain ⟨h1, h2⟩ := ih
    rw [betterMatch]
    split
    · next hlt =>
      simp only
      refine ⟨fun d hd hk => ?_, fun _ => ⟨by omega, by omega, by trivial, fun d hd hk => ?_⟩⟩
      · rcases Nat.lt_or_ge k d with hd' | hd'
        · obtain rfl : d = 1 + k := by omega
          exact Nat.le_refl _
        · exact Nat.le_of_lt (Nat.lt_of_le_of_lt (h1 d hd hd') hlt)
      · exact Nat.lt_of_le_of_lt (h1 d hd (by omega)) hlt
    · next hlt =>
      refine ⟨fun d hd hk => ?_, fun hp => ?_⟩
      · rcases Nat.lt_or_ge k d with hd' | hd'
        · obtain rfl : d = 1 + k := by omega
          omega
        · exact h1 d hd hd'
      · obtain ⟨a, b, c, d⟩ := h2 hp
        exact ⟨a, by omega, c, d⟩

/-- A candidate's length is at most the match length at its distance. -/
theorem candidate_iff {window lookahead : Nat} {src : List Byte} {pos d l : Nat} :
    Candidate window lookahead src pos d l ↔
      1 ≤ d ∧ d ≤ min window pos ∧
        l ≤ matchLength src (pos - d) pos (maxMatch lookahead src.length pos) := by
  unfold Candidate RunMatches
  constructor
  · rintro ⟨h1, h2, h3, h4⟩
    exact ⟨h1, h2, (le_matchLength_iff _ _ _ _ _ h3).2 h4⟩
  · rintro ⟨h1, h2, h3⟩
    have hl := Nat.le_trans h3 (matchLength_le _ _ _ _)
    exact ⟨h1, h2, hl, (le_matchLength_iff _ _ _ _ _ hl).1 h3⟩

/-- No candidate is longer than what the search answers (42_lz77.md R241). -/
theorem candidate_le_findMatch {window lookahead : Nat} {src : List Byte} {pos d l : Nat}
    (h : Candidate window lookahead src pos d l) : l ≤ (findMatch window lookahead src pos).2 := by
  obtain ⟨h1, h2, h3⟩ := candidate_iff.1 h
  exact Nat.le_trans h3 ((foldl_betterMatch src pos _ _).1 d h1 h2)

/-- A match found is the best one (42_lz77.md R241). -/
theorem findMatch_best {window lookahead : Nat} {src : List Byte} {pos : Nat}
    (h : 0 < (findMatch window lookahead src pos).2) :
    BestMatch window lookahead src pos (findMatch window lookahead src pos).1
      (findMatch window lookahead src pos).2 := by
  obtain ⟨h1, h2, h3, h4⟩ := (foldl_betterMatch src pos (maxMatch lookahead src.length pos) _).2 h
  refine ⟨candidate_iff.2 ⟨h1, h2, Nat.le_of_eq h3.symm⟩, fun d' l' hc => candidate_le_findMatch hc,
    fun d' hc => ?_⟩
  obtain ⟨c1, c2, c3⟩ := candidate_iff.1 hc
  by_contra hlt
  exact absurd c3 (by have := h4 d' c1 (Nat.not_le.1 hlt); exact Nat.not_le.2 this)

/-- The best match is unique, so the search answers it. -/
theorem findMatch_eq_of_best {window lookahead : Nat} {src : List Byte} {pos d l : Nat} (hl : 0 < l)
    (h : BestMatch window lookahead src pos d l) : findMatch window lookahead src pos = (d, l) := by
  have hle := candidate_le_findMatch h.1
  have hb := findMatch_best (window := window) (lookahead := lookahead) (src := src) (pos := pos)
    (by omega)
  have e2 : (findMatch window lookahead src pos).2 = l := Nat.le_antisymm (h.2.1 _ _ hb.1) hle
  rw [e2] at hb
  have e1 := Nat.le_antisymm (hb.2.2 d h.1) (h.2.2 _ hb.1)
  exact Prod.ext e1 e2

/-- The bytes of a record with a 16-bit distance. -/
theorem lzRecord_eq {d l : Nat} (c : Byte) (h : d < 65536) :
    lzRecord d l c = [BitVec.ofNat 8 (d / 256), BitVec.ofNat 8 d, BitVec.ofNat 8 l, c] := by
  have e1 : (BitVec.ofNat 16 d).extractLsb' 8 8 = BitVec.ofNat 8 (d / 256) := by
    apply BitVec.eq_of_toNat_eq
    simp [BitVec.extractLsb'_toNat, Nat.shiftRight_eq_div_pow, Nat.mod_eq_of_lt h]
  have e2 : (BitVec.ofNat 16 d).extractLsb' 0 8 = BitVec.ofNat 8 d := by
    apply BitVec.eq_of_toNat_eq
    simp [BitVec.extractLsb'_toNat, Nat.mod_eq_of_lt h]
  simp [lzRecord, be16, e1, e2]

/-- The scan emits the greedy stream (42_lz77.md R244, R250). -/
theorem lzScan_of_parse {window lookahead : Nat} {src : List Byte} (hw : window < 65536)
    {pos : Nat} {out : List Byte} (h : LzParse window lookahead src pos out) :
    ∀ fuel, src.length - pos ≤ fuel → lzScan window lookahead src fuel pos = out := by
  induction h with
  | done pos hp =>
    intro fuel _
    cases fuel with
    | zero => rfl
    | succ fuel => rw [lzScan, if_neg (by omega)]
  | backReference pos d l rest hp hl hb _ ih =>
    intro fuel hf
    obtain ⟨fuel, rfl⟩ : ∃ f, fuel = f + 1 := ⟨fuel - 1, by omega⟩
    have e := findMatch_eq_of_best (by omega) hb
    have hd : d < 65536 := by have := hb.1.2.1; omega
    rw [lzScan, if_pos hp]
    simp only [e]
    rw [if_pos (by simpa using hl), lzRecord_eq _ hd, ih fuel (by omega)]
    rfl
  | literal pos rest hp hlit _ ih =>
    intro fuel hf
    obtain ⟨fuel, rfl⟩ : ∃ f, fuel = f + 1 := ⟨fuel - 1, by omega⟩
    have : ¬ 3 ≤ (findMatch window lookahead src pos).2 := by
      intro h3
      exact absurd (hlit _ _ (findMatch_best (by omega)).1) (by omega)
    rw [lzScan, if_pos hp]
    simp only
    rw [if_neg (by simpa using this), lzRecord_eq _ (by omega), ih fuel (by omega)]
    rfl

/-- Every input has a greedy stream: what the scan emits. -/
theorem lzParse_scan {window lookahead : Nat} (src : List Byte) (hw : window < 65536) (fuel : Nat) :
    ∀ pos, src.length - pos ≤ fuel →
      LzParse window lookahead src pos (lzScan window lookahead src fuel pos) := by
  induction fuel with
  | zero => intro pos h; exact .done pos (by omega)
  | succ fuel ih =>
    intro pos h
    rw [lzScan]
    split
    · next hp =>
      simp only
      split
      · next h3 =>
        simp only [Config.minMatch] at h3
        have hb := findMatch_best (window := window) (lookahead := lookahead) (src := src)
          (pos := pos) (by omega)
        rw [lzRecord_eq _ (by have := hb.1.2.1; omega)]
        exact .backReference pos _ _ _ hp h3 hb (ih _ (by omega))
      · next h3 =>
        simp only [Config.minMatch] at h3
        rw [lzRecord_eq _ (by omega)]
        exact .literal pos _ hp
          (fun d l hc => by have := candidate_le_findMatch hc; omega) (ih _ (by omega))
    · next hp => exact .done pos (by omega)

/-! ### The decoder -/

theorem byteAt_reverse {xs : List Byte} {i : Nat} (h : i < xs.length) :
    byteAt xs.reverse i = byteAt xs (xs.length - 1 - i) := by
  have h' : xs.length - 1 - i < xs.length := by omega
  simp [byteAt, h, h']

/-- The distance of a record is what its first two bytes state. -/
theorem rdBe16_toNat (a b : Byte) : (rdBe16 a b).toNat = recordDistance a b := by
  have := b.isLt
  simp only [rdBe16, recordDistance, BitVec.toNat_append]
  rw [Nat.shiftLeft_eq, Nat.mul_comm, ← Nat.two_pow_add_eq_or_of_lt this, Nat.mul_comm]

/-- A copy from the growing output is the extension that repeats it (42_lz77.md R261). -/
theorem copyBack_of_ext {d : Nat} {out ext : List Byte} (hd : 1 ≤ d) (hle : d ≤ out.length)
    (h : ∀ t, t < ext.length → byteAt ext t = byteAt (out ++ ext) (out.length - d + t)) :
    copyBack d ext.length out.reverse = (out ++ ext).reverse := by
  induction ext generalizing out with
  | nil => simp [copyBack]
  | cons e ext ih =>
    have h0 := h 0 (by simp)
    have he : hist out.reverse d = e := by
      rw [hist, byteAt_reverse (by omega)]
      have e1 : out.length - 1 - (d - 1) = out.length - d := by omega
      have : out.length - d < out.length := by omega
      rw [e1]
      simp only [byteAt, Nat.add_zero] at h0 ⊢
      simpa [List.getElem?_append_left this, this] using h0.symm
    rw [List.length_cons, copyBack, he]
    have := ih (out := out ++ [e]) (by simp; omega) (fun t ht => by
      have := h (t + 1) (by simpa using ht)
      simp only [List.append_assoc, List.singleton_append, List.length_append, List.length_cons,
        List.length_nil]
      rw [show out.length + (0 + 1) - d + t = out.length - d + (t + 1) from by omega, ← this]
      simp [byteAt])
    simpa using this

/-- LZ.D of valid records, followed by anything, goes on from what they expand to. -/
theorem lzRecords_of_expands {out src fin : List Byte} (h : LzExpands out src fin)
    (rest : List Byte) : lzRecords out.reverse (src ++ rest) = lzRecords fin.reverse rest := by
  induction h with
  | nil out => rfl
  | literal out c rest' fin _ ih =>
    simp only [List.cons_append, lzRecords]
    rw [if_pos (by simp [rdBe16])]
    simpa using ih
  | copy out d0 d1 l c rest' fin ext h1 h2 hl hext _ ih =>
    simp only [List.cons_append, lzRecords]
    rw [rdBe16_toNat, if_neg (by omega), if_neg (by simp; omega), ← hl,
      copyBack_of_ext h1 h2 hext]
    simpa using ih

/-- LZ.D of a stream of valid records (42_lz77.md R265). -/
theorem lzExpands_length {out src fin : List Byte} (h : LzExpands out src fin) :
    src.length % 4 = 0 := by
  induction h with
  | nil => rfl
  | literal => simp only [List.length_cons]; omega
  | copy => simp only [List.length_cons]; omega

theorem lzDecompress_of_expands {src fin : List Byte} (h : LzExpands [] src fin) :
    lzDecompress src = .finished fin := by
  have hr := lzRecords_of_expands h []
  simp only [List.append_nil, List.reverse_nil, lzRecords, List.reverse_reverse] at hr
  rw [lzDecompress, if_neg (by simp [lzExpands_length h]), hr]

/-- The greedy stream of an input expands to it (42_lz77.md R270). -/
theorem lzExpands_of_parse {window lookahead : Nat} {src : List Byte} (hw : window < 65536)
    (hL : lookahead < 256) {pos : Nat} {out : List Byte}
    (h : LzParse window lookahead src pos out) (hp : pos ≤ src.length) :
    LzExpands (src.take pos) out src := by
  induction h with
  | done pos hpos =>
    rw [List.take_of_length_le hpos]
    exact .nil _
  | literal pos rest hpos _ _ ih =>
    refine .literal _ _ _ _ ?_
    have := ih (by omega)
    rw [List.take_add_one] at this
    simpa [byteAt, hpos] using this
  | backReference pos d l rest hpos hl hb _ ih =>
    obtain ⟨⟨h1, h2, h3, h4⟩, -, -⟩ := hb
    have hdw : d < 65536 := by omega
    have hrec : recordDistance (BitVec.ofNat 8 (d / 256)) (BitVec.ofNat 8 d) = d := by
      simp only [recordDistance, BitVec.toNat_ofNat]; omega
    have hlen : pos + l < src.length := by omega
    have hl8 : (BitVec.ofNat 8 l).toNat = l := by simp; omega
    refine .copy _ _ _ _ _ _ _ ((src.drop pos).take l) ?_ ?_ ?_ ?_ ?_
    · rw [hrec]; exact h1
    · rw [hrec]; simp; omega
    · rw [hl8]; simp; omega
    · intro t ht
      have ht' : t < l := by simp at ht; omega
      have hm := h4 t ht'
      rw [hrec]
      have e : src.take pos ++ (src.drop pos).take l = src.take (pos + l) := (List.take_add).symm
      rw [e]
      simp only [byteAt, List.length_take, Nat.min_eq_left (Nat.le_of_lt hpos)] at hm ⊢
      have a1 : pos - d + t < src.length := by omega
      have a2 : pos + t < src.length := by omega
      simp only [List.getD_eq_getElem?_getD, List.getElem?_take, List.getElem?_drop] at hm ⊢
      rw [if_pos ht', if_pos (by omega)]
      exact hm.symm
    · have := ih (by omega)
      have e : src.take pos ++ (src.drop pos).take l = src.take (pos + l) := (List.take_add).symm
      rw [e]
      rw [show pos + l + 1 = (pos + l) + 1 from rfl, List.take_add_one] at this
      simpa [byteAt, hlen] using this

end Sys2Proof.Machine
end

