-- ==== Sys2Proof/Laws/PerInstr.lean ====
section
/-! SUPPORT. The statements made of every command as syntax, one lemma a constructor. -/

namespace Sys2Proof.Laws.Fields

/-- A command is well-formed, its word is a three-bit code with RSVD 0, and the fields of the word are
the command's (30_encoding.md R111, R114). -/
def Statement (i : Instr) : Prop :=
  i.wf = true ∧ (encode i).toNat < 8 ∧ cmdFields (encode i) = i.fields

theorem hufC : Statement .hufC := by unfold Statement; decide
theorem hufD : Statement .hufD := by unfold Statement; decide
theorem lzC : Statement .lzC := by unfold Statement; decide
theorem lzD : Statement .lzD := by unfold Statement; decide
theorem rleC : Statement .rleC := by unfold Statement; decide
theorem rleD : Statement .rleD := by unfold Statement; decide

end Sys2Proof.Laws.Fields
end

