-- ==== Sys2Proof/Laws/Program.lean ====
section
/-! SUPPORT. The start state of a host program (30_encoding.md R131). -/

namespace Sys2Proof.Machine

theorem lineStart_wf {m : Memory} {l : HostLine} (h : Memory.wf m) (hl : l.wf = true) :
    Memory.wf (lineStart m l) := by
  cases l with
  | mem base bs => exact writeList_wf h (by simpa [HostLine.wf] using hl)
  | wr _ _ => exact h
  | rd _ => exact h
  | poll _ _ => exact h

/-- The start state of a well-formed program keeps the canonical form of the data space. -/
theorem withProgram_wf {s : State} {lines : List HostLine} (h : Memory.wf s.mem)
    (hl : ∀ l ∈ lines, l.wf = true) : Memory.wf (s.withProgram lines).mem := by
  rw [withProgram_mem]
  exact List.foldlRecOn lines lineStart h fun _ hm l hmem => lineStart_wf hm (hl l hmem)

@[simp] theorem programAgenda_append (p q : List HostLine) :
    programAgenda (p ++ q) = programAgenda p ++ programAgenda q := by
  simp [programAgenda]

end Sys2Proof.Machine
end

