-- ==== Sys2Proof/Laws/Rle.lean ====
section
/-! SUPPORT. The RLE codec: the scan emits the runs, and the expansion undoes it. -/

namespace Sys2Proof.Machine

/-- The records of a list of runs. -/
def rleRecords (runs : List (Nat × Byte)) : List Byte := runs.flatMap fun r => rleRecord r.1 r.2

/-- A scan inside a run of `runC + m` bytes emits the records of that run and of the runs after it. -/
theorem rleScan_eq_records (v : Byte) (m : Nat) (rest : List (Nat × Byte)) :
    ∀ runC, 1 ≤ runC → runC + m ≤ 255 → (∀ r ∈ rest, 1 ≤ r.1 ∧ r.1 ≤ 255) →
    ((runC + m, v) :: rest).IsChain (fun r q => r.2 = q.2 → r.1 = 255) →
    rleScan v runC (List.replicate m v ++ rest.flatMap fun r => List.replicate r.1 r.2)
      = rleRecords ((runC + m, v) :: rest) := by
  induction rest generalizing v m with
  | nil =>
    intro runC h1 h2 _ _
    induction m generalizing runC with
    | zero => simp [rleScan, rleRecords]
    | succ m ih =>
      have := ih (runC + 1) (by omega) (by omega) (by simp)
      rw [show runC + 1 + m = runC + (m + 1) from by omega] at this
      simp only [List.replicate_succ, List.cons_append]
      rw [rleScan, if_pos ⟨rfl, show runC < 255 by omega⟩, this]
  | cons q rest ihr =>
    obtain ⟨c, u⟩ := q
    intro runC h1 h2 hb hc
    induction m generalizing runC with
    | zero =>
      obtain ⟨hb1, hb2⟩ := hb (c, u) (by simp)
      simp only at hb1 hb2
      obtain ⟨c', rfl⟩ : ∃ c', c = 1 + c' := ⟨c - 1, by omega⟩
      have hc' := (List.isChain_cons_cons.1 hc)
      have hstop : ¬ (u = v ∧ runC < Config.maxRun) := by
        rintro ⟨rfl, hlt⟩
        have := hc'.1 rfl
        simp only at this
        simp only [Config.maxRun] at hlt
        omega
      have := ihr u c' 1 (by omega) (by omega) (fun r hr => hb r (by simp [hr])) hc'.2
      rw [show 1 + c' = c' + 1 from by omega] at *
      simp only [List.replicate_zero, List.nil_append, List.flatMap_cons, List.replicate_succ,
        List.cons_append, rleScan]
      rw [if_neg hstop, this]
      simp [rleRecords]
    | succ m ih =>
      have := ih (runC + 1) (by omega) (by omega)
        (by rw [show runC + 1 + m = runC + (m + 1) from by omega]; exact hc)
      rw [show runC + 1 + m = runC + (m + 1) from by omega] at this
      simp only [List.replicate_succ, List.cons_append]
      rw [rleScan, if_pos ⟨rfl, show runC < 255 by omega⟩, this]

/-- RLE.C emits the records of the maximal runs (43_rle.md R280, R281). -/
theorem rleCompress_of_runs {src : List Byte} {runs : List (Nat × Byte)} (h : RleRuns src runs) :
    rleCompress src = .finished (rleRecords runs) := by
  obtain ⟨rfl, hb, hc⟩ := h
  match runs with
  | [] => simp [rleCompress, rleRecords]
  | (c, v) :: rest =>
    obtain ⟨h1, h2⟩ := hb (c, v) (by simp)
    simp only at h1 h2
    obtain ⟨c', rfl⟩ : ∃ c', c = 1 + c' := ⟨c - 1, by omega⟩
    have := rleScan_eq_records v c' rest 1 (by omega) h2 (fun r hr => hb r (by simp [hr])) hc
    rw [show 1 + c' = c' + 1 from by omega] at *
    simp only [List.flatMap_cons, List.replicate_succ, List.cons_append, rleCompress]
    rw [this]

/-- Expanding what a scan emits gives the run in progress and the input after it. -/
theorem rleExpand_scan (v : Byte) (src : List Byte) :
    ∀ runC, 1 ≤ runC → runC ≤ 255 → rleExpand (rleScan v runC src) = List.replicate runC v ++ src := by
  induction src generalizing v with
  | nil =>
    intro c h1 h2
    simp [rleScan, rleRecord, rleExpand, Nat.mod_eq_of_lt (show c < 256 by omega)]
  | cons b src ih =>
    intro c h1 h2
    rw [rleScan]
    split
    · next h =>
      obtain ⟨rfl, hlt⟩ := h
      simp only [Config.maxRun] at hlt
      rw [ih b (c + 1) (by omega) (by omega), List.replicate_succ', List.append_assoc]
      rfl
    · rw [rleRecord, List.cons_append, List.cons_append, List.nil_append, rleExpand,
        ih b 1 (by omega) (by omega)]
      simp [Nat.mod_eq_of_lt (show c < 256 by omega)]

/-- The scan emits whole records. -/
theorem rleScan_length_even (v : Byte) (src : List Byte) (c : Nat) :
    (rleScan v c src).length % 2 = 0 := by
  induction src generalizing v c with
  | nil => simp [rleScan, rleRecord]
  | cons b src ih =>
    rw [rleScan]
    split
    · exact ih _ _
    · simp [rleRecord, Nat.add_mod, ih]

/-- RLE.D undoes RLE.C on the bytes (43_rle.md R295). -/
theorem rleDecompress_compress (src : List Byte) :
    rleDecompress (rleCompress src).bytes = .finished src := by
  cases src with
  | nil => rfl
  | cons b src =>
    have he := rleExpand_scan b src 1 (by omega) (by omega)
    have hl := rleScan_length_even b src 1
    simp [rleCompress, rleDecompress, Emission.finished, hl, he]

/-- The expansion of a list of records (43_rle.md R292). -/
theorem rleExpand_records (recs : List (Byte × Byte)) :
    rleExpand (recs.flatMap fun r => [r.1, r.2])
      = recs.flatMap fun r => List.replicate r.1.toNat r.2 := by
  induction recs with
  | nil => rfl
  | cons r recs ih => simp [rleExpand, ih]

end Sys2Proof.Machine
end

