-- ==== Sys2Proof/Laws/Step.lean ====
section
/-! SUPPORT. What the core's move does, whatever operation is in flight and whatever its rule: said
once, for the invariant and the frame statements (40_dispatch.md R160; 60_exceptions.md R322). -/

namespace Sys2Proof.Machine

/-- What every completion leaves (R159, R310): idle, with the frame kept, and consistent results. -/
structure Completes (s t : State) : Prop where
  frame  : SameFrame s t
  idle   : Idle t
  coded  : t.err = true ↔ t.errCode ≠ .none
  length : t.err = true → t.outLen = 0

theorem finish_completes (s : State) : Completes s (finish s) :=
  ⟨by constructor <;> rfl, by constructor <;> rfl, by simp [finish], by simp [finish]⟩

theorem errorCompletion_completes {e : ErrCode} (he : e ≠ .none) (s : State) :
    Completes s (errorCompletion e s) :=
  ⟨by constructor <;> rfl, by constructor <;> rfl, by simp [errorCompletion, he],
    by simp [errorCompletion]⟩

theorem SameFrame.trans {s t u : State} (g : SameFrame t u) (f : SameFrame s t) : SameFrame s u :=
  ⟨g.1.trans f.1, g.2.trans f.2, g.3.trans f.3, g.4.trans f.4, g.5.trans f.5, g.6.trans f.6,
    g.7.trans f.7, g.8.trans f.8, g.9.trans f.9, g.10.trans f.10, g.11.trans f.11, g.12.trans f.12⟩

theorem Completes.of_frame {s s' t : State} (h : Completes s' t) (f : SameFrame s s') :
    Completes s t where
  frame := h.frame.trans f
  idle := h.idle
  coded := h.coded
  length := h.length

theorem spoilDestination_frame (s : State) : SameFrame s (spoilDestination s) := by
  constructor <;> rfl

theorem emittedState_frame (bs : List Byte) (s : State) : SameFrame s (emittedState bs s) := by
  constructor <;> rfl

theorem raise_completes {e : ErrCode} (he : e ≠ .none) (s : State) : Completes s (raise e s) := by
  unfold raise
  split
  · exact errorCompletion_completes he s
  · exact (errorCompletion_completes he _).of_frame (spoilDestination_frame s)

theorem abort_completes (s : State) : Completes s (abort s) := by
  exact (errorCompletion_completes (by simp) _).of_frame (spoilDestination_frame s)

theorem emit_frame {b : Byte} {s t : State} (h : emit b s = some t) : SameFrame s t := by
  unfold emit at h
  split at h
  · simp at h
  · simp only [Option.some.injEq] at h
    subst h
    constructor <;> rfl

theorem emitAll_frame (bs : List Byte) : ∀ s : State, SameFrame s (emitAll bs s).1 := by
  induction bs with
  | nil => intro s; constructor <;> rfl
  | cons b bs ih =>
    intro s
    rw [emitAll]
    cases h : emit b s with
    | none => constructor <;> rfl
    | some t => exact (ih t).trans (emit_frame h)

/-- An emission of a rule never states the error code NONE. -/
def Emission.legal (em : Emission) : Prop := em.error ≠ some .none

/-- The core's move always completes (R160). -/
theorem operate_completes {rule : State → Emission} {s : State} (hl : (rule s).legal) :
    Completes s (operate rule s) := by
  have hf := emitAll_frame (rule s).bytes s
  unfold operate
  split
  · exact abort_completes s
  · split
    · exact raise_completes (by simp) s
    · simp only
      split
      · rename_i h; rw [h] at hf
        exact (raise_completes (by simp) _).of_frame hf
      · rename_i h; rw [h] at hf
        split
        · rename_i e he
          exact (raise_completes (fun e' => hl (by rw [he, e'])) _).of_frame hf
        · exact (finish_completes _).of_frame hf

/-- The core's move writes only inside the destination region (20_memory.md R91). -/
theorem operate_keepsOutside (rule : State → Emission) {s : State}
    (ho : s.hidden.outLen = 0) :
    KeepsOutside s (operate rule s) s.dstAddr.toNat s.dstCap.toNat := by
  have hem : ∀ bs : List Byte, KeepsOutside s (emittedState (bs.take s.room) s) s.dstAddr.toNat
      s.dstCap.toNat := by
    intro bs a ha
    refine read_writeList_outside _ _ _ ?_
    have : (bs.take s.room).length ≤ s.room := by simp
    have hz : s.hidden.outLen.toNat = 0 := by simp [ho]
    unfold State.room at *
    omega
  have hraise : ∀ (e : ErrCode) (t : State), SameFrame s t →
      KeepsOutside s t s.dstAddr.toNat s.dstCap.toNat →
      KeepsOutside s (raise e t) s.dstAddr.toNat s.dstCap.toNat := by
    intro e t f h a ha
    unfold raise
    split
    · exact h a ha
    · refine (spoilDestination_keepsOutside t a ?_).trans (h a ha)
      rw [f.dstAddr, f.dstCap]; exact ha
  unfold operate
  split
  · exact spoilDestination_keepsOutside s
  · split
    · exact hraise _ _ (by constructor <;> rfl) fun _ _ => rfl
    · simp only [emitAll_eq _ (show s.hidden.outLen.toNat ≤ s.dstCap.toNat by simp [ho])]
      split
      · rename_i h; obtain ⟨rfl, -⟩ := Prod.mk.inj h
        exact hraise _ _ (emittedState_frame _ s) (hem _)
      · rename_i h; obtain ⟨rfl, -⟩ := Prod.mk.inj h
        split
        · exact hraise _ _ (emittedState_frame _ s) (hem _)
        · exact hem _

/-- The core's move keeps the canonical form of the data space. -/
theorem operate_wf (rule : State → Emission) {s : State} (hw : Memory.wf s.mem)
    (ho : s.hidden.outLen = 0) : Memory.wf (operate rule s).mem := by
  unfold operate
  split
  · exact spoilDestination_wf hw
  · split
    · simpa [raise, ho] using hw
    · rename_i hr
      have hd := rangeOk_dst (s := s) (by simpa using hr)
      have hem : ∀ bs : List Byte, Memory.wf (emittedState (bs.take s.room) s).mem := by
        intro bs
        refine writeList_wf hw ?_
        have : (bs.take s.room).length ≤ s.room := by simp
        have hz : s.hidden.outLen.toNat = 0 := by simp [ho]
        unfold State.room at *
        omega
      have hraise : ∀ (e : ErrCode) (bs : List Byte),
          Memory.wf (raise e (emittedState (bs.take s.room) s)).mem := by
        intro e bs
        unfold raise
        split
        · exact hem bs
        · exact spoilDestination_wf (hem bs)
      simp only [emitAll_eq _ (show s.hidden.outLen.toNat ≤ s.dstCap.toNat by simp [ho])]
      split
      · rename_i h; obtain ⟨rfl, -⟩ := Prod.mk.inj h
        exact hraise _ _
      · rename_i h; obtain ⟨rfl, -⟩ := Prod.mk.inj h
        split
        · exact hraise _ _
        · exact hem _

/-! ### The rules of the six commands -/

theorem lzRecords_legal : ∀ (newest src : List Byte), (lzRecords newest src).legal := by
  intro newest src
  fun_induction lzRecords newest src <;> simp_all [Emission.legal, Emission.finished]

theorem walkBits_legal (nodes : List Node) (root : Nat) (bits : List Bool) :
    ∀ cur, (walkBits nodes root cur bits).legal := by
  induction bits with
  | nil =>
    intro cur
    rw [walkBits]
    split <;> simp [Emission.legal, Emission.finished, Emission.raised]
  | cons b bits ih =>
    intro cur
    rw [walkBits]
    split
    · simp [Emission.legal, Emission.raised]
    · split
      · exact ih root
      · exact ih _

/-- No rule states the error code NONE (R300). -/
theorem ruleOf_legal (i : Instr) (s : State) : (ruleOf i s).legal := by
  cases i <;> simp only [ruleOf]
  · unfold huffCompress
    simp only
    repeat' split
    all_goals simp [Emission.legal, Emission.finished, Emission.raised]
  · unfold huffDecompress huffPayload
    simp only
    repeat' split
    all_goals first
      | exact walkBits_legal _ _ _ _
      | simp [Emission.legal, Emission.finished, Emission.raised]
  · simp [Emission.legal, lzCompress, Emission.finished]
  · unfold lzDecompress
    split
    · simp [Emission.legal, Emission.raised]
    · exact lzRecords_legal _ _
  · cases s.source <;> simp [rleCompress, Emission.legal, Emission.finished]
  · unfold rleDecompress
    split <;> simp [Emission.legal, Emission.finished, Emission.raised]

theorem huffCompress_congr (cap : Nat) (src : List Byte) (h h' : Hidden) :
    huffCompress cap src h = huffCompress cap src h' := by
  have hl : leavesOf (countFreq src h) = leavesOf (countFreq src h') := by
    refine leavesOf_congr (table_ext fun v => ?_) (table_ext fun v => ?_)
    · rw [countFreq_freq, countFreq_freq]
    · rw [Bool.eq_iff_iff, countFreq_present, countFreq_present]
  have hc : (deriveCodes (buildTree (countFreq src h))).code
      = (deriveCodes (buildTree (countFreq src h'))).code := tablesOf_code_congr hl
  have hl' : leavesOf (deriveCodes (buildTree (countFreq src h)))
      = leavesOf (deriveCodes (buildTree (countFreq src h'))) := hl
  unfold huffCompress
  simp only [bitLengthOf, huffHeader, bitStream, hl', hc]
  rfl

theorem readEntries_congr (src : List Byte) (left : Nat) : ∀ (e : Nat) (h h' : Hidden),
    h.freq = h'.freq → h.present = h'.present →
      (readEntries src left e h).map leavesOf = (readEntries src left e h').map leavesOf := by
  induction left with
  | zero => intro e h h' hf hp; simp [readEntries, leavesOf_congr hf hp]
  | succ left ih =>
    intro e h h' hf hp
    simp only [readEntries, hp]
    split
    · rfl
    · exact ih _ _ _ (by simp [enterFreq, hf]) (by simp [enterFreq, hp])

theorem huffPayload_congr (src : List Byte) (k n p0 : Nat) {g g' : Hidden}
    (h : leavesOf g = leavesOf g') : huffPayload src k n p0 g = huffPayload src k n p0 g' := by
  have e : (decoderRoot (buildTree g)).nodes = (decoderRoot (buildTree g')).nodes ∧
      (decoderRoot (buildTree g)).root = (decoderRoot (buildTree g')).root := by
    simp only [decoderRoot, buildTree_nodes, buildTree_root, h]
    split <;> simp [h]
  simp only [huffPayload, e.1, e.2]

theorem huffDecompress_congr (src : List Byte) (h h' : Hidden) :
    huffDecompress src h = huffDecompress src h' := by
  have hr := readEntries_congr src (be16At src 0).toNat 0 (clearFreq h) (clearFreq h') rfl rfl
  unfold huffDecompress
  cases h1 : readEntries src (be16At src 0).toNat 0 (clearFreq h) <;>
    cases h2 : readEntries src (be16At src 0).toNat 0 (clearFreq h') <;>
    simp only [h1, h2, Option.map_some, Option.map_none, reduceCtorEq, Option.some.injEq] at hr ⊢
  simp only [huffPayload_congr _ _ _ _ hr]

/-- What a command emits depends on the input, the capacity and the build alone: no hidden state is
read (10_state.md R68). -/
theorem ruleOf_congr (i : Instr) {s t : State} (hs : s.source = t.source) (hc : s.dstCap = t.dstCap)
    (hb : s.build = t.build) : ruleOf i s = ruleOf i t := by
  cases i <;> simp only [ruleOf, hs, hc, hb]
  · exact huffCompress_congr _ _ _ _
  · exact huffDecompress_congr _ _ _

/-! ### The core's move from a state that keeps the invariant -/

theorem State.Inv.released {s : State} (h : s.Inv) (hb : s.busy = true) : s.rstN = true := by
  by_contra hr
  have := (h.inReset (by simpa using hr)).2.1
  simp [hb] at this

/-- The core's move keeps the frame, busy or not. -/
theorem fairMove_frame (s : State) : SameFrame s (fairMove s) := by
  unfold fairMove
  split
  · rw [coreMove_eq]
    cases s.curOp with
    | none => constructor <;> rfl
    | some i => exact (operate_completes (ruleOf_legal i s)).frame
  · constructor <;> rfl

theorem fairMove_completes {s : State} (h : s.Inv) (hb : s.busy = true) :
    Completes s (fairMove s) := by
  have := h.opBusy.1 hb
  rw [fairMove, if_pos hb, coreMove_eq]
  cases hop : s.curOp with
  | none => exact absurd hop this
  | some i => exact operate_completes (ruleOf_legal i s)

theorem fairMove_idle {s : State} (hb : s.busy = false) : fairMove s = s := by
  simp [fairMove, hb]

end Sys2Proof.Machine
end

