-- ==== Sys2Proof/Tests/Slice0.lean ====
section
/-! SUPPORT. The model's own tests, and for every obligation with hypotheses a witness that meets
them. Expected bytes are those of the vectors of 95_test_vectors.md, by their numbers there. -/

namespace Sys2Proof.Tests

open Sys2Proof.Machine

/-! ### Words -/

theorem test_decode_hufC : decode 0b00000000000000000000000000000001#32 = .ok .hufC := by decide
theorem test_decode_hufD : decode 0b00000000000000000000000000000101#32 = .ok .hufD := by decide
theorem test_decode_lzC : decode 0b00000000000000000000000000000010#32 = .ok .lzC := by decide
theorem test_decode_lzD : decode 0b00000000000000000000000000000110#32 = .ok .lzD := by decide
theorem test_decode_rleC : decode 0b00000000000000000000000000000011#32 = .ok .rleC := by decide
theorem test_decode_rleD : decode 0b00000000000000000000000000000111#32 = .ok .rleD := by decide
/-- V4, V5. -/
theorem test_decode_noAlgorithm : decode 0 = .error .noAlgorithm ∧ decode 4 = .error .noAlgorithm := by
  decide
/-- V6. -/
theorem test_decode_reserved : decode 8 = .error .reservedBits ∧
    decode 0x0000000B = .error .reservedBits ∧ decode 0x80000003 = .error .reservedBits := by decide

/-! ### WellFormed refuses -/

theorem test_wf_algorithm : (CmdFields.mk 0 1 0).wf = false := by decide
theorem test_wf_reserved : (CmdFields.mk 3 0 1).wf = false := by decide
theorem test_wf_commands : ∀ i : Instr, i.wf = true := by intro i; cases i <;> decide
theorem test_wf_window : (Config.Build.mk 0 16).wf = false := by decide
theorem test_wf_lookahead : (Config.Build.mk 4096 0).wf = false := by decide
theorem test_wf_field : (FieldRef.mk .status 0 1).wf = false ∧ (FieldRef.mk .status 32 1).wf = false := by
  decide
theorem test_wf_poll : (HostLine.poll ⟨.status, 0, 1⟩ 1).wf = false ∧ (HostLine.poll .done 2).wf = true := by
  decide
theorem test_wf_mem : (HostLine.mem 0xFFFFFFFF [1, 2]).wf = false ∧
    (HostLine.mem 0xFFFFFFFF [1]).wf = true := by decide

/-! ### One step on small states -/

/-- The cells of some bytes from `base` on. -/
def cells (base : Nat) : List Byte → Memory
  | [] => []
  | b :: bs => Memory.cell base b (cells (base + 1) bs)

/-- After reset, with `src` at 0x1000 and a destination of `cap` bytes at 0x2000. -/
def start (src : List Byte) (cap : Nat) : State :=
  { State.reset with
    srcAddr := 0x1000, srcLen := BitVec.ofNat 32 src.length
    dstAddr := 0x2000, dstCap := BitVec.ofNat 32 cap, mem := cells 0x1000 src }

/-- The error code and the output bytes of a step. -/
def result : Host.Outcome State Fault Refusal → Option (ErrCode × List Byte)
  | .next t => some (t.errCode, Memory.readList t.mem t.dstAddr.toNat t.outLen.toNat)
  | _ => none

/-- A step that runs the command word `w`. -/
def runWord (w : Nat) (src : List Byte) (cap : Nat) : Option (ErrCode × List Byte) :=
  result (step ((start src cap).withFetchWord 32 w))

/-- R1v. -/
theorem test_rleC : runWord 3 [0x41, 0x41, 0x41, 0x41, 0x41, 0x42, 0x42, 0x42, 0x43, 0x43] 6
    = some (.none, [5, 0x41, 3, 0x42, 2, 0x43]) := by decide
/-- R9v. -/
theorem test_rleC_overflow : runWord 3 [1, 1, 2] 2 = some (.outputOverflow, []) := by decide
/-- R11v. -/
theorem test_rleD : runWord 7 [0, 5, 2, 6] 2 = some (.none, [6, 6]) := by decide
/-- R12v. -/
theorem test_rleD_truncated : runWord 7 [3] 9 = some (.truncatedRecord, []) := by decide
/-- Z5: a match of exactly three bytes, then its literal. -/
theorem test_lzC : runWord 2 [0x61, 0x62, 0x63, 0x61, 0x62, 0x63, 0x64] 16
    = some (.none, [0, 0, 0, 0x61, 0, 0, 0, 0x62, 0, 0, 0, 0x63, 0, 3, 3, 0x64]) := by decide
/-- Z1: a match longer than its distance. -/
theorem test_lzC_overlap : runWord 2 (List.replicate 8 0x61) 8
    = some (.none, [0, 0, 0, 0x61, 0, 1, 6, 0x61]) := by decide
/-- Z26. -/
theorem test_lzD : runWord 6 [0, 0, 0, 0x41, 0, 0, 0, 0x42, 0, 2, 5, 0x43] 8
    = some (.none, [0x41, 0x42, 0x41, 0x42, 0x41, 0x42, 0x41, 0x43]) := by decide
/-- Z24. -/
theorem test_lzD_distance : runWord 6 [0, 0, 0, 0x41, 0, 0, 1, 0x42] 9
    = some (.invalidBackReference, []) := by decide
/-- H9. -/
theorem test_hufC : runWord 1 [0x61, 0x62, 0x63, 0x63] 22
    = some (.none, [0, 3, 0x61, 0, 0, 0, 1, 0x62, 0, 0, 0, 1, 0x63, 0, 0, 0, 2, 0, 0, 0, 6, 0xB0]) := by
  decide +kernel
/-- H25. -/
theorem test_hufD : runWord 5
    [0, 3, 0x61, 0, 0, 0, 1, 0x62, 0, 0, 0, 1, 0x63, 0, 0, 0, 2, 0, 0, 0, 5, 0xB0] 4
    = some (.none, [0x61, 0x62, 0x63]) := by decide +kernel

/-- The leaves of H5, "abracadabra". -/
def leavesH5 : List (Byte × Word) := [(0x61, 5), (0x62, 2), (0x63, 1), (0x64, 1), (0x72, 2)]

/-- The merges of H5, as the spec's derivation lists them. -/
theorem test_tree : (treeOf leavesH5).1.drop 5 =
      [.internal (some 2) (some 3) 2, .internal (some 1) (some 4) 4, .internal (some 5) (some 6) 6,
        .internal (some 0) (some 7) 11] ∧
    (treeOf leavesH5).2 = 8 := by decide
/-- The codes of H5: 61 is 0, 63 is 100, 64 is 101, 62 is 110, 72 is 111. -/
theorem test_codes : follow (treeOf leavesH5).1 8 [false] = some 0 ∧
    follow (treeOf leavesH5).1 8 [true, false, false] = some 2 ∧
    follow (treeOf leavesH5).1 8 [true, false, true] = some 3 ∧
    follow (treeOf leavesH5).1 8 [true, true, false] = some 1 ∧
    follow (treeOf leavesH5).1 8 [true, true, true] = some 4 := by decide
/-- The packed bits of H5 end in DC: 1101110 and a padding 0. -/
theorem test_packBits : packBits 0 0 [true, true, false, true, true, true, false] = [0xDC] := by decide
/-- V4. -/
theorem test_illegal : (match step ((start [] 0).withFetchWord 32 4) with
    | .next t => (t.statusWord, t.errCodeWord, t.outLen, t.busy)
    | _ => (0, 0, 0, true)) = (6, 5, 0, false) := by decide
/-- V13 passes the range check, V14 does not. -/
theorem test_range :
    ({ start [] 0x100 with srcAddr := 0xFFFFFFF0, srcLen := 0x10 } : State).rangeOk = true ∧
    ({ start [] 0x100 with srcAddr := 0xFFFFFFF0, srcLen := 0x11 } : State).rangeOk = false := by decide
/-- A destination region that ends past 2^32 has one byte in the data space. -/
theorem test_dstBytes : ({ start [] 2 with dstAddr := 0xFFFFFFFF } : State).dstBytes = 1 ∧
    (start [] 2).dstBytes = 2 := by decide
theorem test_unwritten_byte : Memory.read State.reset.mem 0x1234 = 0 := rfl

/-! ### Witnesses: states and operands that meet the hypotheses of the obligations -/

/-- A state that can run has a next state for every command. -/
theorem runs {s : State} (h : s.ready) (hp : s.premiseBroken = false) (i : Instr) :
    ∃ t, exec i s = .next t :=
  ⟨_, by rw [exec_eq_submit, submit_ready h hp]⟩

theorem succeeds {s : State} (h : s.canRun) (i : Instr)
    (he : (ruleOf i (accept i s)).error = none)
    (hl : (ruleOf i (accept i s)).bytes.length ≤ s.dstCap.toNat) :
    ∃ t, exec i s = .next t ∧ Succeeds s t (ruleOf i (accept i s)).bytes := by
  rw [exec_eq_submit]; exact submit_succeeds h he hl

theorem fails {s : State} (h : s.canRun) (i : Instr) {e : ErrCode}
    (he : (ruleOf i (accept i s)).error = some e)
    (hl : (ruleOf i (accept i s)).bytes.length ≤ s.dstCap.toNat) :
    ∃ t, exec i s = .next t ∧ Fails s t e := by
  rw [exec_eq_submit]
  obtain ⟨t, h1, h2, -⟩ := submit_fails h.1 h.2.1 he hl
  exact ⟨t, h1, h2⟩

/-- Three input bytes, a four-byte destination. -/
def small : State := start [1, 1, 2] 4

/-- The same with RLE.C in flight and the core held. -/
def inFlight : State := { accept .rleC small with coreHeld := true }

theorem small_canRun : small.canRun := by decide

theorem small_rleC : ∃ t, exec .rleC small = .next t ∧ Succeeds small t [2, 1, 1, 2] :=
  succeeds small_canRun .rleC (by decide) (by decide)

theorem inFlight_inv : inFlight.Inv := by constructor <;> decide

theorem inFlight_abort_inv : ({ inFlight with abortReq := true } : State).Inv := by
  constructor <;> decide

theorem witness_DecodeIsTheCommandTable : decode 7 = .ok .rleD ∧
    decode 8 = .error .reservedBits ∧ decode 4 = .error .noAlgorithm := by decide

theorem witness_DecodeAndEncodeAgree : Instr.wf .hufC = true ∧ decode 7 = .ok .rleD := by decide

theorem witness_StepRunsTheWrittenCommand :
    let s := small.withFetchWord 32 3
    s.build.wf = true ∧ s.rstN = true ∧ s.coreHeld = false ∧ regAt 0x0C = some .cmd ∧
      s.agenda = [.hostWrite 0x0C 3] ∧ decode 3 = .ok .rleC := by decide

theorem witness_HeldCommandIsAccepted :
    let s : State := { small with coreHeld := true, agenda := [.hostWrite 0x0F 3] }
    s.build.wf = true ∧ s.ready ∧ s.coreHeld = true ∧ s.premiseBroken = false ∧
      regAt 0x0F = some .cmd ∧ decode 3 = .ok .rleC := by decide

theorem witness_IllegalWordIsRejected :
    small.build.wf = true ∧ small.ready ∧ regAt 0x0C = some .cmd ∧
      decode 8 = .error .reservedBits ∧ decode 0 = .error .noAlgorithm := by decide

theorem witness_OperandAndCommandWritesWhileBusyAreIgnored :
    inFlight.build.wf = true ∧ inFlight.busy = true ∧ regAt 0x18 = some .srcAddr ∧
      regAt 0x1C = some .srcLen ∧ regAt 0x20 = some .dstAddr ∧ regAt 0x24 = some .dstCap ∧
      regAt 0x0C = some .cmd := by decide

theorem witness_HostWriteEffects :
    (small.build.wf = true ∧ small.rstN = true ∧ small.busy = false) ∧
    (inFlight.build.wf = true ∧ inFlight.rstN = true ∧ inFlight.busy = true) ∧
    regAt 0x18 = some .srcAddr ∧ regAt 0x1C = some .srcLen ∧ regAt 0x20 = some .dstAddr ∧
    regAt 0x24 = some .dstCap ∧ regAt 0x08 = some .ctrl ∧ regAt 0x10 = some .status ∧
    regAt 0x00 = some .id ∧ regAt 0x04 = some .cfg ∧ regAt 0x14 = some .errCode ∧
    regAt 0x28 = some .outLen ∧ regAt 0x2C = none := by decide

theorem witness_HostReadReturnsTheRegister :
    small.build.wf = true ∧ small.rstN = true ∧ regAt 0x00 = some .id ∧ regAt 0x04 = some .cfg ∧
    regAt 0x08 = some .ctrl ∧ regAt 0x0C = some .cmd ∧ regAt 0x10 = some .status ∧
    regAt 0x14 = some .errCode ∧ regAt 0x18 = some .srcAddr ∧ regAt 0x1C = some .srcLen ∧
    regAt 0x20 = some .dstAddr ∧ regAt 0x24 = some .dstCap ∧ regAt 0x28 = some .outLen ∧
    regAt 0x2B = some .outLen ∧ regAt 0x2C = none ∧ regAt 0x3F = none := by decide

theorem witness_ResetSetsRegistersAndAbandons :
    inFlight.build.wf = true ∧ inFlight.busy = true ∧ small.build.wf = true ∧ small.busy = false ∧
    ({ State.reset with rstN := false } : State).Inv :=
  ⟨by decide, by decide, by decide, by decide, by constructor <;> decide⟩

theorem witness_HostAccessesInResetHaveNoEffect :
    let s : State := { State.reset with rstN := false }
    s.build.wf = true ∧ s.rstN = false := by decide

/-- V14, V15 and V17, one for each clause, each just past its bound. -/
theorem witness_BadRangeIsRaisedFirst :
    let s1 : State := { start [] 0x100 with srcAddr := 0xFFFFFFF0, srcLen := 0x11 }
    let s2 : State := { start [] 2 with srcLen := 0x10, dstAddr := 0xFFFFFFFF }
    let s3 : State := { start [] 0x10 with srcLen := 0x10, dstAddr := 0x100F }
    (s1.ready ∧ s1.srcAddr.toNat + s1.srcLen.toNat = 2 ^ 32 + 1) ∧
    (s2.ready ∧ s2.dstAddr.toNat + s2.dstCap.toNat = 2 ^ 32 + 1) ∧
    (s3.ready ∧ 0 < s3.srcLen.toNat ∧ 0 < s3.dstCap.toNat ∧
      s3.srcAddr.toNat < s3.dstAddr.toNat + s3.dstCap.toNat ∧
      s3.dstAddr.toNat + 1 = s3.srcAddr.toNat + s3.srcLen.toNat) := by decide

/-- The second clause of BadRangeIsRaisedFirst: V13 (up to 2^32), V16 (adjacent), V18 and V19 (an empty
region inside the other) meet none of the three conditions. -/
theorem witness_BadRangeIsRaisedFirst_passes (S n D c : Word)
    (h : (S = 0xFFFFFFF0 ∧ n = 0x10 ∧ D = 0x1000 ∧ c = 0x100) ∨
      (S = 0x1000 ∧ n = 0x10 ∧ D = 0x1010 ∧ c = 0x10) ∨
      (S = 0x1000 ∧ n = 0 ∧ D = 0x1000 ∧ c = 0x10) ∨ (S = 0x1000 ∧ n = 0x10 ∧ D = 0x1008 ∧ c = 0)) :
    let s : State := { State.reset with srcAddr := S, srcLen := n, dstAddr := D, dstCap := c }
    s.ready ∧ s.ordinary = true ∧
    ¬ (2 ^ 32 < s.srcAddr.toNat + s.srcLen.toNat ∨ 2 ^ 32 < s.dstAddr.toNat + s.dstCap.toNat ∨
      (0 < s.srcLen.toNat ∧ 0 < s.dstCap.toNat ∧
        s.srcAddr.toNat < s.dstAddr.toNat + s.dstCap.toNat ∧
        s.dstAddr.toNat < s.srcAddr.toNat + s.srcLen.toNat)) := by
  obtain ⟨rfl, rfl, rfl, rfl⟩ | ⟨rfl, rfl, rfl, rfl⟩ | ⟨rfl, rfl, rfl, rfl⟩ | ⟨rfl, rfl, rfl, rfl⟩ := h <;>
    exact ⟨by decide, by decide, by decide⟩

theorem witness_EveryTakenCommandCompletes : small.ready ∧ small.premiseBroken = false := by decide

theorem witness_OperationFootprint :
    small.ready ∧ small.rangeOk = true ∧ ∃ t, exec .rleC small = .next t ∧ t.err = false := by
  obtain ⟨t, h1, h2⟩ := small_rleC
  exact ⟨by decide, by decide, t, h1, h2.err⟩

theorem witness_ErrorCodesOfEachCommand (i : Instr) :
    small.ready ∧ ∃ t, exec i small = .next t :=
  ⟨by decide, runs (by decide) (by decide) i⟩

theorem witness_CapacityIsTheOnlyOutputLimit : ∃ t,
    small.canRun ∧ exec .rleC small = .next t ∧ Succeeds small t [2, 1, 1, 2] ∧
      [2, 1, 1, 2].length = (4 : Word).toNat ∧ State.regionsOk { small with dstCap := 4 } ∧
      [2, 1, 1, 2].length ≤ (5 : Word).toNat ∧ State.regionsOk { small with dstCap := 5 } ∧
      (3 : Word).toNat < [2, 1, 1, 2].length := by
  obtain ⟨t, h1, h2⟩ := small_rleC
  exact ⟨t, small_canRun, h1, h2, by decide, by decide, by decide, by decide, by decide⟩

theorem witness_ResultDependsOnSourceCapacityAndBuild :
    let s' : State := { small with srcAddr := 0x3000, mem := cells 0x3000 [1, 1, 2], irqEn := true }
    small.canRun ∧ s'.canRun ∧ small.source = s'.source ∧ small.dstCap = s'.dstCap ∧
      small.build = s'.build ∧ small ≠ s' ∧ (∃ t, exec .lzC small = .next t) ∧
      ∃ t', exec .lzC s' = .next t' :=
  ⟨by decide, by decide, by decide, by decide, by decide, by decide, runs (by decide) (by decide) _,
    runs (by decide) (by decide) _⟩

theorem witness_HiddenStateIsNeverObserved :
    small.ready ∧ { small.hidden with acc := 1 } ≠ small.hidden :=
  ⟨by decide, fun h => absurd (congrArg Hidden.acc h) (by decide)⟩

theorem witness_EmptyInputSucceedsWithNoOutput :
    (start [] 0).ready ∧ (start [] 0).regionsOk ∧ (start [] 0).srcLen = 0 := by decide

theorem witness_AbortHasTwoOutcomes :
    ({ inFlight with abortReq := true } : State).Inv ∧
      ({ inFlight with abortReq := true } : State).curOp = some .rleC :=
  ⟨inFlight_abort_inv, rfl⟩

theorem witness_AcceptedThenCompletedIsOneStep : small.ready ∧ small.premiseBroken = false := by
  decide

theorem witness_StepKeepsTheInvariant : inFlight.Inv ∧ ∃ t, step inFlight = .next t :=
  ⟨inFlight_inv, coreMove inFlight, by simp [step, fairMove, inFlight, small, start, Config.Build.wf,
    State.reset, Config.defaultBuild]⟩

theorem witness_StepKeepsTheBuild : ∃ t, step inFlight = .next t := witness_StepKeepsTheInvariant.2

/-- The addresses just outside the destination region. -/
theorem witness_BlockWritesOnlyItsDestination : inFlight.Inv ∧ (∃ t, step inFlight = .next t) ∧
    inFlight.agenda = [] ∧ 0x1FFF < inFlight.dstAddr.toNat ∧
    inFlight.dstAddr.toNat + inFlight.dstCap.toNat = 0x2004 :=
  ⟨inFlight_inv, witness_StepKeepsTheInvariant.2, by decide, by decide, by decide⟩

/-- One host write that changes each of the five registers. -/
theorem witness_OnlyHostWritesChangeOperands (v : Word) :
    (step { State.reset with agenda := [.hostWrite 0x18 v] } = .next { State.reset with srcAddr := v }) ∧
    (step { State.reset with agenda := [.hostWrite 0x1C v] } = .next { State.reset with srcLen := v }) ∧
    (step { State.reset with agenda := [.hostWrite 0x20 v] } = .next { State.reset with dstAddr := v }) ∧
    (step { State.reset with agenda := [.hostWrite 0x24 v] } = .next { State.reset with dstCap := v }) ∧
    (step { State.reset with agenda := [.hostWrite 0x08 1] } = .next { State.reset with irqEn := true }) :=
  ⟨rfl, rfl, rfl, rfl, rfl⟩

theorem witness_BusyCoreEventuallyCompletes : inFlight.Inv ∧ inFlight.busy = true ∧
    (∀ off hi lo v, Action.poll off hi lo v ∉ inFlight.agenda) ∧
    Sys2Proof.core.run (inFlight.agenda.length + 1) inFlight = .next (coreMove inFlight) ∧
    ({ inFlight with agenda := programAgenda (expand .wait) } : State).Inv ∧
    inFlight.build.wf = true ∧
    (∃ t, step { small with agenda := [.hostRead 0] } = .next t ∧ t.regRdata.toNat / 2 ^ 0 % 2 ^ 8 = 0x52 ∧
      t.regRdata.toNat / 2 ^ 0 % 2 ^ 8 ≠ 0x152 ∧ small.busy = false) :=
  ⟨inFlight_inv, rfl, fun _ _ _ _ => by simp [inFlight, small, start, State.reset], rfl,
    by constructor <;> decide, rfl, _, rfl, by decide, by decide, by decide⟩

/-- The first and the last byte of each region. -/
theorem witness_HazardsWhileBusy : inFlight.build.wf = true ∧ inFlight.busy = true ∧
    inFlight.srcAddr.toNat = 0x1000 ∧ 0x1002 < inFlight.srcAddr.toNat + inFlight.srcLen.toNat ∧
    inFlight.dstAddr.toNat = 0x2000 ∧ 0x2003 < inFlight.dstAddr.toNat + inFlight.dstCap.toNat ∧
    inFlight.isDevice 0x2000 = false ∧ inFlight.isDevice 0x2003 = false := by decide

/-- Idle; and while BUSY the source's first byte and the destination's neighbours. -/
theorem witness_DataSpaceIsMemory : (small.build.wf = true ∧ small.busy = false ∧
    Memory.wf small.mem ∧ small.isDevice 0 = false ∧ small.isDevice 0xFFFFFFFF = false) ∧
    (inFlight.build.wf = true ∧ inFlight.busy = true ∧ Memory.wf inFlight.mem ∧
    inFlight.isDevice 0x1000 = false ∧ 0x1000 < inFlight.dstAddr.toNat ∧
    inFlight.isDevice 0x1FFF = false ∧ inFlight.srcAddr.toNat + inFlight.srcLen.toNat ≤ 0x1FFF ∧
    0x1FFF < inFlight.dstAddr.toNat ∧ inFlight.isDevice 0x2004 = false ∧
    inFlight.dstAddr.toNat + inFlight.dstCap.toNat = 0x2004) := by decide

/-- A build with no window, one with no lookahead, and a device window over the last source byte. -/
theorem witness_BrokenPremisesStop :
    (Config.Build.mk 0 16).windowSize = 0 ∧ (Config.Build.mk 4096 0).lookaheadSize = 0 ∧
    let s : State := { small with platform := ⟨[⟨0x1002, 1⟩]⟩ }
    s.ready ∧ s.rangeOk = true ∧ ⟨0x1002, 1⟩ ∈ s.platform.devices ∧
      (regionsMeet ⟨0x1002, 1⟩ s.srcRegion || regionsMeet ⟨0x1002, 1⟩ s.dstRegion) = true := by decide

/-- R4v: a run closed at 255 and one more byte of the same value; R9v in small: a byte too little. -/
theorem witness_RleCompressEmitsTheRuns :
    (let s := start (List.replicate 256 9) 4;
      s.canRun ∧ RleRuns s.source [(255, 9), (1, 9)] ∧
        2 * [(255, 9), (1, (9 : Byte))].length ≤ s.dstCap.toNat) ∧
    (let s := start [1, 1, 2] 3;
      s.canRun ∧ RleRuns s.source [(2, 1), (1, 2)] ∧
        s.dstCap.toNat < 2 * [(2, 1), (1, (2 : Byte))].length) := by
  refine ⟨⟨by decide +kernel, ⟨by decide +kernel, by decide, by simp⟩, by decide⟩,
    ⟨by decide, ⟨by decide, by decide, by simp⟩, by decide⟩⟩

theorem witness_RleCompressSize : small.canRun ∧ ∃ t, exec .rleC small = .next t ∧ t.err = false ∧
    2 * 1 < t.outLen.toNat := by
  obtain ⟨t, h1, h2⟩ := small_rleC
  exact ⟨small_canRun, t, h1, h2.err, by rw [h2.outLen]; decide⟩

/-- R11v, with a destination that fits and with one that is a byte short. -/
theorem witness_RleDecompressExpandsTheRecords :
    (start [0, 5, 2, 6] 2).canRun ∧ (start [0, 5, 2, 6] 1).canRun ∧
    (start [0, 5, 2, 6] 2).source = [((0 : Byte), (5 : Byte)), (2, 6)].flatMap (fun r => [r.1, r.2]) ∧
    ([((0 : Byte), (5 : Byte)), (2, 6)].flatMap fun r => List.replicate r.1.toNat r.2).length = 2 := by
  decide

theorem witness_TruncatedStreamsAreRefusedFirst :
    (start [3] 9).ready ∧ (start [3] 9).regionsOk ∧ (start [3] 9).srcLen.toNat % 2 = 1 ∧
    (start [0, 0, 0] 9).ready ∧ (start [0, 0, 0] 9).regionsOk ∧
    (start [0, 0, 0] 9).srcLen.toNat % 4 ≠ 0 := by decide

/-- A destination of exactly the input's length, beside the stream. -/
theorem witness_RleRoundTrip : ∃ t, small.canRun ∧ exec .rleC small = .next t ∧ t.err = false ∧
    ({ t with srcAddr := small.dstAddr, srcLen := t.outLen, dstAddr := 0x3000, dstCap := 3 } : State).regionsOk ∧
    small.srcLen ≤ 3 := by
  obtain ⟨t, h1, h2⟩ := small_rleC
  have ho : t.outLen = 4 := BitVec.eq_of_toNat_eq h2.outLen
  refine ⟨t, small_canRun, h1, h2.err, ⟨?_, ?_⟩, by decide⟩
  · simp only [State.rangeOk, State.srcRegion, State.dstRegion, ho]; rfl
  · simp only [State.ordinary, h2.frame.platform, ho]; rfl

theorem witness_MatchSearchFindsTheBestMatch :
    let src : List Byte := [0x61, 0x61, 0x61, 0x61, 0x61]
    0 < (findMatch 4096 16 src 1).2 ∧ (findMatch 4096 16 src 0).2 = 0 ∧ 1 < src.length := by decide

/-- Z8, "aaaaa", with a destination of exactly 8 bytes and of one less. -/
theorem witness_LzCompressEmitsTheGreedyStream :
    (start (List.replicate 5 0x61) 8).canRun ∧ (start (List.replicate 5 0x61) 7).canRun ∧
    ∃ out, LzParse 4096 16 (start (List.replicate 5 0x61) 8).source 0 out ∧ out.length = 8 :=
  ⟨by decide, by decide, _, lzParse_scan _ (by decide) 5 0 (by decide), by decide⟩

theorem witness_LzCompressSize : (start [1, 1, 2] 12).canRun ∧
    4 * (start [1, 1, 2] 12).srcLen.toNat ≤ (start [1, 1, 2] 12).dstCap.toNat ∧
    ∃ t, exec .lzC (start [1, 1, 2] 12) = .next t ∧ t.err = false ∧
      0 < (start [1, 1, 2] 12).srcLen.toNat := by
  obtain ⟨t, h1, h2⟩ := succeeds (s := start [1, 1, 2] 12) (by decide) .lzC (by decide) (by decide)
  exact ⟨by decide, by decide, t, h1, h2.err, by decide⟩

/-- Lookahead 2, and an input of exactly 4 bytes. -/
theorem witness_LzShortMatchesAreLiterals :
    let s : State := { start (List.replicate 8 0x61) 32 with build := ⟨4096, 2⟩ }
    let u := start (List.replicate 4 0x61) 16
    (s.canRun ∧ s.build.lookaheadSize.toNat < 3 ∧ 4 * s.srcLen.toNat ≤ s.dstCap.toNat) ∧
    (u.canRun ∧ u.srcLen.toNat ≤ 4 ∧ 4 * u.srcLen.toNat ≤ u.dstCap.toNat) := by decide

/-- Z27: a literal, then a copy at distance 1 of length 1. -/
theorem expands_Z27 : LzExpands [] [0, 0, 0, 0x41, 0, 1, 1, 0x42] [0x41, 0x41, 0x42] :=
  .literal [] 0x41 _ _ (.copy [0x41] 0 1 1 0x42 [] _ [0x41] (by decide) (by decide) rfl (by decide)
    (.nil _))

theorem witness_LzDecompressExpandsTheRecords :
    (start [0, 0, 0, 0x41, 0, 1, 1, 0x42] 3).canRun ∧ (start [0, 0, 0, 0x41, 0, 1, 1, 0x42] 2).canRun ∧
    LzExpands [] (start [0, 0, 0, 0x41, 0, 1, 1, 0x42] 3).source [0x41, 0x41, 0x42] :=
  ⟨by decide, by decide, by
    rw [show (start [0, 0, 0, 0x41, 0, 1, 1, 0x42] 3).source = [0, 0, 0, 0x41, 0, 1, 1, 0x42] by decide]
    exact expands_Z27⟩

/-- Z23 with a byte too little, Z23, Z24 and Z22: a distance one too large, distance 0 with a length,
and nothing emitted yet. -/
theorem witness_LzInvalidBackReference :
    (start [0, 0, 0, 0x41, 0, 2, 1, 0x42] 0).canRun ∧
    (start [0, 0, 0, 0x41, 0, 2, 1, 0x42] 0).dstCap.toNat < [(0x41 : Byte)].length ∧
    (start [0, 0, 0, 0x41, 0, 2, 1, 0x42] 1).canRun ∧
    (start [0, 0, 0, 0x41, 0, 2, 1, 0x42] 1).source = [0, 0, 0, 0x41] ++ 0 :: 2 :: 1 :: 0x42 :: [] ∧
    LzExpands [] [0, 0, 0, 0x41] [0x41] ∧ [(0x41 : Byte)].length < recordDistance 0 2 ∧
    (start [0, 0, 0, 0x41, 0, 0, 1, 0x42] 1).canRun ∧
    (start [0, 0, 0, 0x41, 0, 0, 1, 0x42] 1).source = [0, 0, 0, 0x41] ++ 0 :: 0 :: 1 :: 0x42 :: [] ∧
    recordDistance 0 0 = 0 ∧ (1 : Byte) ≠ 0 ∧
    (start [0, 1, 3, 0x41] 0).canRun ∧
    (start [0, 1, 3, 0x41] 0).source = [] ++ 0 :: 1 :: 3 :: 0x41 :: [] ∧ LzExpands [] [] [] ∧
    ([] : List Byte).length < recordDistance 0 1 :=
  ⟨by decide, by decide, by decide, by decide, .literal [] 0x41 _ _ (.nil _), by decide, by decide, by decide, by decide,
    by decide, by decide, by decide, .nil _, by decide⟩

/-- The same as for RLE, on another build. -/
theorem witness_LzRoundTrip : ∃ t, (start [1, 1, 2] 12).canRun ∧
    exec .lzC (start [1, 1, 2] 12) = .next t ∧ t.err = false ∧
    ({ t with srcAddr := (start [1, 1, 2] 12).dstAddr, srcLen := t.outLen, dstAddr := 0x3000,
              dstCap := 3, build := ⟨1, 1⟩ } : State).regionsOk ∧
    (start [1, 1, 2] 12).srcLen ≤ 3 := by
  obtain ⟨t, h1, h2⟩ := succeeds (s := start [1, 1, 2] 12) (by decide) .lzC (by decide) (by decide)
  have ho : t.outLen = 12 := BitVec.eq_of_toNat_eq (h2.outLen.trans (by decide))
  refine ⟨t, by decide, h1, h2.err, ⟨?_, ?_⟩, by decide⟩
  · simp only [State.rangeOk, State.srcRegion, State.dstRegion, ho]; rfl
  · simp only [State.ordinary, h2.frame.platform, ho]; rfl

/-! ### Huffman: a header with two symbols, and inputs of one, two and three values -/

/-- The header entries of H4 in descending order. -/
def entriesBA : List (Byte × Word) := [(0x62, 1), (0x61, 1)]

theorem leaves_entriesBA (h : Hidden) :
    leavesOf (enterAll entriesBA (clearFreq h)) = [(0x61, 1), (0x62, 1)] := by
  have hn : (entriesBA.map Prod.fst).Nodup := by decide
  refine leavesOf_eq (by decide) fun v f => ?_
  obtain ⟨-, h2, -⟩ := enterAll_spec entriesBA hn (clearFreq h) v
  rw [enterAll_present hn]
  constructor
  · intro hm
    have hm' : (v, f) ∈ entriesBA := by
      simp only [List.mem_cons, List.not_mem_nil, or_false, entriesBA] at hm ⊢; exact hm.symm
    exact ⟨List.mem_map.2 ⟨_, hm', rfl⟩, (h2 f hm').symm⟩
  · rintro ⟨hv, rfl⟩
    obtain ⟨⟨u, g⟩, hm, rfl⟩ := List.mem_map.1 hv
    rw [h2 g hm]
    simp only [List.mem_cons, List.not_mem_nil, or_false, entriesBA] at hm ⊢; exact hm.symm

/-- H4: 61 is "0" and 62 is "1", whatever the order of the entries. -/
theorem codes_entriesBA (h : Hidden) :
    tableAt (tablesOf (enterAll entriesBA (clearFreq h))).code 0x61 = [false] ∧
    tableAt (tablesOf (enterAll entriesBA (clearFreq h))).code 0x62 = [true] := by
  rw [tablesOf_code, leaves_entriesBA]
  decide

/-- The leaves of an input of one value. -/
theorem leaves_single (v : Byte) (h : Hidden) : leavesOf (countFreq [v] h) = [(v, 1)] := by
  refine leavesOf_eq (by simp) fun u f => ?_
  rw [countFreq_present, countFreq_freq]
  simp only [List.mem_singleton, Prod.mk.injEq]
  constructor
  · rintro ⟨rfl, rfl⟩; simp
  · rintro ⟨rfl, rfl⟩; simp

/-- S7: its code is "0". -/
theorem code_of_single (v : Byte) (h : Hidden) :
    tableAt (tablesOf (countFreq [v] h)).code v = [false] :=
  (code_single ((countFreq_present [v] h v).2 (by simp)) (by rw [leaves_single]; rfl)).2

/-- H8 from any hidden state. -/
theorem hufC_single (cap : Nat) (v : Byte) (h : Hidden) :
    huffCompress cap [v] h = if cap < 12 then .raised .outputOverflow
      else .finished (huffStream [(v, 1)] 1 [0]) := by
  have e := huffCompress_eq cap (src := [v]) (by simp) (by simp) h
  simp only [List.flatMap_cons, List.flatMap_nil, List.append_nil, code_of_single,
    leavesOf_tablesOf, leaves_single] at e
  rw [e]
  rfl

/-- H8: HUF.C of one byte, into the 12 bytes it needs and into 11. -/
theorem hufC_small :
    (∃ t, exec .hufC (start [0xFF] 12) = .next t ∧
      Succeeds (start [0xFF] 12) t (huffStream [(0xFF, 1)] 1 [0])) ∧
    (∃ t, exec .hufC (start [0xFF] 11) = .next t ∧ Fails (start [0xFF] 11) t .outputOverflow) := by
  have hs : ∀ n, (start [0xFF] n).source = [0xFF] := fun n => rfl
  constructor
  · have e : ruleOf .hufC (accept .hufC (start [0xFF] 12)) = _ := hufC_single 12 0xFF _
    obtain ⟨t, h1, h2⟩ := succeeds (s := start [0xFF] 12) (by decide) .hufC
      (by rw [e]; rfl) (by rw [e]; decide)
    rw [e] at h2
    exact ⟨t, h1, h2⟩
  · have e : ruleOf .hufC (accept .hufC (start [0xFF] 11)) = _ := hufC_single 11 0xFF _
    exact fails (s := start [0xFF] 11) (by decide) .hufC (by rw [e]; rfl) (by rw [e]; decide)

/-- The bytes 1 and 2, then `n` bytes of 0. -/
def mostlyZero (n : Nat) : List Byte := 1 :: 2 :: List.replicate n 0

theorem mostlyZero_leaves {n : Nat} (hn : 0 < n) (h : Hidden) :
    leavesOf (countFreq (mostlyZero n) h) = [(0, BitVec.ofNat 32 n), (1, 1), (2, 1)] := by
  refine leavesOf_eq (by simp) fun u f => ?_
  rw [countFreq_present, countFreq_freq]
  simp only [mostlyZero, List.mem_cons, List.mem_replicate, Prod.mk.injEq, List.not_mem_nil, or_false,
    List.count_cons, List.count_replicate]
  constructor
  · rintro (⟨rfl, rfl⟩ | ⟨rfl, rfl⟩ | ⟨rfl, rfl⟩) <;> simp; omega
  · rintro ⟨rfl | rfl | ⟨-, rfl⟩, rfl⟩ <;> simp

/-- `bitLength` where the codes of 0, 1 and 2 have 1, 2 and 2 bits. -/
theorem mostlyZero_bits {n : Nat} {t : Vector (List Bool) 256} (h0 : (tableAt t 0).length = 1)
    (h1 : (tableAt t 1).length = 2) (h2 : (tableAt t 2).length = 2) :
    ((mostlyZero n).flatMap (tableAt t)).length = n + 4 := by
  simp only [mostlyZero, List.flatMap_cons, List.length_append, h1, h2, List.length_flatMap,
    List.map_replicate, h0, List.sum_replicate, smul_eq_mul]
  omega

/-- A source region that reads as such an input: two cells of memory. -/
theorem mostlyZero_source {n : Nat} {s : State} (ha : s.srcAddr = 0) (hl : s.srcLen.toNat = n + 2)
    (hm : s.mem = [(0, 1), (1, 2)]) : s.source = mostlyZero n := by
  have hl' : (mostlyZero n).length = s.srcLen.toNat := by simp [mostlyZero, hl]
  rw [State.source, ← hl']
  refine readList_eq fun j hj => ?_
  rw [hm, ha]
  match j, hj with
  | 0, _ => rfl
  | 1, _ => rfl
  | j + 2, hj =>
    have hj' : j < n := by simpa [mostlyZero] using hj
    simp [Memory.read, Memory.unlisted, byteAt, mostlyZero, hj']

/-- An input of 2^32 - 2 bytes, all but two of them 0, and an empty destination: `bitLength` is 2^32. -/
def huge : State :=
  { State.reset with srcLen := 0xFFFFFFFE, dstAddr := 0xFFFFFFFF, mem := [(0, 1), (1, 2)] }

theorem huge_source : huge.source = mostlyZero 0xFFFFFFFC :=
  mostlyZero_source rfl (by decide) rfl

theorem huge_bits (h : Hidden) :
    (huge.source.flatMap (tableAt (tablesOf (countFreq huge.source h)).code)).length = 2 ^ 32 := by
  have hc := tablesOf_code (countFreq huge.source h)
  rw [huge_source, mostlyZero_leaves (by decide)] at hc
  rw [huge_source]
  exact mostlyZero_bits (by rw [hc]; decide +kernel) (by rw [hc]; decide +kernel)
    (by rw [hc]; decide +kernel)

/-- LENGTH_OVERFLOW is reached. -/
theorem hufC_huge : ∃ t, exec .hufC huge = .next t ∧ Fails huge t .lengthOverflow := by
  have hl : huge.source.length = 0xFFFFFFFE := by rw [length_source]; decide
  have e : ruleOf .hufC (accept .hufC huge) = .raised .lengthOverflow := by
    have := huffCompress_eq 0 (src := huge.source) (by rw [hl]; decide) (by rw [hl]; decide)
      (accept .hufC huge).hidden
    simp only [huge_bits] at this
    rw [if_pos (by decide)] at this
    exact this
  exact fails (s := huge) (by decide) .hufC (by rw [e]; rfl) (by rw [e]; decide)

/-- V14, R12v, H12, the 2^32-bit stream, H8 with a byte too little, an empty destination, and Z22, which
ends in the same error with an empty destination. -/
theorem witness_EarlyErrorsChangeNoByte :
    (∃ t, exec .rleC { start [] 0 with srcAddr := 0xFFFFFFF0, srcLen := 0x11 } = .next t ∧
      t.errCode = .badRange) ∧
    (∃ t, exec .rleD (start [3] 9) = .next t ∧ t.errCode = .truncatedRecord) ∧
    (∃ t, exec .hufD (start [0] 9) = .next t ∧ t.errCode = .malformedHeader) ∧
    (∃ t, exec .hufC huge = .next t ∧ t.errCode = .lengthOverflow) ∧
    (∃ t, exec .hufC (start [0xFF] 11) = .next t ∧ t.err = true) ∧
    (∃ t, exec .rleC (start [1] 0) = .next t ∧ (start [1] 0).dstCap = 0) ∧
    (∃ t u, exec .lzD (start [0, 1, 3, 0x41] 9) = .next t ∧
      exec .lzD { start [0, 1, 3, 0x41] 9 with dstCap := 0 } = .next u ∧
      t.errCode = .invalidBackReference ∧ u.errCode = t.errCode) := by
  refine ⟨?_, ?_, ?_, ?_, ?_, ?_, ?_⟩
  · rw [exec_eq_submit]
    obtain ⟨t, h1, h2⟩ := submit_badRange (op := .rleC) (rule := ruleOf .rleC)
      (s := { start [] 0 with srcAddr := 0xFFFFFFF0, srcLen := 0x11 }) (by decide) (by decide)
    exact ⟨t, h1, h2.fails.errCode⟩
  · obtain ⟨t, h1, h2⟩ := fails (s := start [3] 9) (e := .truncatedRecord) (by decide) .rleD (by decide) (by decide)
    exact ⟨t, h1, h2.errCode⟩
  · obtain ⟨t, h1, h2⟩ := fails (s := start [0] 9) (e := .malformedHeader) (by decide) .hufD (by decide) (by decide)
    exact ⟨t, h1, h2.errCode⟩
  · obtain ⟨t, h1, h2⟩ := hufC_huge
    exact ⟨t, h1, h2.errCode⟩
  · obtain ⟨t, h1, h2⟩ := hufC_small.2
    exact ⟨t, h1, h2.err⟩
  · obtain ⟨t, h1⟩ := runs (s := start [1] 0) (by decide) (by decide) .rleC
    exact ⟨t, h1, by decide⟩
  · obtain ⟨t, h1, h2⟩ := fails (s := start [0, 1, 3, 0x41] 9) (e := .invalidBackReference)
      (by decide) .lzD (by decide) (by decide)
    obtain ⟨u, h3, h4⟩ := fails (s := { start [0, 1, 3, 0x41] 9 with dstCap := 0 })
      (e := .invalidBackReference) (by decide) .lzD (by decide) (by decide)
    exact ⟨t, u, h1, h3, h2.errCode, h4.errCode.trans h2.errCode.symm⟩

theorem witness_LeavesAreTheByteCounts : [0x61, 0x62, 0x61].length < 2 ^ 32 ∧
    (0x62 : Byte) ∈ [(0x61 : Byte), 0x62, 0x61] := by decide

theorem witness_TreeMergesTheTwoLightest : leavesH5 ≠ [] ∧ leavesH5.length ≤ 256 ∧
    leavesH5.length ≤ 5 ∧ 5 < (treeOf leavesH5).1.length := by decide

theorem witness_RootWeightIsTheSum : leavesH5 ≠ [] ∧ leavesH5.length ≤ 256 := by decide

/-- One symbol, and two symbols. -/
theorem witness_CodesArePathsToLeaves (h : Hidden) :
    (tableAt (countFreq [0x61] h).present 0x61 = true ∧ (leavesOf (countFreq [0x61] h)).length = 1) ∧
    (tableAt (enterAll entriesBA (clearFreq h)).present 0x61 = true ∧
      (leavesOf (enterAll entriesBA (clearFreq h))).length = 2) :=
  ⟨⟨(countFreq_present _ _ _).2 (by decide), by rw [leaves_single]; rfl⟩,
    (enterAll_present (by decide) _ _).2 (by decide), by rw [leaves_entriesBA]; rfl⟩

theorem witness_CodesArePrefixFree (h : Hidden) :
    tableAt (enterAll entriesBA (clearFreq h)).present 0x61 = true ∧
    tableAt (enterAll entriesBA (clearFreq h)).present 0x62 = true ∧ (0x61 : Byte) ≠ 0x62 :=
  ⟨(enterAll_present (by decide) _ _).2 (by decide), (enterAll_present (by decide) _ _).2 (by decide),
    by decide⟩

theorem witness_TablesIgnoreEntryOrder : (entriesBA.map Prod.fst).Nodup ∧
    entriesBA.Perm [(0x61, 1), (0x62, 1)] ∧ entriesBA ≠ [(0x61, 1), (0x62, 1)] := by decide

/-- H8, with exactly the 12 bytes it needs and with one less; and the shortest stream that is too long. -/
theorem witness_HuffmanCompressEmitsTheStream (h : Hidden) :
    (start [0xFF] 12).canRun ∧ (start [0xFF] 11).canRun ∧ (start [0xFF] 12).srcLen ≠ 0 ∧
    (start [0xFF] 12).source = [0xFF] ∧
    ([0xFF].flatMap (tableAt (tablesOf (countFreq [0xFF] h)).code)).length = 1 ∧
    6 + 5 * (leavesOf (tablesOf (countFreq [0xFF] h))).length + ceilDiv 1 8 = 12 ∧
    huge.canRun ∧ huge.srcLen ≠ 0 ∧
    2 ^ 32 ≤ (huge.source.flatMap (tableAt (tablesOf (countFreq huge.source h)).code)).length := by
  refine ⟨by decide, by decide, by decide, rfl, ?_, ?_, by decide, by decide, (huge_bits h).ge⟩
  · simp [code_of_single]
  · rw [leavesOf_tablesOf, leaves_single]; rfl

/-- H12, H16, H17, H18 and H20: one stream for each clause. -/
theorem witness_HuffmanMalformedHeaders :
    ((start [0] 9).ready ∧ (start [0] 9).regionsOk ∧ (start [0] 9).source.length = 1) ∧
    ((start [1, 1] 9).ready ∧ (start [1, 1] 9).regionsOk ∧ (start [1, 1] 9).source = [1, 1] ∧
      256 < (byteAt [1, 1] 0).toNat * 256 + (byteAt [1, 1] 1).toNat) ∧
    ((start [1, 0, 0, 0, 0, 0] 9).ready ∧ (start [1, 0, 0, 0, 0, 0] 9).regionsOk ∧
      (start [1, 0, 0, 0, 0, 0] 9).source = [1, 0, 0, 0, 0, 0] ∧ 6 < 6 + 5 * 256) ∧
    (let src : List Byte := [0, 2, 0x61, 0, 0, 0, 1, 0x61, 0, 0, 0, 1, 0, 0, 0, 2, 0x40];
      (start src 9).ready ∧ (start src 9).regionsOk ∧ (start src 9).source = src ∧
        6 + 5 * 2 ≤ src.length ∧ byteAt src (2 + 5 * 0) = byteAt src (2 + 5 * 1)) ∧
    (let src : List Byte := [0, 1, 0x61, 0, 0, 0, 5, 0, 0, 0, 1];
      (start src 9).ready ∧ (start src 9).regionsOk ∧ (start src 9).source = src ∧
        6 + 5 * 1 ≤ src.length ∧
        src.length - (6 + 5 * 1) < ceilDiv (be32At src (2 + 5 * 1)).toNat 8) := by decide

/-- H14 and H15. -/
theorem witness_HuffmanZeroSymbols :
    ((start [0, 0, 0, 0, 0, 0, 0xAA] 0).ready ∧ (start [0, 0, 0, 0, 0, 0, 0xAA] 0).regionsOk ∧
      (start [0, 0, 0, 0, 0, 0, 0xAA] 0).source = huffStream [] 0 [] ++ [0xAA] ∧
      ([] : List Byte).length = ceilDiv 0 8) ∧
    ((start [0, 0, 0, 0, 0, 1, 0] 0).ready ∧ (start [0, 0, 0, 0, 0, 1, 0] 0).regionsOk ∧
      (start [0, 0, 0, 0, 0, 1, 0] 0).source = huffStream [] 1 [0] ++ [] ∧
      [(0 : Byte)].length = ceilDiv 1 8) := by decide

/-- H23 and H22, and each with a destination a byte too short. -/
theorem witness_HuffmanOneSymbol :
    (let s := start [0, 1, 0x61, 0, 0, 0, 5, 0, 0, 0, 5, 0x07, 0xAA] 5;
      s.canRun ∧ s.source = huffStream [(0x61, 5)] 5 [0x07] ++ [0xAA] ∧
        [(0x07 : Byte)].length = ceilDiv 5 8 ∧ ∀ i, i < 5 → packedBit [0x07] i = false) ∧
    (let s := start [0, 1, 0x61, 0, 0, 0, 5, 0, 0, 0, 2, 0x40] 1;
      s.canRun ∧ s.source = huffStream [(0x61, 5)] 2 [0x40] ++ [] ∧
        [(0x40 : Byte)].length = ceilDiv 2 8 ∧ packedBit [0x40] 1 = true ∧
        ∀ i, i < 1 → packedBit [0x40] i = false) ∧
    (start [0, 1, 0x61, 0, 0, 0, 5, 0, 0, 0, 5, 0x07, 0xAA] 4).canRun ∧
    (start [0, 1, 0x61, 0, 0, 0, 5, 0, 0, 0, 2, 0x40] 0).canRun := by decide

/-- H28 with a trailing byte: entries unsorted, the symbols 61 62, into two bytes and into one. -/
theorem witness_HuffmanDecompressDecodesTheCodes (h : Hidden) :
    let src : List Byte := [0, 2, 0x62, 0, 0, 0, 1, 0x61, 0, 0, 0, 1, 0, 0, 0, 2, 0x5F, 0xAA]
    let bits := [0x61, 0x62].flatMap (tableAt (tablesOf (enterAll entriesBA (clearFreq h))).code)
    (start src 2).canRun ∧ (start src 1).canRun ∧ entriesBA ≠ [] ∧ (entriesBA.map Prod.fst).Nodup ∧
    (∀ x ∈ [(0x61 : Byte), 0x62], x ∈ entriesBA.map Prod.fst) ∧ bits = [false, true] ∧
    [(0x5F : Byte)].length = ceilDiv 2 8 ∧
    (∀ i, i < 2 → packedBit [0x5F] i = [false, true].getD i false) ∧
    (start src 2).source = huffStream entriesBA 2 [0x5F] ++ [0xAA] := by
  refine ⟨by decide, by decide, by decide, by decide, by decide, ?_, by decide, by decide, by decide⟩
  obtain ⟨h1, h2⟩ := codes_entriesBA h
  rw [List.flatMap_cons, List.flatMap_cons, List.flatMap_nil, h1, h2]
  rfl

/-- Header entries whose codes have two bits each. -/
def entriesFour : List (Byte × Word) := [(0, 1), (1, 1), (2, 1), (3, 1)]

theorem leaves_entriesFour (h : Hidden) :
    leavesOf (enterAll entriesFour (clearFreq h)) = entriesFour := by
  have hn : (entriesFour.map Prod.fst).Nodup := by decide
  refine leavesOf_eq (by decide) fun v f => ?_
  obtain ⟨-, h2, -⟩ := enterAll_spec entriesFour hn (clearFreq h) v
  rw [enterAll_present hn]
  constructor
  · intro hm; exact ⟨List.mem_map.2 ⟨_, hm, rfl⟩, (h2 f hm).symm⟩
  · rintro ⟨hv, rfl⟩
    obtain ⟨⟨u, g⟩, hm, rfl⟩ := List.mem_map.1 hv
    rw [h2 g hm]; exact hm

/-- One bit of a code of two; and the same after a whole code, into no byte. -/
theorem witness_HuffmanEndInsideCodeword (h : Hidden) :
    let src : List Byte := [0, 4, 0, 0, 0, 0, 1, 1, 0, 0, 0, 1, 2, 0, 0, 0, 1, 3, 0, 0, 0, 1, 0, 0, 0, 1, 0]
    let code := tableAt (tablesOf (enterAll entriesFour (clearFreq h))).code 0
    (start src 0).canRun ∧ (entriesFour.map Prod.fst).Nodup ∧ (0 : Byte) ∈ entriesFour.map Prod.fst ∧
    [false] <+: code ∧ [false] ≠ code ∧ [(0 : Byte)].length = ceilDiv 1 8 ∧
    (∀ i, i < 1 → packedBit [0] i = [false].getD i false) ∧
    (start src 0).source = huffStream entriesFour 1 [0] ++ [] ∧
    (let src' : List Byte :=
        [0, 4, 0, 0, 0, 0, 1, 1, 0, 0, 0, 1, 2, 0, 0, 0, 1, 3, 0, 0, 0, 1, 0, 0, 0, 3, 0];
      (start src' 0).canRun ∧ (start src' 0).dstCap.toNat < [(0 : Byte)].length ∧
      (∀ i, i < 3 → packedBit [0] i = (code ++ [false]).getD i false) ∧
      (code ++ [false]).length = 3 ∧
      (start src' 0).source = huffStream entriesFour 3 [0] ++ []) := by
  have e : tableAt (tablesOf (enterAll entriesFour (clearFreq h))).code 0 = [false, false] := by
    rw [tablesOf_code, leaves_entriesFour]; decide
  simp only [e]
  decide

/-- H8's stream decoded beside it. -/
theorem witness_HuffmanRoundTrip : ∃ t, (start [0xFF] 12).canRun ∧
    exec .hufC (start [0xFF] 12) = .next t ∧ t.err = false ∧
    ({ t with srcAddr := (start [0xFF] 12).dstAddr, srcLen := t.outLen, dstAddr := 0x3000,
              dstCap := 1 } : State).regionsOk ∧ (start [0xFF] 12).srcLen ≤ 1 := by
  obtain ⟨t, h1, h2⟩ := hufC_small.1
  have ho : t.outLen = 12 := BitVec.eq_of_toNat_eq (h2.outLen.trans (by decide))
  refine ⟨t, by decide, h1, h2.err, ⟨?_, ?_⟩, by decide⟩
  · simp only [State.rangeOk, State.srcRegion, State.dstRegion, ho]; rfl
  · simp only [State.ordinary, h2.frame.platform, ho]; rfl

/-- R131: LOOKAHEAD_SIZE is CFG[23:16], 0x10 at the defaults (R41); 0x10010 is a number that an 8-bit
field never equals. -/
theorem test_poll_number : step { State.reset with agenda := [.poll 0x04 23 16 0x10] } =
      .next { State.reset with regRdata := 0x00101000 } ∧
    ∃ t, step { State.reset with agenda := [.poll 0x04 23 16 0x10010] } = .next t ∧
      t.agenda = [.poll 0x04 23 16 0x10010] := ⟨rfl, _, rfl, rfl⟩

/-- A `mem` line after a read: its bytes are in the start state, and only the read is an action. -/
theorem test_mem_line : (State.reset.withProgram [.rd .id, .mem 0x1000 [5, 0, 7]]).mem =
      [(0x1000, 5), (0x1002, 7)] ∧
    (State.reset.withProgram [.rd .id, .mem 0x1000 [5, 0, 7]]).agenda = [.hostRead 0] := by decide

/-- A program with a line before, and bytes that end at the last address. -/
theorem witness_PseudoInstructionExpansions : Memory.wf State.reset.mem ∧
    (∀ l ∈ [HostLine.rd .id, .poll .done 2, .mem 0 [1]], l.wf = true) ∧
    (0xFFFFFFFF#32).toNat + [(9 : Byte)].length ≤ 2 ^ 32 ∧
    (∀ base bs, HostLine.rd .id ≠ .mem base bs) := by
  refine ⟨by decide, by decide, by decide, ?_⟩
  intros; simp

theorem witness_AcknowledgeClearsDoneAndErr :
    let s : State := { small with done := true, err := true, irqEn := true, agenda := programAgenda (expand .ack) }
    s.build.wf = true ∧ s.rstN = true ∧ s.agenda = programAgenda (expand .ack) ++ [] ∧ s.irq = true := by
  decide

end Sys2Proof.Tests
end

/-! ## Proofs of the statements of 00_scope.md -/

namespace Sys2Proof.Machine

/-! ### How a command that can run ends -/

/-- What is left of an emission when at most `cap` bytes fit: the bytes that fit, and
OUTPUT_OVERFLOW in place of the emission's own end when one does not (40_dispatch.md R157). -/
def Emission.capped (cap : Nat) (em : Emission) : Emission :=
  if cap < em.bytes.length then ⟨em.bytes.take cap, some .outputOverflow⟩ else em

/-- `t` is `s` after the completion that an emission which fits asks for (R159, R310). -/
def EndsAs (s t : State) (em : Emission) : Prop :=
  match em.error with
  | none => Succeeds s t em.bytes
  | some e => Fails s t e

/-- A command that can run ends as its rule says, within the capacity. -/
theorem submit_endsAs {op : Instr} {rule : State → Emission} {s : State} (h : s.canRun) :
    ∃ t, submit op (operate rule) s = .next t ∧
      EndsAs s t ((rule (accept op s)).capped s.dstCap.toNat) := by
  have ⟨hready, hreg, _⟩ := h
  by_cases hl : s.dstCap.toNat < (rule (accept op s)).bytes.length
  · simpa [EndsAs, Emission.capped, hl] using submit_overflows hready hreg hl
  · have hfits := Nat.le_of_not_lt hl
    cases he : (rule (accept op s)).error with
    | none => simpa [EndsAs, Emission.capped, hl, he] using submit_succeeds h he hfits
    | some e =>
      obtain ⟨t, ht, hfails, -⟩ := submit_fails hready hreg he hfits
      exact ⟨t, ht, by simpa [EndsAs, Emission.capped, hl, he] using hfails⟩

theorem exec_endsAs {i : Instr} {s t : State} (h : s.canRun) (ht : exec i s = .next t) :
    EndsAs s t ((ruleOf i (accept i s)).capped s.dstCap.toNat) := by
  obtain ⟨u, hu, hend⟩ := submit_endsAs (op := i) (rule := ruleOf i) h
  rw [← exec_eq_submit, ht] at hu
  exact Host.Outcome.next.inj hu ▸ hend

/-- Two completions have the same error code and length, and the same output where there is no
error; `t` and `t'` come from `s` and `s'`, whose destinations may lie at different addresses. -/
def SameResult (s s' t t' : State) : Prop :=
  t.err = t'.err ∧ t.errCode = t'.errCode ∧ t.outLen = t'.outLen ∧
  (t.err = false → ∀ j, j < t.outLen.toNat →
    Memory.read t.mem (s.dstAddr.toNat + j) = Memory.read t'.mem (s'.dstAddr.toNat + j))

theorem Succeeds.sameResult {s s' t t' : State} {out : List Byte} (h : Succeeds s t out)
    (h' : Succeeds s' t' out) : SameResult s s' t t' := by
  refine ⟨h.err.trans h'.err.symm, h.errCode.trans h'.errCode.symm,
    BitVec.eq_of_toNat_eq (h.outLen.trans h'.outLen.symm), fun _ j hj => ?_⟩
  have hj' : j < out.length := h.outLen ▸ hj
  exact (h.written j hj').trans (h'.written j hj').symm

theorem Fails.sameResult {s s' t t' : State} {e : ErrCode} (h : Fails s t e) (h' : Fails s' t' e) :
    SameResult s s' t t' :=
  ⟨h.err.trans h'.err.symm, h.errCode.trans h'.errCode.symm, h.outLen.trans h'.outLen.symm,
    fun hok => by simp [h.err] at hok⟩

/-- Completions of the same emission have the same result. -/
theorem EndsAs.sameResult {s s' t t' : State} {em : Emission} (h : EndsAs s t em)
    (h' : EndsAs s' t' em) : SameResult s s' t t' := by
  unfold EndsAs at h h'
  cases he : em.error with
  | none =>
    simp only [he] at h h'
    exact h.sameResult h'
  | some e =>
    simp only [he] at h h'
    exact h.sameResult h'

/-- Settles O19: both commands have the same emission (`ruleOf_congr`) under the same capacity, so
they end in the same way. -/
theorem resultDependsOnSourceCapacityAndBuild :
    Obligations.ResultDependsOnSourceCapacityAndBuild := by
  intro i s s' t t' hs hs' hsrc hcap hbuild ht ht'
  have hem : ruleOf i (accept i s) = ruleOf i (accept i s') := ruleOf_congr i hsrc hcap hbuild
  have hend := exec_endsAs hs ht
  rw [hem, hcap] at hend
  exact hend.sameResult (exec_endsAs hs' ht')

/-! ### The empty input -/

/-- Every rule ends an empty input at once and emits nothing (R6). -/
theorem ruleOf_empty_source (i : Instr) {s : State} (h : s.source = []) :
    ruleOf i s = .finished [] := by
  cases i <;> simp only [ruleOf, h] <;> rfl

/-- A command whose rule emits nothing and ends without error is accepted and finished; this needs
no canonical data space, since no byte is written. -/
theorem exec_finished_nil {i : Instr} {s : State} (hready : s.ready) (hreg : s.regionsOk)
    (hem : ruleOf i (accept i s) = .finished []) : exec i s = .next (finish (accept i s)) := by
  rw [exec_eq_submit, submit_ready hready (premise_of_regionsOk hreg)]
  simp [operate, hreg.1, hem, Emission.finished, emitAll]

/-- `finish()` right after the acceptance is a success with no output. -/
theorem finish_accept_succeeds (i : Instr) (s : State) : Succeeds s (finish (accept i s)) [] where
  frame := by constructor <;> rfl
  idle := by constructor <;> rfl
  err := rfl
  errCode := rfl
  outLen := rfl
  written j hj := absurd hj (Nat.not_lt_zero j)
  kept _ _ := rfl

/-- Settles O21: with SRC_LEN = 0 the input is the empty list, for which every rule emits nothing. -/
theorem emptyInputSucceedsWithNoOutput : Obligations.EmptyInputSucceedsWithNoOutput := by
  intro i s hready hreg hlen
  have hsrc : (accept i s).source = [] := List.length_eq_zero_iff.1 (by simp [hlen])
  exact ⟨_, exec_finished_nil hready hreg (ruleOf_empty_source i hsrc), finish_accept_succeeds i s,
    fun _ => rfl⟩

/-! ### LZ.C without a match of length 3 -/

/-- The length of a candidate is below 3 with a lookahead below 3 (R14), and with at most 4 bytes of
input: one byte stands before the match and one literal after it (42_lz77.md R241, R243). -/
theorem candidate_short {window lookahead : Nat} {src : List Byte} {pos d l : Nat}
    (hshort : lookahead < 3 ∨ src.length ≤ 4) (h : Candidate window lookahead src pos d l) :
    l < 3 := by
  obtain ⟨hd, hdist, hlen, -⟩ := h
  omega

/-- Where no candidate is 3 bytes long, the greedy stream is one literal record a byte (R250). -/
theorem lzParse_literals {window lookahead : Nat} {src : List Byte}
    (hshort : ∀ pos d l, Candidate window lookahead src pos d l → l < 3) (rest : List Byte) :
    ∀ pos, src.drop pos = rest →
      LzParse window lookahead src pos (rest.flatMap fun c => [0, 0, 0, c]) := by
  induction rest with
  | nil => exact fun pos hdrop => .done pos (List.drop_eq_nil_iff.1 hdrop)
  | cons c rest ih =>
    intro pos hdrop
    have hpos : pos < src.length := by
      by_contra hle
      simp [List.drop_of_length_le (Nat.le_of_not_lt hle)] at hdrop
    rw [List.drop_eq_getElem_cons hpos] at hdrop
    obtain ⟨hc, hrest⟩ := List.cons.inj hdrop
    have hbyte : byteAt src pos = c := by simp [byteAt, hpos, hc]
    have := LzParse.literal pos _ hpos (hshort pos) (ih (pos + 1) hrest)
    rwa [hbyte] at this

/-- Settles O41: no candidate reaches the length of a back-reference, so LZ.C emits the literal
records, four bytes for each byte of the source. -/
theorem lzShortMatchesAreLiterals : Obligations.LzShortMatchesAreLiterals := by
  intro s hrun hshort hcap
  have hparse := lzParse_literals (window := s.build.windowSize.toNat)
    (lookahead := s.build.lookaheadSize.toNat) (src := s.source)
    (fun _ _ _ => candidate_short (by simpa using hshort)) s.source 0 rfl
  have hrule : ruleOf .lzC (accept .lzC s) = .finished (s.source.flatMap fun c => [0, 0, 0, c]) :=
    congrArg Emission.finished
      (lzScan_of_parse s.build.windowSize.isLt hparse s.source.length (by omega))
  have hsucc := submit_succeeds (op := .lzC) (rule := ruleOf .lzC) hrun (by rw [hrule]; rfl)
    (by rw [hrule]; simpa [Emission.finished, Nat.mul_comm] using hcap)
  rwa [hrule] at hsucc

/-! ### Stops -/

theorem step_refused {s : State} (h : s.build.wf = false) : step s = .refused .buildOutOfRange := by
  simp [step, h]

theorem buildWf_eq_false_iff {b : Config.Build} :
    b.wf = false ↔ b.windowSize = 0 ∨ b.lookaheadSize = 0 := by
  simp [Config.Build.wf, Decidable.imp_iff_not_or]

/-- A window of the platform's that meets a region makes the regions not ordinary (20_memory.md R90). -/
theorem ordinary_false_of_device {s : State} {w : Config.Region} (hw : w ∈ s.platform.devices)
    (hmeet : (regionsMeet w s.srcRegion || regionsMeet w s.dstRegion) = true) :
    s.ordinary = false :=
  List.all_eq_false.2 ⟨w, hw, by simp [← Bool.not_or, hmeet]⟩

theorem submit_premiseBroken {op : Instr} {run : State → State} {s : State} (h : s.ready)
    (hp : s.premiseBroken = true) : submit op run s = .fault .notOrdinaryMemory := by
  simp [submit, h.1, h.2, hp]

/-- Settles O32: `step` tests the build before the agenda, and a command tests its regions before
it is accepted. -/
theorem brokenPremisesStop : Obligations.BrokenPremisesStop := by
  refine ⟨fun s h => step_refused (buildWf_eq_false_iff.2 h), fun i s w hready hrange hw hmeet => ?_⟩
  rw [exec_eq_submit]
  exact submit_premiseBroken hready
    (by simp [State.premiseBroken, hrange, ordinary_false_of_device hw hmeet])

/-! ### Big-endian fields -/

/-- The byte of a word that starts at a bit, as a number. -/
theorem toNat_extractByte {w : Nat} (v : BitVec w) (start : Nat) :
    (v.extractLsb' start 8).toNat = v.toNat / 2 ^ start % 2 ^ 8 := by
  rw [BitVec.extractLsb'_toNat, Nat.shiftRight_eq_div_pow]

/-- A byte after the less significant end of a word. -/
theorem toNat_append_byte {w : Nat} (x : BitVec w) (b : Byte) :
    (x ++ b).toNat = x.toNat * 2 ^ 8 + b.toNat := by
  rw [BitVec.toNat_append, ← Nat.shiftLeft_add_eq_or_of_lt b.isLt, Nat.shiftLeft_eq]

theorem be16_toNat (v : BitVec 16) :
    (be16 v).map BitVec.toNat = [v.toNat / 2 ^ 8, v.toNat % 2 ^ 8] := by
  have hhigh : v.toNat / 2 ^ 8 < 2 ^ 8 := by have := v.isLt; omega
  simp only [be16, List.map_cons, List.map_nil, toNat_extractByte, Nat.mod_eq_of_lt hhigh,
    Nat.pow_zero, Nat.div_one]

theorem be32_toNat (v : Word) :
    (be32 v).map BitVec.toNat =
      [v.toNat / 2 ^ 24, v.toNat / 2 ^ 16 % 2 ^ 8, v.toNat / 2 ^ 8 % 2 ^ 8, v.toNat % 2 ^ 8] := by
  have hhigh : v.toNat / 2 ^ 24 < 2 ^ 8 := by have := v.isLt; omega
  simp only [be32, List.map_cons, List.map_nil, toNat_extractByte, Nat.mod_eq_of_lt hhigh,
    Nat.pow_zero, Nat.div_one]

theorem rdBe32_toNat (b0 b1 b2 b3 : Byte) :
    (rdBe32 b0 b1 b2 b3).toNat =
      b0.toNat * 2 ^ 24 + b1.toNat * 2 ^ 16 + b2.toNat * 2 ^ 8 + b3.toNat := by
  simp only [rdBe32, toNat_append_byte]
  omega

/-- Settles O60: each byte written is a quotient's remainder, and each byte read is appended below
the ones before it. -/
theorem bigEndianFields : Obligations.BigEndianFields :=
  ⟨be16_toNat, be32_toNat, fun _ _ => rdBe16_toNat _ _, fun _ _ => rdBe32_toNat _ _ _ _⟩

end Sys2Proof.Machine

/-! ## Proofs of the statements of 10_state.md -/

namespace Sys2Proof.Machine

/-! ### What a step can do, said once -/

/-- What a host write can do to the block, with the conditions under which it does so (10_state.md
R34, R54; 40_dispatch.md R150 to R152, R165). -/
inductive HostWriteEffect (off : BitVec 6) (v : Word) (s : State) : State → Prop where
  /-- In reset, at a reserved offset, or a command while BUSY. -/
  | ignored : HostWriteEffect off v s s
  | register (r : RegName) : s.rstN = true → regAt off = some r → r ≠ .cmd →
      HostWriteEffect off v s (writeReg r v s)
  | rejected (e : Illegal) : s.ready → regAt off = some .cmd → decode v = .error e →
      HostWriteEffect off v s (reject s)
  | accepted (i : Instr) : s.ready → s.premiseBroken = false → regAt off = some .cmd →
      decode v = .ok i → s.coreHeld = true → HostWriteEffect off v s (accept i s)
  | completed (i : Instr) : s.ready → s.premiseBroken = false → regAt off = some .cmd →
      decode v = .ok i → s.coreHeld = false →
      HostWriteEffect off v s (operate (ruleOf i) (accept i s))

/-- A submitted command is ignored, or it is taken by a ready block with an intact premise. -/
theorem submit_next {op : Instr} {run : State → State} {s t : State}
    (h : submit op run s = .next t) :
    t = s ∨ (s.ready ∧ s.premiseBroken = false ∧ t = run (accept op s)) := by
  unfold submit at h
  split at h
  · exact .inl (Host.Outcome.next.inj h).symm
  · next hready =>
    split at h
    · cases h
    · next hpremise =>
      exact .inr ⟨by simpa using hready, by simpa using hpremise, (Host.Outcome.next.inj h).symm⟩

theorem writeCmd_effect {off : BitVec 6} {v : Word} {s t : State} (hrst : s.rstN = true)
    (hoff : regAt off = some .cmd) (h : writeCmd v s = .next t) : HostWriteEffect off v s t := by
  unfold writeCmd at h
  split at h
  · next e hdecode =>
    split at h
    · cases h; exact .ignored
    · next hbusy => cases h; exact .rejected e ⟨by simpa using hbusy, hrst⟩ hoff hdecode
  · next i hdecode =>
    split at h
    · next hheld =>
      obtain rfl | ⟨hready, hpremise, rfl⟩ := submit_next h
      · exact .ignored
      · exact .accepted i hready hpremise hoff hdecode hheld
    · next hheld =>
      rw [exec_eq_submit] at h
      obtain rfl | ⟨hready, hpremise, rfl⟩ := submit_next h
      · exact .ignored
      · exact .completed i hready hpremise hoff hdecode (by simpa using hheld)

theorem hostWrite_effect {off : BitVec 6} {v : Word} {s t : State}
    (h : hostWrite off v s = .next t) : HostWriteEffect off v s t := by
  unfold hostWrite at h
  split at h
  · cases h; exact .ignored
  · next hrst =>
    have hrst : s.rstN = true := by simpa using hrst
    split at h
    · cases h; exact .ignored
    · next hoff => exact writeCmd_effect hrst hoff h
    · next r hcmd hoff => cases h; exact .register r hrst hoff hcmd

/-- A data-space write that does not stop writes one byte outside the regions in flight. -/
theorem dataWrite_next {addr : Word} {b : Byte} {s t : State} (h : dataWrite addr b s = .next t) :
    t = { s with mem := Memory.write s.mem addr.toNat b } ∧ s.isDevice addr.toNat = false ∧
      (s.busy = true → regionHas s.srcRegion addr.toNat = false ∧
        regionHas s.dstRegion addr.toNat = false) := by
  unfold dataWrite at h
  split at h
  · cases h
  · next hhazard =>
    split at h
    · cases h
    · next hdevice =>
      cases h
      exact ⟨rfl, by simpa using hdevice, fun hbusy => by simpa [hbusy] using hhazard⟩

/-- A data-space read that does not stop changes the value last read and the draws alone. -/
theorem dataRead_next {addr : Word} {s t : State} (h : dataRead addr s = .next t) :
    ∃ b n, t = { s with dataRdata := b, draws := n } := by
  unfold dataRead at h
  split at h
  · cases h
  · split at h <;> cases h
    · exact ⟨_, _, rfl⟩
    · exact ⟨_, s.draws, rfl⟩

/-- A poll is a host read, or a host read and the core's move, with the poll left on the agenda. -/
theorem hostPoll_cases (off : BitVec 6) (hi lo : Nat) (v : Word) (s : State) :
    hostPoll off hi lo v s = hostRead off s ∨
    ∃ agenda, hostPoll off hi lo v s = { fairMove (hostRead off s) with agenda := agenda } := by
  unfold hostPoll
  split
  · exact .inl rfl
  · exact .inr ⟨_, rfl⟩

/-- A step is the core's move where the agenda is empty, else the next action (70 R360). -/
theorem step_next {s t : State} (h : step s = .next t) :
    s.build.wf = true ∧
    ((s.agenda = [] ∧ t = fairMove s) ∨
      ∃ a rest, s.agenda = a :: rest ∧ perform a { s with agenda := rest } = .next t) := by
  unfold step at h
  split at h
  · cases h
  · next hwf =>
    refine ⟨by simpa using hwf, ?_⟩
    split at h
    · next hagenda => cases h; exact .inl ⟨hagenda, rfl⟩
    · next a rest hagenda => exact .inr ⟨a, rest, hagenda, h⟩

/-! ### The invariant -/

/-- Settles O24: right after reset the block is idle, without error, and lists no byte. -/
theorem invariantAtReset : Obligations.InvariantAtReset := by
  unfold Obligations.InvariantAtReset
  constructor <;> simp [State.reset, Memory.wf]

/-- The invariant speaks neither of the schedule nor of the values last read. -/
theorem State.Inv.unseen {s : State} (h : s.Inv) (agenda : List Action) (held : Bool) (reg : Word)
    (byte : Byte) (draws : Nat) :
    State.Inv { s with
      agenda := agenda, coreHeld := held, regRdata := reg, dataRdata := byte, draws := draws } :=
  ⟨h.memWf, h.opBusy, h.busyClear, h.abortBusy, h.noOutput, h.errCoded, h.errLength, h.premise,
    h.inReset⟩

theorem State.Inv.withAgenda {s : State} (h : s.Inv) (agenda : List Action) :
    State.Inv { s with agenda := agenda } :=
  h.unseen agenda s.coreHeld s.regRdata s.dataRdata s.draws

theorem State.Inv.withMem {s : State} (h : s.Inv) {m : Memory} (hm : Memory.wf m) :
    State.Inv { s with mem := m } :=
  ⟨hm, h.opBusy, h.busyClear, h.abortBusy, h.noOutput, h.errCoded, h.errLength, h.premise,
    h.inReset⟩

theorem State.Inv.hostRead {s : State} (h : s.Inv) (off : BitVec 6) : (hostRead off s).Inv :=
  h.unseen s.agenda s.coreHeld _ s.dataRdata _

/-- A completion out of reset leaves an idle block, so only its results have to agree. -/
theorem Completes.inv {s t : State} (h : Completes s t) (hrst : s.rstN = true)
    (hmem : Memory.wf t.mem) : t.Inv where
  memWf := hmem
  opBusy := by simp [h.idle.busy, h.idle.curOp]
  busyClear := by simp [h.idle.busy]
  abortBusy := by simp [h.idle.abortReq]
  noOutput := by simp [h.idle.busy]
  errCoded := h.coded.1
  errLength := fun hcode => h.length (h.coded.2 hcode)
  premise := by simp [h.idle.busy]
  inReset := by simp [h.frame.rstN, hrst]

/-- An operation in flight completes into the invariant. -/
theorem State.Inv.operate {s : State} (h : s.Inv) (hbusy : s.busy = true) (i : Instr) :
    (operate (ruleOf i) s).Inv :=
  (operate_completes (ruleOf_legal i s)).inv (h.released hbusy)
    (operate_wf _ h.memWf (h.noOutput hbusy))

theorem State.Inv.fairMove {s : State} (h : s.Inv) : (fairMove s).Inv := by
  cases hbusy : s.busy with
  | false => rwa [fairMove_idle hbusy]
  | true =>
    rw [Machine.fairMove, if_pos hbusy, coreMove_eq]
    cases s.curOp with
    | none => exact h
    | some i => exact h.operate hbusy i

/-- Acceptance clears the results and posts no abort request (R151, R55). -/
theorem State.Inv.accept {s : State} (h : s.Inv) (hready : s.ready)
    (hpremise : s.premiseBroken = false) (i : Instr) : (accept i s).Inv where
  memWf := h.memWf
  opBusy := by simp
  busyClear := by simp
  abortBusy := by simp
  noOutput := by simp
  errCoded := by simp
  errLength := by simp
  premise _ := hpremise
  inReset := by simp [hready.2]

/-- A rejected word leaves the block idle with UNSUPPORTED_ALGORITHM and OUT_LEN 0 (R152). -/
theorem State.Inv.reject {s : State} (h : s.Inv) (hready : s.ready) : (reject s).Inv where
  memWf := h.memWf
  opBusy := h.opBusy
  busyClear := by simp [hready.1]
  abortBusy := h.abortBusy
  noOutput := h.noOutput
  errCoded := by simp
  errLength := by simp
  premise := h.premise
  inReset := by simp [hready.2]

/-- A write of CTRL posts an abort request only while BUSY (R43). -/
theorem State.Inv.writeCtrl {s : State} (h : s.Inv) (hrst : s.rstN = true) (v : Word) :
    (s.writeCtrl v).Inv where
  memWf := h.memWf
  opBusy := h.opBusy
  busyClear := h.busyClear
  abortBusy hreq := by
    simp only [writeCtrl_abortReq, Bool.or_eq_true, Bool.and_eq_true] at hreq
    exact hreq.elim h.abortBusy And.left
  noOutput := h.noOutput
  errCoded := h.errCoded
  errLength := h.errLength
  premise := h.premise
  inReset := by simp [hrst]

/-- A write of STATUS can only clear DONE and ERR (R46, R47). -/
theorem State.Inv.writeStatus {s : State} (h : s.Inv) (hrst : s.rstN = true) (v : Word) :
    (s.writeStatus v).Inv where
  memWf := h.memWf
  opBusy := h.opBusy
  busyClear hbusy := by
    obtain ⟨hdone, herr, hresults⟩ := h.busyClear hbusy
    exact ⟨by simp [State.writeStatus, hdone], by simp [State.writeStatus, herr], hresults⟩
  abortBusy := h.abortBusy
  noOutput := h.noOutput
  errCoded herr := h.errCoded (Bool.and_eq_true_iff.1 herr).1
  errLength := h.errLength
  premise := h.premise
  inReset := by simp [hrst]

/-- Operands written while idle and out of reset are free. -/
theorem State.Inv.withOperands {s : State} (h : s.Inv) (hready : s.ready) (a n d c : Word) :
    State.Inv { s with srcAddr := a, srcLen := n, dstAddr := d, dstCap := c } where
  memWf := h.memWf
  opBusy := h.opBusy
  busyClear := h.busyClear
  abortBusy := h.abortBusy
  noOutput := h.noOutput
  errCoded := h.errCoded
  errLength := h.errLength
  premise := by simp [hready.1]
  inReset := by simp [hready.2]

theorem State.Inv.writeReg {s : State} (h : s.Inv) (hrst : s.rstN = true) (r : RegName) (v : Word) :
    (writeReg r v s).Inv := by
  have hoperand : ∀ a n d c : Word, State.Inv
      (if s.busy then s else { s with srcAddr := a, srcLen := n, dstAddr := d, dstCap := c }) := by
    intro a n d c
    split
    · exact h
    · next hbusy => exact h.withOperands ⟨by simpa using hbusy, hrst⟩ a n d c
  cases r with
  | ctrl => exact h.writeCtrl hrst v
  | status => exact h.writeStatus hrst v
  | srcAddr => exact hoperand v s.srcLen s.dstAddr s.dstCap
  | srcLen => exact hoperand s.srcAddr v s.dstAddr s.dstCap
  | dstAddr => exact hoperand s.srcAddr s.srcLen v s.dstCap
  | dstCap => exact hoperand s.srcAddr s.srcLen s.dstAddr v
  | id | cfg | cmd | errCode | outLen => exact h

theorem State.Inv.hostWrite {s t : State} {off : BitVec 6} {v : Word} (h : s.Inv)
    (ht : HostWriteEffect off v s t) : t.Inv := by
  cases ht with
  | ignored => exact h
  | register r hrst => exact h.writeReg hrst r v
  | rejected e hready => exact h.reject hready
  | accepted i hready hpremise => exact h.accept hready hpremise i
  | completed i hready hpremise => exact (h.accept hready hpremise i).operate rfl i

theorem State.Inv.hostPoll {s : State} (h : s.Inv) (off : BitVec 6) (hi lo : Nat) (v : Word) :
    (hostPoll off hi lo v s).Inv := by
  obtain heq | ⟨agenda, heq⟩ := hostPoll_cases off hi lo v s <;> rw [heq]
  · exact h.hostRead off
  · exact (h.hostRead off).fairMove.withAgenda agenda

/-- The registers at their reset values meet the invariant over any canonical data space. -/
theorem resetRegisters_inv {s : State} (hmem : Memory.wf s.mem) : (resetRegisters s).Inv := by
  constructor
  case memWf => exact hmem
  all_goals simp

theorem State.Inv.assertReset {s : State} (h : s.Inv) : (assertReset s).Inv := by
  refine resetRegisters_inv ?_
  split
  · exact spoilDestination_wf h.memWf
  · exact h.memWf

theorem State.Inv.releaseReset {s : State} (h : s.Inv) : (releaseReset s).Inv :=
  ⟨h.memWf, h.opBusy, h.busyClear, h.abortBusy, h.noOutput, h.errCoded, h.errLength, h.premise,
    by simp⟩

/-- Every action of the outside keeps the invariant. -/
theorem State.Inv.perform {s t : State} {a : Action} (h : s.Inv) (ht : perform a s = .next t) :
    t.Inv := by
  cases a with
  | hostWrite off v => exact h.hostWrite (hostWrite_effect ht)
  | hostRead off => cases ht; exact h.hostRead off
  | poll off hi lo v => cases ht; exact h.hostPoll off hi lo v
  | dataWrite addr b =>
    obtain ⟨rfl, -⟩ := dataWrite_next ht
    exact h.withMem (write_wf b h.memWf addr.isLt)
  | dataRead addr =>
    obtain ⟨b, n, rfl⟩ := dataRead_next ht
    exact h.unseen s.agenda s.coreHeld s.regRdata b n
  | assertReset => cases ht; exact h.assertReset
  | releaseReset => cases ht; exact h.releaseReset
  | hold => cases ht; exact h.unseen s.agenda true s.regRdata s.dataRdata s.draws
  | proceed => cases ht; exact (h.unseen s.agenda false s.regRdata s.dataRdata s.draws).fairMove

/-- Settles O25: the core's move and every action of the outside keep the invariant. -/
theorem stepKeepsTheInvariant : Obligations.StepKeepsTheInvariant := by
  intro s t h ht
  obtain ⟨-, ⟨-, rfl⟩ | ⟨a, rest, -, hperform⟩⟩ := step_next ht
  · exact h.fairMove
  · exact (h.withAgenda rest).perform hperform

/-! ### The build and the platform -/

/-- The build and the platform's windows are as before. -/
structure SameBuild (s t : State) : Prop where
  build    : t.build = s.build
  platform : t.platform = s.platform

theorem writeReg_sameBuild (r : RegName) (v : Word) (s : State) : SameBuild s (writeReg r v s) := by
  cases r with
  | srcAddr | srcLen | dstAddr | dstCap => constructor <;> simp only [writeReg] <;> split <;> rfl
  | id | cfg | ctrl | cmd | status | errCode | outLen => exact ⟨rfl, rfl⟩

theorem HostWriteEffect.sameBuild {off : BitVec 6} {v : Word} {s t : State}
    (h : HostWriteEffect off v s t) : SameBuild s t := by
  cases h with
  | ignored | rejected | accepted => exact ⟨rfl, rfl⟩
  | register r => exact writeReg_sameBuild r v s
  | completed i =>
    have hframe := (operate_completes (ruleOf_legal i (accept i s))).frame
    exact ⟨hframe.build, hframe.platform⟩

theorem hostPoll_sameBuild (off : BitVec 6) (hi lo : Nat) (v : Word) (s : State) :
    SameBuild s (hostPoll off hi lo v s) := by
  obtain heq | ⟨agenda, heq⟩ := hostPoll_cases off hi lo v s <;> rw [heq]
  · exact ⟨rfl, rfl⟩
  · have hframe := fairMove_frame (hostRead off s)
    exact ⟨hframe.build, hframe.platform⟩

theorem assertReset_sameBuild (s : State) : SameBuild s (assertReset s) := by
  unfold assertReset
  split <;> exact ⟨rfl, rfl⟩

theorem perform_sameBuild {s t : State} {a : Action} (ht : perform a s = .next t) :
    SameBuild s t := by
  cases a with
  | hostWrite off v => exact (hostWrite_effect ht).sameBuild
  | poll off hi lo v => cases ht; exact hostPoll_sameBuild off hi lo v s
  | dataWrite addr b => obtain ⟨rfl, -⟩ := dataWrite_next ht; exact ⟨rfl, rfl⟩
  | dataRead addr => obtain ⟨b, n, rfl⟩ := dataRead_next ht; exact ⟨rfl, rfl⟩
  | assertReset => cases ht; exact assertReset_sameBuild s
  | proceed =>
    cases ht
    have hframe := fairMove_frame { s with coreHeld := false }
    exact ⟨hframe.build, hframe.platform⟩
  | hostRead | releaseReset | hold => cases ht; exact ⟨rfl, rfl⟩

theorem step_sameBuild {s t : State} (ht : step s = .next t) : SameBuild s t := by
  obtain ⟨-, ⟨-, rfl⟩ | ⟨a, rest, -, hperform⟩⟩ := step_next ht
  · exact ⟨(fairMove_frame s).build, (fairMove_frame s).platform⟩
  · have hsame := perform_sameBuild hperform
    exact ⟨hsame.build, hsame.platform⟩

/-- Settles O26: no step changes the build, of which ID and CFG are a function. -/
theorem stepKeepsTheBuild : Obligations.StepKeepsTheBuild := by
  intro s t ht
  obtain ⟨hbuild, hplatform⟩ := step_sameBuild ht
  exact ⟨hbuild, hplatform, rfl, by simp [readReg, State.cfgWord, hbuild]⟩

/-! ### The hidden state -/

/-- The state with every table and cursor cleared but the output counter (10_state.md R61 to R67). -/
def clearTables (s : State) : State :=
  { s with hidden := { Hidden.zero with outLen := s.hidden.outLen } }

theorem emit_clearTables (b : Byte) (s : State) :
    emit b (clearTables s) = (emit b s).map clearTables := by
  by_cases hfull : s.hidden.outLen = s.dstCap <;> simp [emit, clearTables, hfull]

/-- Emitting reads the output counter alone of the hidden state (R157). -/
theorem emitAll_clearTables (bs : List Byte) : ∀ s : State,
    emitAll bs (clearTables s) = (clearTables (emitAll bs s).1, (emitAll bs s).2) := by
  induction bs with
  | nil => intro s; rfl
  | cons b bs ih =>
    intro s
    rw [emitAll, emitAll, emit_clearTables]
    cases emit b s with
    | none => rfl
    | some t => exact ih t

/-- The completions read the output counter alone of the hidden state, and free the rest. -/
theorem finish_clearTables (s : State) : finish (clearTables s) = finish s := rfl

theorem raise_clearTables (e : ErrCode) (s : State) : raise e (clearTables s) = raise e s := by
  have hlen : (clearTables s).hidden.outLen = s.hidden.outLen := rfl
  unfold raise
  rw [hlen]
  split <;> rfl

/-- An operation whose rule does not read the tables has the same end whatever they hold. -/
theorem operate_clearTables {rule : State → Emission} {s : State}
    (hrule : rule (clearTables s) = rule s) : operate rule (clearTables s) = operate rule s := by
  have habort : abort (clearTables s) = abort s := rfl
  have hdraw : (clearTables s).abortReq = s.abortReq ∧ (clearTables s).draws = s.draws := ⟨rfl, rfl⟩
  have hrange : (clearTables s).rangeOk = s.rangeOk := rfl
  simp only [operate, hrule, habort, hdraw, hrange, raise_clearTables, emitAll_clearTables]
  obtain ⟨t, overflow⟩ := emitAll (rule s).bytes s
  cases overflow with
  | true => simp only [raise_clearTables]
  | false => cases (rule s).error <;> simp only [raise_clearTables, finish_clearTables]

/-- The core's move on any operation is the same whatever the tables hold. -/
theorem operate_ruleOf_clearTables (i : Instr) (s : State) :
    operate (ruleOf i) (clearTables s) = operate (ruleOf i) s :=
  operate_clearTables (ruleOf_congr i rfl rfl rfl)

/-- Settles O20: acceptance clears the output counter, and nothing else of the hidden state is read
by what comes after (`operate_ruleOf_clearTables`). -/
theorem hiddenStateIsNeverObserved : Obligations.HiddenStateIsNeverObserved := by
  intro i s h hready
  have hrun : operate (ruleOf i) (accept i { s with hidden := h })
      = operate (ruleOf i) (accept i s) := by
    rw [← operate_ruleOf_clearTables i (accept i s), ← operate_ruleOf_clearTables]
    rfl
  rw [exec_eq_submit, exec_eq_submit]
  cases hpremise : s.premiseBroken with
  | true =>
    rw [submit_premiseBroken hready hpremise,
      submit_premiseBroken (s := { s with hidden := h }) hready hpremise]
  | false =>
    rw [submit_ready hready hpremise, submit_ready (s := { s with hidden := h }) hready hpremise,
      hrun]

/-! ### Writes while BUSY, and the reset values -/

theorem submit_busy (op : Instr) (run : State → State) {s : State} (hbusy : s.busy = true) :
    submit op run s = .next s := by
  simp [submit, hbusy]

theorem writeCmd_busy (w : Word) {s : State} (hbusy : s.busy = true) : writeCmd w s = .next s := by
  cases hdecode : decode w <;> simp [writeCmd, hdecode, hbusy, exec_eq_submit, submit_busy]

theorem writeReg_busy {r : RegName} (v : Word) {s : State} (hbusy : s.busy = true)
    (hr : r = .srcAddr ∨ r = .srcLen ∨ r = .dstAddr ∨ r = .dstCap ∨ r = .cmd) :
    writeReg r v s = s := by
  obtain rfl | rfl | rfl | rfl | rfl := hr <;> simp [writeReg, hbusy]

/-- A host write is what `writeReg` does, but for CMD and in reset. -/
theorem hostWrite_register {off : BitVec 6} {v : Word} {s : State} {r : RegName}
    (hrst : s.rstN = true) (hoff : regAt off = some r) (hcmd : r ≠ .cmd) :
    hostWrite off v s = .next (writeReg r v s) := by
  cases r with
  | cmd => exact absurd rfl hcmd
  | id | cfg | ctrl | status | errCode | srcAddr | srcLen | dstAddr | dstCap | outLen =>
    simp [hostWrite, hrst, hoff]

theorem hostWrite_cmd {off : BitVec 6} {v : Word} {s : State} (hrst : s.rstN = true)
    (hoff : regAt off = some .cmd) : hostWrite off v s = writeCmd v s := by
  simp [hostWrite, hrst, hoff]

theorem hostWrite_inReset {off : BitVec 6} {v : Word} {s : State} (hrst : s.rstN = false) :
    hostWrite off v s = .next s := by
  simp [hostWrite, hrst]

theorem step_action {s : State} {a : Action} {rest : List Action} (hwf : s.build.wf = true)
    (hagenda : s.agenda = a :: rest) : step s = perform a { s with agenda := rest } := by
  simp [step, hwf, hagenda]

/-- While BUSY a host write of an operand or of CMD has no effect (R54). -/
theorem hostWrite_busy {off : BitVec 6} {v : Word} {s : State} {r : RegName}
    (hbusy : s.busy = true) (hoff : regAt off = some r)
    (hr : r = .srcAddr ∨ r = .srcLen ∨ r = .dstAddr ∨ r = .dstCap ∨ r = .cmd) :
    hostWrite off v s = .next s := by
  cases hrst : s.rstN with
  | false => exact hostWrite_inReset hrst
  | true =>
    by_cases hcmd : r = .cmd
    · rw [hostWrite_cmd hrst (hcmd ▸ hoff), writeCmd_busy v hbusy]
    · rw [hostWrite_register hrst hoff hcmd, writeReg_busy v hbusy hr]

/-- Settles O7: the step takes the write off the agenda, and `hostWrite_busy` ignores it. -/
theorem operandAndCommandWritesWhileBusyAreIgnored :
    Obligations.OperandAndCommandWritesWhileBusyAreIgnored := by
  intro s off v rest r hwf hbusy hoff hr hagenda
  rw [step_action hwf hagenda]
  exact hostWrite_busy (s := { s with agenda := rest }) hbusy hoff hr

/-- Settles O10: each register word of the one reset state is evaluated. -/
theorem resetRegisterValues : Obligations.ResetRegisterValues := by
  unfold Obligations.ResetRegisterValues
  decide

end Sys2Proof.Machine

/-! ## Proofs of the statements of 20_memory.md -/

namespace Sys2Proof.Machine

/-! ### The block writes only its destination region -/

/-- The core's move writes only inside the destination region, from any state of the invariant. -/
theorem fairMove_keepsOutside {s : State} (h : s.Inv) :
    KeepsOutside s (fairMove s) s.dstAddr.toNat s.dstCap.toNat := by
  cases hbusy : s.busy with
  | false => rw [fairMove_idle hbusy]; exact fun _ _ => rfl
  | true =>
    rw [fairMove, if_pos hbusy, coreMove_eq]
    cases s.curOp with
    | none => exact fun _ _ => rfl
    | some i => exact operate_keepsOutside _ (h.noOutput hbusy)

theorem writeReg_mem (r : RegName) (v : Word) (s : State) : (writeReg r v s).mem = s.mem := by
  cases r with
  | srcAddr | srcLen | dstAddr | dstCap => simp only [writeReg]; split <;> rfl
  | id | cfg | ctrl | cmd | status | errCode | outLen => rfl

/-- Of all host writes only that of a command writes the data space, and it does so in the
destination region alone. -/
theorem HostWriteEffect.keepsOutside {off : BitVec 6} {v : Word} {s t : State}
    (h : HostWriteEffect off v s t) : KeepsOutside s t s.dstAddr.toNat s.dstCap.toNat := by
  cases h with
  | ignored | rejected | accepted => exact fun _ _ => rfl
  | register r => exact fun _ _ => by rw [writeReg_mem]
  | completed i => exact operate_keepsOutside (s := accept i s) _ rfl

theorem hostPoll_keepsOutside {s : State} (h : s.Inv) (off : BitVec 6) (hi lo : Nat) (v : Word) :
    KeepsOutside s (hostPoll off hi lo v s) s.dstAddr.toNat s.dstCap.toNat := by
  obtain heq | ⟨agenda, heq⟩ := hostPoll_cases off hi lo v s <;> rw [heq]
  · exact fun _ _ => rfl
  · exact fairMove_keepsOutside (h.hostRead off)

/-- A reset spoils at most the destination region of the operation it abandons (R341). -/
theorem assertReset_keepsOutside (s : State) :
    KeepsOutside s (assertReset s) s.dstAddr.toNat s.dstCap.toNat := by
  unfold assertReset
  split
  · exact spoilDestination_keepsOutside s
  · exact fun _ _ => rfl

/-- An action that is not another agent's write of the byte changes no byte outside the destination
region. -/
theorem perform_keepsByte {s t : State} {act : Action} {a : Nat} (h : s.Inv)
    (ht : perform act s = .next t) (hother : ∀ addr b, act = .dataWrite addr b → addr.toNat ≠ a)
    (ha : a < s.dstAddr.toNat ∨ s.dstAddr.toNat + s.dstCap.toNat ≤ a) :
    Memory.read t.mem a = Memory.read s.mem a := by
  cases act with
  | hostWrite off v => exact (hostWrite_effect ht).keepsOutside a ha
  | poll off hi lo v => cases ht; exact hostPoll_keepsOutside h off hi lo v a ha
  | dataWrite addr b =>
    obtain ⟨rfl, -⟩ := dataWrite_next ht
    exact read_write_other _ b (hother addr b rfl).symm
  | dataRead addr => obtain ⟨b, n, rfl⟩ := dataRead_next ht; rfl
  | assertReset => cases ht; exact assertReset_keepsOutside s a ha
  | proceed =>
    cases ht
    exact fairMove_keepsOutside (h.unseen s.agenda false s.regRdata s.dataRdata s.draws) a ha
  | hostRead | releaseReset | hold => cases ht; rfl

/-- Settles O27: the step is the core's move, or the next action, and neither writes outside the
destination region but by another agent's write. -/
theorem blockWritesOnlyItsDestination : Obligations.BlockWritesOnlyItsDestination := by
  intro s t a h ht hother ha
  obtain ⟨-, ⟨-, rfl⟩ | ⟨act, rest, hagenda, hperform⟩⟩ := step_next ht
  · exact fairMove_keepsOutside h a ha
  · exact perform_keepsByte (s := { s with agenda := rest }) (h.withAgenda rest) hperform
      (fun addr b hact => hother addr b rest (hact ▸ hagenda)) ha

/-! ### Acceptance, and the data space as another agent sees it -/

/-- Settles O23: both sides operate the command's rule on the accepted state. -/
theorem acceptedThenCompletedIsOneStep : Obligations.AcceptedThenCompletedIsOneStep := by
  intro i s hready hpremise
  rw [exec_eq_submit, submit_ready hready hpremise, coreMove_eq, accept_curOp]

theorem regionHas_eq_false_iff {r : Config.Region} {a : Nat} :
    regionHas r a = false ↔ a < r.base ∨ r.base + r.size ≤ a := by
  rw [regionHas, decide_eq_false_iff_not]
  omega

/-- A read that no operation in flight may be writing under returns what the data space holds. -/
theorem dataRead_ordinary {addr : Word} {s : State} (hdevice : s.isDevice addr.toNat = false)
    (hfree : s.busy = false ∨ regionHas s.dstRegion addr.toNat = false) :
    dataRead addr s = .next { s with dataRdata := Memory.read s.mem addr.toNat } := by
  have hbusy : (s.busy && regionHas s.dstRegion addr.toNat) = false := Bool.and_eq_false_iff.2 hfree
  simp [dataRead, hdevice, hbusy]

/-- A write outside both regions of an operation in flight, or while idle, stores the byte. -/
theorem dataWrite_ordinary {addr : Word} {b : Byte} {s : State}
    (hdevice : s.isDevice addr.toNat = false)
    (hfree : s.busy = false ∨
      (regionHas s.srcRegion addr.toNat || regionHas s.dstRegion addr.toNat) = false) :
    dataWrite addr b s = .next { s with mem := Memory.write s.mem addr.toNat b } := by
  have hbusy : (s.busy && (regionHas s.srcRegion addr.toNat || regionHas s.dstRegion addr.toNat))
      = false := Bool.and_eq_false_iff.2 hfree
  simp [dataWrite, hdevice, hbusy]

/-- Settles O31: outside the hazards a read takes the byte of the data space, and a write is a
`Memory.write`, whose reads are `read_write_same` and `read_write_other`. -/
theorem dataSpaceIsMemory : Obligations.DataSpaceIsMemory := by
  refine fun s addr b rest hwf hmem hdevice =>
    ⟨fun hagenda hfree => ?_, fun hagenda hfree => ?_⟩ <;> rw [step_action hwf hagenda]
  · exact dataRead_ordinary (s := { s with agenda := rest }) hdevice
      (hfree.imp_right regionHas_eq_false_iff.2)
  · refine ⟨_, dataWrite_ordinary (s := { s with agenda := rest }) hdevice
      (hfree.imp_right fun ⟨hsrc, hdst⟩ => ?_), read_write_same _ b hmem,
      fun a ha => read_write_other _ b ha, rfl⟩
    exact Bool.or_eq_false_iff.2 ⟨regionHas_eq_false_iff.2 hsrc, regionHas_eq_false_iff.2 hdst⟩

/-! ### The footprint of an operation -/

/-- What a command that is taken emits: what its rule emits, as far as the capacity lets it (R157). -/
def emissionOf (i : Instr) (s : State) : Emission := (ruleOf i (accept i s)).capped s.dstCap.toNat

theorem capped_length_le (cap : Nat) (em : Emission) : (em.capped cap).bytes.length ≤ cap := by
  unfold Emission.capped
  split
  · exact List.length_take_le cap em.bytes
  · next hfits => exact Nat.le_of_not_lt hfits

/-- An error other than OUTPUT_OVERFLOW is the rule's own, raised after all it emits. -/
theorem capped_eq_of_error {cap : Nat} {em : Emission} {e : ErrCode}
    (h : (em.capped cap).error = some e) (he : e ≠ .outputOverflow) : em.capped cap = em := by
  unfold Emission.capped at h ⊢
  split
  · next hfull => rw [if_pos hfull] at h; exact absurd (Option.some.inj h).symm he
  · rfl

theorem emissionOf_length_le (i : Instr) (s : State) :
    (emissionOf i s).bytes.length ≤ s.dstCap.toNat := capped_length_le _ _

theorem emissionOf_emptyDestination (i : Instr) {s : State} (h : s.dstCap = 0) :
    (emissionOf i s).bytes = [] := by
  simpa [h] using emissionOf_length_le i s

/-- How a command that is taken ends, and what that does to the data space (R153, R159, R310;
20_memory.md R91). It needs neither ordinary regions nor a canonical data space. -/
inductive Ending (i : Instr) (s t : State) : Prop where
  | badRange : s.rangeOk = false → FailsClean s t .badRange → Ending i s t
  | finished : s.rangeOk = true → (emissionOf i s).error = none → t.err = false →
      t.errCode = .none → t.outLen.toNat = (emissionOf i s).bytes.length →
      KeepsOutside s t s.dstAddr.toNat (emissionOf i s).bytes.length → Ending i s t
  | raised (e : ErrCode) : s.rangeOk = true → (emissionOf i s).error = some e → Fails s t e →
      ((emissionOf i s).bytes = [] → KeepsMemory s t) → Ending i s t

/-- A ready block that does not stop operates the command's rule on the accepted state. -/
theorem eq_operate_of_exec {i : Instr} {s t : State} (h : s.ready) (ht : exec i s = .next t) :
    t = operate (ruleOf i) (accept i s) := by
  rw [exec_eq_submit] at ht
  cases hpremise : s.premiseBroken with
  | true => rw [submit_premiseBroken h hpremise] at ht; cases ht
  | false => rw [submit_ready h hpremise] at ht; exact (Host.Outcome.next.inj ht).symm

theorem exec_ending {i : Instr} {s t : State} (h : s.ready) (ht : exec i s = .next t) :
    Ending i s t := by
  cases hrange : s.rangeOk with
  | false =>
    obtain ⟨u, hu, hclean⟩ := submit_badRange (op := i) (rule := ruleOf i) h hrange
    rw [← exec_eq_submit, ht] at hu
    cases hu
    exact .badRange hrange hclean
  | true =>
    obtain rfl := eq_operate_of_exec h ht
    have hlen := emissionOf_length_le i s
    obtain ⟨hfits, herr, heq⟩ | ⟨hfits, e, herr, heq⟩ | ⟨hfull, heq⟩ :=
      operate_cases (ruleOf i) (s := accept i s) rfl hrange rfl
    · have hem : emissionOf i s = ruleOf i (accept i s) := if_neg (Nat.not_lt.2 hfits)
      rw [heq, ← hem]
      exact .finished hrange (hem ▸ herr) rfl rfl (emittedState_outLen rfl hlen)
        (emittedState_keepsOutside (s := accept i s) rfl)
    · have hem : emissionOf i s = ruleOf i (accept i s) := if_neg (Nat.not_lt.2 hfits)
      rw [heq, ← hem]
      obtain ⟨hfails, hclean⟩ := raise_fails e (s := accept i s) rfl hlen
      exact .raised e hrange (hem ▸ herr) (fails_of_accept hfails) hclean
    · have hem : emissionOf i s = ⟨(ruleOf i (accept i s)).bytes.take s.dstCap.toNat,
          some .outputOverflow⟩ := if_pos hfull
      rw [heq]
      obtain ⟨hfails, hclean⟩ := raise_fails .outputOverflow (s := accept i s)
        (bs := (ruleOf i (accept i s)).bytes.take s.dstCap.toNat) rfl (List.length_take_le _ _)
      exact .raised _ hrange (hem ▸ rfl) (fails_of_accept hfails) (hem ▸ hclean)

/-- The range check in terms of the operands (R153). -/
theorem rangeOk_iff {s : State} : s.rangeOk = true ↔
    s.srcAddr.toNat + s.srcLen.toNat ≤ Config.spaceSize ∧
      s.dstAddr.toNat + s.dstCap.toNat ≤ Config.spaceSize ∧
      ¬ (0 < s.srcLen.toNat ∧ 0 < s.dstCap.toNat ∧
        s.srcAddr.toNat < s.dstAddr.toNat + s.dstCap.toNat ∧
        s.dstAddr.toNat < s.srcAddr.toNat + s.srcLen.toNat) := by
  rw [State.rangeOk, regionsMeet, Bool.and_eq_true, Bool.and_eq_true, Bool.not_eq_true',
    decide_eq_true_eq, decide_eq_true_eq, decide_eq_false_iff_not, and_assoc]
  rfl

/-- Where the range check passes, no byte of the source lies in the destination region (R153). -/
theorem source_outside_destination {s : State} (h : s.rangeOk = true) {j : Nat}
    (hj : j < s.srcLen.toNat) :
    s.srcAddr.toNat + j < s.dstAddr.toNat ∨
      s.dstAddr.toNat + s.dstCap.toNat ≤ s.srcAddr.toNat + j := by
  have hapart := (rangeOk_iff.1 h).2.2
  omega

/-- Settles O15: `operate_keepsOutside` gives the region, which the range check keeps apart from the
source, and a finished operation has written its OUT_LEN bytes alone. -/
theorem operationFootprint : Obligations.OperationFootprint := by
  intro i s t hready ht
  have hrun := eq_operate_of_exec hready ht
  have hkeep : KeepsOutside s t s.dstAddr.toNat s.dstCap.toNat :=
    hrun ▸ operate_keepsOutside (s := accept i s) (ruleOf i) rfl
  refine ⟨hkeep, fun hrange => ?_, fun hok => ?_⟩
  · have hframe : SameFrame (accept i s) t :=
      hrun ▸ (operate_completes (ruleOf_legal i (accept i s))).frame
    rw [State.source, hframe.srcAddr, hframe.srcLen]
    exact readList_congr fun j hj => hkeep _ (source_outside_destination hrange hj)
  · cases exec_ending hready ht with
    | badRange _ hclean => simp [hclean.fails.err] at hok
    | raised e _ _ hfails => simp [hfails.err] at hok
    | finished _ _ _ _ hlen hwritten =>
      rw [hlen]
      exact ⟨hwritten, emissionOf_length_le i s⟩

/-! ### Errors before the first emit -/

/-- An error of HUF.C comes before any emit: both size checks come first (R192, R200). -/
theorem huffCompress_bytes_of_error {cap : Nat} {src : List Byte} {h : Hidden} {e : ErrCode}
    (he : (huffCompress cap src h).error = some e) : (huffCompress cap src h).bytes = [] := by
  revert he
  unfold huffCompress
  simp only
  split
  · exact fun _ => rfl
  · split
    · exact fun _ => rfl
    · split
      · exact fun _ => rfl
      · exact nofun

/-- What HUF.C emits fits: its size check is exact (R192). -/
theorem huffCompress_length_le (cap : Nat) {src : List Byte} (hl : src.length < 2 ^ 32) (h : Hidden) :
    (huffCompress cap src h).bytes.length ≤ cap := by
  by_cases hne : src.length = 0
  · rw [huffCompress, if_pos hne]
    exact Nat.zero_le cap
  · rw [huffCompress_eq cap hne hl]
    split
    · exact Nat.zero_le cap
    · split
      · exact Nat.zero_le cap
      · next hcap =>
        simp only [Emission.finished, huffStream_length, (packs_packBits _).1]
        exact Nat.le_of_not_lt hcap

/-- The walk raises nothing but CORRUPT_STREAM (R226, R227). -/
theorem walkBits_error {nodes : List Node} {root : Nat} {bits : List Bool} :
    ∀ {cur : Nat} {e : ErrCode},
      (walkBits nodes root cur bits).error = some e → e = .corruptStream := by
  induction bits with
  | nil =>
    intro cur e he
    rw [walkBits] at he
    split at he
    · cases he
    · exact (Option.some.inj he).symm
  | cons bit bits ih =>
    intro cur e he
    rw [walkBits] at he
    split at he
    · exact (Option.some.inj he).symm
    · split at he
      · exact ih he
      · exact ih he

/-- The record loop raises nothing but INVALID_BACK_REFERENCE (R266). -/
theorem lzRecords_error {newest src : List Byte} {e : ErrCode}
    (he : (lzRecords newest src).error = some e) : e = .invalidBackReference := by
  fun_induction lzRecords newest src with
  | case1 _ _ _ _ _ _ _ _ ih => exact ih he
  | case2 => exact (Option.some.inj he).symm
  | case3 _ _ _ _ _ _ _ _ _ ih => exact ih he
  | case4 => cases he

theorem huffPayload_error {src : List Byte} {k n p0 : Nat} {h : Hidden} {e : ErrCode}
    (he : (huffPayload src k n p0 h).error = some e) : e = .corruptStream := by
  unfold huffPayload at he
  split at he
  · split at he
    · cases he
    · exact (Option.some.inj he).symm
  · exact walkBits_error he

/-- An error of HUF.D is one of the header's checks, before any emit, or CORRUPT_STREAM (R220). -/
theorem huffDecompress_bytes_of_error {src : List Byte} {h : Hidden} {e : ErrCode}
    (he : (huffDecompress src h).error = some e) :
    (huffDecompress src h).bytes = [] ∨ e = .corruptStream := by
  revert he
  unfold huffDecompress
  simp only
  split
  · exact fun _ => .inl rfl
  · split
    · exact fun _ => .inl rfl
    · split
      · exact fun _ => .inl rfl
      · split
        · exact fun _ => .inl rfl
        · split
          · exact fun _ => .inl rfl
          · split
            · exact fun _ => .inl rfl
            · exact fun he => .inr (huffPayload_error he)

/-- Every error of a rule but the two of a stream's records comes before any emit (R310). -/
theorem ruleOf_bytes_of_error {i : Instr} {s : State} {e : ErrCode}
    (he : (ruleOf i s).error = some e) :
    (ruleOf i s).bytes = [] ∨ e = .corruptStream ∨ e = .invalidBackReference := by
  cases i with
  | hufC => exact .inl (huffCompress_bytes_of_error he)
  | hufD => exact (huffDecompress_bytes_of_error he).imp_right .inl
  | lzC => cases he
  | rleC =>
    simp only [ruleOf] at he
    cases hsrc : s.source <;> rw [hsrc] at he <;> cases he
  | lzD =>
    simp only [ruleOf, lzDecompress] at he ⊢
    split
    · exact .inl rfl
    · next hlen => rw [if_neg hlen] at he; exact .inr (.inr (lzRecords_error he))
  | rleD =>
    simp only [ruleOf, rleDecompress] at he ⊢
    split
    · exact .inl rfl
    · next hlen => rw [if_neg hlen] at he; cases he

/-- The capacity never cuts HUF.C short. -/
theorem emissionOf_hufC (s : State) : emissionOf .hufC s = ruleOf .hufC (accept .hufC s) := by
  have hsrc : (accept .hufC s).source.length < 2 ^ 32 := by
    rw [length_source]
    exact s.srcLen.isLt
  exact if_neg (Nat.not_lt.2 (huffCompress_length_le s.dstCap.toNat hsrc _))

theorem emissionOf_hufC_error {s : State} {e : ErrCode} (he : (emissionOf .hufC s).error = some e) :
    (emissionOf .hufC s).bytes = [] := by
  rw [emissionOf_hufC] at he ⊢
  exact huffCompress_bytes_of_error he

/-- The rule of a command other than HUF.C does not read the capacity. -/
theorem ruleOf_withCapacity {i : Instr} (hi : i ≠ .hufC) (s : State) (c : Word) :
    ruleOf i (accept i { s with dstCap := c }) = ruleOf i (accept i s) := by
  cases i with
  | hufC => exact absurd rfl hi
  | hufD | lzC | lzD | rleC | rleD => rfl

/-- An empty destination passes the range check where the region did. -/
theorem rangeOk_emptyDestination {s : State} (h : s.rangeOk = true) :
    ({ s with dstCap := 0 } : State).rangeOk = true := by
  obtain ⟨hsrc, -, -⟩ := rangeOk_iff.1 h
  exact rangeOk_iff.2 ⟨hsrc, Nat.le_of_lt s.dstAddr.isLt, fun hmeet => Nat.lt_irrefl 0 hmeet.2.1⟩

/-- A command that also ends in this error with an empty destination emits nothing before it. -/
theorem emissionOf_nil_of_emptyDestination {i : Instr} {s u : State} {e : ErrCode} (h : s.ready)
    (hrange : s.rangeOk = true) (he : (emissionOf i s).error = some e) (hne : e ≠ .none)
    (hover : e ≠ .outputOverflow) (hu : exec i { s with dstCap := 0 } = .next u)
    (hcode : u.errCode = e) : (emissionOf i s).bytes = [] := by
  by_cases hi : i = .hufC
  · subst hi
    exact emissionOf_hufC_error he
  · cases exec_ending (s := { s with dstCap := 0 }) h hu with
    | badRange hbad => rw [rangeOk_emptyDestination hrange] at hbad; cases hbad
    | finished _ _ _ hnone => exact absurd (hcode.symm.trans hnone) hne
    | raised e' _ he' hfails =>
      obtain rfl : e' = e := hfails.errCode.symm.trans hcode
      have hem : emissionOf i s = emissionOf i { s with dstCap := 0 } := by
        rw [emissionOf, capped_eq_of_error he hover, emissionOf, capped_eq_of_error he' hover]
        exact (ruleOf_withCapacity hi s 0).symm
      rw [hem]
      exact emissionOf_emptyDestination i rfl

/-- Settles O16: the emission of a command that ends in one of these errors is empty, and `raise`
then changes no byte. -/
theorem earlyErrorsChangeNoByte : Obligations.EarlyErrorsChangeNoByte := by
  intro i s t hready ht hearly
  cases exec_ending hready ht with
  | badRange _ hclean => exact hclean.clean
  | finished _ _ herr hcode _ hkeep =>
    have hcap : s.dstCap = 0 := by simpa [herr, hcode] using hearly
    intro a
    exact hkeep a (by rw [emissionOf_emptyDestination i hcap]; simp; omega)
  | raised e hrange he hfails hclean =>
    refine hclean ?_
    have hown : e ≠ .outputOverflow → e ≠ .corruptStream → e ≠ .invalidBackReference →
        (emissionOf i s).bytes = [] := fun hover hcorrupt hback => by
      have hem : emissionOf i s = ruleOf i (accept i s) := capped_eq_of_error he hover
      rw [hem] at he ⊢
      obtain hnil | hlate | hlate := ruleOf_bytes_of_error he
      · exact hnil
      · exact absurd hlate hcorrupt
      · exact absurd hlate hback
    rw [hfails.errCode] at hearly
    obtain rfl | rfl | rfl | rfl | ⟨rfl, -⟩ | hcap | ⟨hne, hover, u, hu, hcode⟩ := hearly
    · exact hown nofun nofun nofun
    · exact hown nofun nofun nofun
    · exact hown nofun nofun nofun
    · exact hown nofun nofun nofun
    · exact emissionOf_hufC_error he
    · exact emissionOf_emptyDestination i hcap
    · exact emissionOf_nil_of_emptyDestination hready hrange he hne hover hu hcode

end Sys2Proof.Machine

/-! ## Proofs of the statements of 30_encoding.md -/

namespace Sys2Proof

/-! ### Command words -/

theorem decode_encode (i : Instr) : decode (encode i) = .ok i := by
  cases i <;> rfl

theorem instr_wf (i : Instr) : i.wf = true := by
  cases i <;> rfl

/-- The three fields are the whole of the word (30_encoding.md R111). -/
theorem packFields_cmdFields (w : Word) : packFields (cmdFields w) = w := by
  simp only [packFields, cmdFields]
  rw [BitVec.extractLsb'_append_extractLsb'_eq_extractLsb' (rfl : 3 = 2 + 1),
    BitVec.extractLsb'_append_extractLsb'_eq_extractLsb' (rfl : 2 = 0 + 2), BitVec.extractLsb'_eq_self]

theorem CmdFields.wf_iff {f : CmdFields} : f.wf = true ↔ f.rsvd = 0 ∧ ¬ f.alg = 0 := by
  simp [CmdFields.wf]

/-- The table of R114 has a row for every pair of an algorithm and a direction. -/
theorem exists_fields_eq {f : CmdFields} (h : f.wf = true) : ∃ i : Instr, i.fields = f := by
  obtain ⟨alg, dir, rsvd⟩ := f
  obtain ⟨rfl, hne⟩ : rsvd = 0 ∧ ¬ alg = 0 := CmdFields.wf_iff.1 h
  have halg : ∀ a : BitVec 2, a ≠ 0 → a = 1 ∨ a = 2 ∨ a = 3 := by decide
  have hdir : ∀ d : BitVec 1, d = 0 ∨ d = 1 := by decide
  obtain rfl | rfl | rfl := halg alg hne <;> obtain rfl | rfl := hdir dir
  · exact ⟨.hufC, rfl⟩
  · exact ⟨.hufD, rfl⟩
  · exact ⟨.lzC, rfl⟩
  · exact ⟨.lzD, rfl⟩
  · exact ⟨.rleC, rfl⟩
  · exact ⟨.rleD, rfl⟩

/-- A word with legal fields is the word of a command. -/
theorem exists_encode_eq {w : Word} (h : (cmdFields w).wf = true) : ∃ i, encode i = w := by
  obtain ⟨i, hi⟩ := exists_fields_eq h
  exact ⟨i, by rw [encode, hi, packFields_cmdFields]⟩

/-- Illegal fields are rejected (R115). -/
theorem decode_error_of_not_wf {w : Word} (h : ¬ (cmdFields w).wf = true) :
    ∃ e, decode w = .error e := by
  rw [CmdFields.wf_iff, not_and_or, not_not] at h
  unfold decode
  obtain hrsvd | halg := h
  · exact ⟨_, if_pos hrsvd⟩
  · by_cases hrsvd : (cmdFields w).rsvd = 0
    · exact ⟨.noAlgorithm, by simp [hrsvd, halg]⟩
    · exact ⟨_, if_pos hrsvd⟩

/-- The decoder inverts the encoder, and nothing else decodes to a command. -/
theorem decode_eq_ok_iff {w : Word} {i : Instr} : decode w = .ok i ↔ w = encode i := by
  refine ⟨fun h => ?_, fun h => h ▸ decode_encode i⟩
  by_cases hwf : (cmdFields w).wf = true
  · obtain ⟨j, rfl⟩ := exists_encode_eq hwf
    rw [decode_encode] at h
    rw [Except.ok.inj h]
  · obtain ⟨e, he⟩ := decode_error_of_not_wf hwf
    cases h.symm.trans he

theorem exists_decode_error_iff {w : Word} :
    (∃ e, decode w = .error e) ↔ ¬ (cmdFields w).wf = true := by
  refine ⟨fun ⟨e, he⟩ hwf => ?_, decode_error_of_not_wf⟩
  obtain ⟨i, rfl⟩ := exists_encode_eq hwf
  cases he.symm.trans (decode_encode i)

/-- Legal fields in terms of the word as a number (R112, R115). -/
theorem not_cmdFields_wf_iff {w : Word} :
    ¬ (cmdFields w).wf = true ↔ w.toNat % 4 = 0 ∨ 8 ≤ w.toNat := by
  have hw := w.isLt
  have halg : (cmdFields w).alg = 0 ↔ w.toNat % 4 = 0 := by
    simp [cmdFields, ← BitVec.toNat_inj]
  have hrsvd : (cmdFields w).rsvd = 0 ↔ w.toNat < 8 := by
    simp only [cmdFields, ← BitVec.toNat_inj, BitVec.extractLsb'_toNat,
      Nat.shiftRight_eq_div_pow, BitVec.ofNat_eq_ofNat, BitVec.toNat_ofNat]
    omega
  rw [CmdFields.wf_iff, halg, hrsvd]
  omega

/-- Settles O1: each row of the table is `decode_eq_ok_iff` at that command's word. -/
theorem decodeIsTheCommandTable : Obligations.DecodeIsTheCommandTable := fun _ =>
  ⟨decode_eq_ok_iff, decode_eq_ok_iff, decode_eq_ok_iff, decode_eq_ok_iff, decode_eq_ok_iff,
    decode_eq_ok_iff, exists_decode_error_iff.trans not_cmdFields_wf_iff⟩

/-- Settles O2: the two directions of `decode_eq_ok_iff`. -/
theorem decodeAndEncodeAgree : Obligations.DecodeAndEncodeAgree :=
  ⟨fun i _ => decode_encode i, fun _ i h => ⟨(decode_eq_ok_iff.1 h).symm, instr_wf i⟩⟩

/-- The bits of a command's row in the table, read as a number, are read back as the command. -/
theorem decodeTableWord_encode (i : Instr) : decodeTableWord 32 (encode i).toNat = some i := by
  rw [decodeTableWord, if_pos (Nat.le_refl 32), Nat.mod_eq_of_lt (encode i).isLt,
    BitVec.ofNat_toNat, BitVec.setWidth_eq, decode_encode]

/-- Settles O3: the six words are those of the encoder; the last one has a reserved bit. -/
theorem writtenOutWordsDecode : Obligations.WrittenOutWordsDecode :=
  ⟨decodeTableWord_encode .hufC, decodeTableWord_encode .hufD, decodeTableWord_encode .lzC,
    decodeTableWord_encode .lzD, decodeTableWord_encode .rleC, decodeTableWord_encode .rleD, rfl⟩

end Sys2Proof

namespace Sys2Proof.Machine

/-! ### Host programs -/

/-- A pseudo-instruction for a command is one write of its word to CMD (30_encoding.md R132). -/
theorem programAgenda_command (i : Instr) :
    programAgenda (expand (.command i)) = [.hostWrite 0x0C (encode i)] := rfl

theorem withProgram_nil (s : State) : s.withProgram [] = s := rfl

/-- The last line is put in the data space after the lines before it (R131). -/
theorem withProgram_concat_mem (s : State) (lines : List HostLine) (l : HostLine) :
    (s.withProgram (lines ++ [l])).mem = lineStart (s.withProgram lines).mem l := by
  simp only [withProgram_mem, List.foldl_append, List.foldl_cons, List.foldl_nil]

theorem lineStart_of_ne_mem (m : Memory) {l : HostLine} (h : ∀ base bs, l ≠ .mem base bs) :
    lineStart m l = m := by
  cases l with
  | mem base bs => exact absurd rfl (h base bs)
  | wr _ _ | rd _ | poll _ _ => rfl

/-- A last `mem` line adds no action (R131). -/
theorem withProgram_concat_memLine (s : State) (lines : List HostLine) (base : Word)
    (bs : List Byte) :
    s.withProgram (lines ++ [.mem base bs]) =
      { s.withProgram lines with
        mem := Memory.writeList (s.withProgram lines).mem base.toNat bs } := by
  have hagenda : programAgenda (lines ++ [.mem base bs]) = programAgenda lines := by
    rw [programAgenda_append]
    exact List.append_nil _
  rw [State.withProgram, hagenda, List.foldl_append]
  rfl

/-- Settles O58: the expansions are read off the definitions, and the bytes of a last `mem` line are
a `Memory.writeList` into a canonical data space. -/
theorem pseudoInstructionExpansions : Obligations.PseudoInstructionExpansions := by
  refine ⟨fun _ _ _ _ => rfl, programAgenda_command .hufC, programAgenda_command .hufD,
    programAgenda_command .lzC, programAgenda_command .lzD, programAgenda_command .rleC,
    programAgenda_command .rleD, rfl, rfl, rfl, rfl, fun _ _ => rfl, fun _ => rfl, fun _ _ => rfl,
    programAgenda_append, fun s lines => withProgram_agenda lines s, withProgram_nil,
    fun s lines l hl => ?notMem, fun s lines base bs hmem hlines hfits => ?memLine⟩
  case notMem => rw [withProgram_concat_mem, lineStart_of_ne_mem _ hl]
  case memLine =>
    have hwf := withProgram_wf hmem hlines
    intro u t
    have ht : t = { u with mem := Memory.writeList u.mem base.toNat bs } :=
      withProgram_concat_memLine s lines base bs
    rw [ht]
    exact ⟨rfl, readList_eq fun j hj => read_writeList hwf hfits hj,
      fun a ha => read_writeList_outside _ _ bs ha⟩

end Sys2Proof.Machine

/-! ## Proofs of the statements of 40_dispatch.md -/

namespace Sys2Proof.Machine

/-! ### The range check -/

/-- The errors the rule of each command can raise on its own: neither BAD_RANGE nor ABORTED is one
(60_exceptions.md R300, R313). -/
def ruleErrors : Instr → List ErrCode
  | .hufC => [.lengthOverflow, .outputOverflow]
  | .hufD => [.malformedHeader, .corruptStream]
  | .lzD => [.truncatedRecord, .invalidBackReference]
  | .rleD => [.truncatedRecord]
  | .lzC | .rleC => []

theorem huffCompress_error {cap : Nat} {src : List Byte} {h : Hidden} {e : ErrCode}
    (he : (huffCompress cap src h).error = some e) : e = .lengthOverflow ∨ e = .outputOverflow := by
  revert he
  unfold huffCompress
  simp only
  split
  · exact nofun
  · split
    · exact fun he => .inl (Option.some.inj he).symm
    · split
      · exact fun he => .inr (Option.some.inj he).symm
      · exact nofun

/-- The header's checks raise MALFORMED_HEADER, and the payload CORRUPT_STREAM (R220). -/
theorem huffDecompress_error {src : List Byte} {h : Hidden} {e : ErrCode}
    (he : (huffDecompress src h).error = some e) : e = .malformedHeader ∨ e = .corruptStream := by
  have hheader : (Emission.raised .malformedHeader).error = some e →
      e = .malformedHeader ∨ e = .corruptStream := fun he => .inl (Option.some.inj he).symm
  revert he
  unfold huffDecompress
  simp only
  split
  · exact nofun
  · split
    · exact hheader
    · split
      · exact hheader
      · split
        · exact hheader
        · split
          · exact hheader
          · split
            · exact hheader
            · exact fun he => .inr (huffPayload_error he)

theorem ruleOf_error_mem {i : Instr} {s : State} {e : ErrCode} (he : (ruleOf i s).error = some e) :
    e ∈ ruleErrors i := by
  cases i with
  | hufC => simpa [ruleErrors] using huffCompress_error he
  | hufD => simpa [ruleErrors] using huffDecompress_error he
  | lzC => cases he
  | lzD =>
    simp only [ruleOf, lzDecompress] at he
    split at he
    · cases he; decide
    · rw [lzRecords_error he]; decide
  | rleC =>
    simp only [ruleOf] at he
    cases hsrc : s.source <;> rw [hsrc] at he <;> cases he
  | rleD =>
    simp only [ruleOf, rleDecompress] at he
    split at he
    · cases he; decide
    · cases he

/-- A command that is taken and whose regions are good ends with an error of its own rule, or with
OUTPUT_OVERFLOW. -/
theorem emissionOf_error_mem {i : Instr} {s : State} {e : ErrCode}
    (he : (emissionOf i s).error = some e) : e = .outputOverflow ∨ e ∈ ruleErrors i := by
  by_cases hover : e = .outputOverflow
  · exact .inl hover
  · rw [emissionOf, capped_eq_of_error he hover] at he
    exact .inr (ruleOf_error_mem he)

theorem emissionOf_error_ne_badRange {i : Instr} {s : State} {e : ErrCode}
    (he : (emissionOf i s).error = some e) : e ≠ .badRange := by
  rintro rfl
  obtain hover | hmem := emissionOf_error_mem he
  · cases hover
  · revert hmem
    cases i <;> decide

/-- The range check fails in terms of the operands (R153). -/
theorem rangeOk_eq_false_iff {s : State} : s.rangeOk = false ↔
    Config.spaceSize < s.srcAddr.toNat + s.srcLen.toNat ∨
      Config.spaceSize < s.dstAddr.toNat + s.dstCap.toNat ∨
      (0 < s.srcLen.toNat ∧ 0 < s.dstCap.toNat ∧
        s.srcAddr.toNat < s.dstAddr.toNat + s.dstCap.toNat ∧
        s.dstAddr.toNat < s.srcAddr.toNat + s.srcLen.toNat) := by
  rw [← Bool.not_eq_true, rangeOk_iff, Decidable.not_and_iff_not_or_not,
    Decidable.not_and_iff_not_or_not, Nat.not_le, Nat.not_le, Decidable.not_not]

/-- Settles O13: a failing range check raises BAD_RANGE before the rule runs, and past the range
check the command's own rule raises another error if any. -/
theorem badRangeIsRaisedFirst : Obligations.BadRangeIsRaisedFirst := by
  intro i s hready bad
  have hbad : s.rangeOk = false ↔ bad := rangeOk_eq_false_iff
  refine ⟨fun h => ?_, fun h hordinary => ?_⟩
  · rw [exec_eq_submit]
    exact submit_badRange hready (hbad.2 h)
  · have hrange : s.rangeOk = true := by simpa using mt hbad.1 h
    have ht := acceptedThenCompletedIsOneStep i s hready (premise_of_regionsOk ⟨hrange, hordinary⟩)
    refine ⟨_, ht, ?_⟩
    cases exec_ending hready ht with
    | badRange hfalse => rw [hrange] at hfalse; cases hfalse
    | finished _ _ _ hcode => rw [hcode]; nofun
    | raised e _ he hfails => rw [hfails.errCode]; exact emissionOf_error_ne_badRange he

/-! ### The capacity -/

/-- A smaller second region meets no window that the larger one does not meet. -/
theorem regionsMeet_mono {w : Config.Region} {base n m : Nat} (hle : n ≤ m)
    (h : regionsMeet w ⟨base, m⟩ = false) : regionsMeet w ⟨base, n⟩ = false := by
  simp only [regionsMeet, decide_eq_false_iff_not] at h ⊢
  omega

/-- A smaller destination region is as good as the one it is part of. -/
theorem regionsOk_withSmallerCapacity {s : State} {c : Word} (h : s.regionsOk)
    (hle : c.toNat ≤ s.dstCap.toNat) : State.regionsOk { s with dstCap := c } := by
  obtain ⟨hrange, hordinary⟩ := h
  obtain ⟨hsrc, hdst, hapart⟩ := rangeOk_iff.1 hrange
  refine ⟨rangeOk_iff.2 ⟨hsrc, show s.dstAddr.toNat + c.toNat ≤ _ by omega, ?_⟩,
    List.all_eq_true.2 fun w hw => ?_⟩
  · rintro ⟨hn, hc, hlow, hhigh⟩
    change s.srcAddr.toNat < s.dstAddr.toNat + c.toNat at hlow
    exact hapart ⟨hn, Nat.lt_of_lt_of_le hc hle, by omega, hhigh⟩
  · have hfree := List.all_eq_true.1 hordinary w hw
    simp only [Bool.and_eq_true, Bool.not_eq_true'] at hfree ⊢
    exact ⟨hfree.1, regionsMeet_mono hle hfree.2⟩

/-- What HUF.C emits without error at one capacity, it emits at every capacity that holds it; its
size check fails at the others (R192). -/
theorem huffCompress_withCapacity {cap : Nat} {src : List Byte} {h : Hidden} {out : List Byte}
    (hl : src.length < 2 ^ 32) (hout : huffCompress cap src h = .finished out) (c : Nat) :
    huffCompress c src h = if c < out.length then .raised .outputOverflow else .finished out := by
  by_cases hne : src.length = 0
  · rw [huffCompress, if_pos hne] at hout ⊢
    cases hout
    rfl
  · rw [huffCompress_eq _ hne hl] at hout ⊢
    split at hout
    · cases hout
    · split at hout
      · cases hout
      · next hlen _ =>
        cases hout
        rw [if_neg hlen, huffStream_length, (packs_packBits _).1]

/-- A command whose output fits emits the same at every capacity that holds it, and raises
OUTPUT_OVERFLOW at the others. -/
theorem emissionOf_withCapacity {i : Instr} {s : State} {out : List Byte}
    (hout : emissionOf i s = .finished out) (c : Word) :
    (out.length ≤ c.toNat → emissionOf i { s with dstCap := c } = .finished out) ∧
    (c.toNat < out.length → (emissionOf i { s with dstCap := c }).error = some .outputOverflow) := by
  by_cases hi : i = .hufC
  · subst hi
    have hsrc : s.source.length < 2 ^ 32 := by rw [length_source]; exact s.srcLen.isLt
    rw [emissionOf_hufC] at hout
    have hcap : emissionOf .hufC { s with dstCap := c } = _ :=
      (emissionOf_hufC _).trans (huffCompress_withCapacity hsrc hout c.toNat)
    rw [hcap]
    exact ⟨fun hfits => if_neg (Nat.not_lt.2 hfits), fun hfull => by rw [if_pos hfull]; rfl⟩
  · have hrule : ruleOf i (accept i s) = .finished out := by
      rw [emissionOf, Emission.capped] at hout
      split at hout
      · cases hout
      · exact hout
    rw [emissionOf, ruleOf_withCapacity hi, hrule]
    exact ⟨fun hfits => if_neg (Nat.not_lt.2 hfits), fun hfull => by
      rw [Emission.capped, if_pos (show c.toNat < (Emission.finished out).bytes.length from hfull)]⟩

/-- A completed state has one output. -/
theorem Succeeds.output_unique {s t : State} {out out' : List Byte} (h : Succeeds s t out)
    (h' : Succeeds s t out') : out = out' := by
  have hlen : out.length = out'.length := h.outLen.symm.trans h'.outLen
  calc out = Memory.readList t.mem s.dstAddr.toNat out.length := (readList_eq h.written).symm
    _ = Memory.readList t.mem s.dstAddr.toNat out'.length := by rw [hlen]
    _ = out' := readList_eq h'.written

/-- A command that succeeds has emitted its output without error. -/
theorem emissionOf_of_succeeds {i : Instr} {s t : State} {out : List Byte} (h : s.canRun)
    (ht : exec i s = .next t) (hs : Succeeds s t out) : emissionOf i s = .finished out := by
  have hend : EndsAs s t (emissionOf i s) := exec_endsAs h ht
  generalize emissionOf i s = em at hend ⊢
  obtain ⟨bytes, error⟩ := em
  cases error with
  | none => rw [hs.output_unique hend, Emission.finished]
  | some e => exact absurd (hs.err.symm.trans (Fails.err hend)) nofun

/-- A command that can run completes as its emission asks for. -/
theorem exec_endsAs_emissionOf (i : Instr) {s : State} (h : s.canRun) :
    ∃ t, exec i s = .next t ∧ EndsAs s t (emissionOf i s) := by
  rw [exec_eq_submit]
  exact submit_endsAs h

/-- Settles O18: the output that fitted is the whole emission of the command, which another capacity
either holds or cuts short (`emissionOf_withCapacity`). -/
theorem capacityIsTheOnlyOutputLimit : Obligations.CapacityIsTheOnlyOutputLimit := by
  intro i s t c out hrun ht hs
  have hout := emissionOf_of_succeeds hrun ht hs
  have hlen : out.length ≤ s.dstCap.toNat := by
    have hle := emissionOf_length_le i s
    rwa [hout] at hle
  obtain ⟨hfits, hfull⟩ := emissionOf_withCapacity hout c
  have ⟨hready, hreg, hmem⟩ := hrun
  refine ⟨fun hc hregc => ?_, fun hc => ?_⟩
  · obtain ⟨u, hu, hend⟩ :=
      exec_endsAs_emissionOf i (s := { s with dstCap := c }) ⟨hready, hregc, hmem⟩
    rw [hfits hc] at hend
    exact ⟨u, hu, hend⟩
  · have hregc := regionsOk_withSmallerCapacity hreg (Nat.le_of_lt (Nat.lt_of_lt_of_le hc hlen))
    obtain ⟨u, hu, hend⟩ :=
      exec_endsAs_emissionOf i (s := { s with dstCap := c }) ⟨hready, hregc, hmem⟩
    rw [EndsAs, hfull hc] at hend
    exact ⟨u, hu, hend⟩

/-! ### The abort request -/

/-- The state without an abort request. -/
def clearAbort (s : State) : State := { s with abortReq := false }

/-- The completions do not read the abort request, and clear it. -/
theorem finish_clearAbort (s : State) : finish (clearAbort s) = finish s := rfl

theorem raise_clearAbort (e : ErrCode) (s : State) : raise e (clearAbort s) = raise e s := by
  have hlen : (clearAbort s).hidden.outLen = s.hidden.outLen := rfl
  unfold raise
  rw [hlen]
  split <;> rfl

/-- An abort request that is not honoured changes nothing (R163). -/
theorem operate_clearAbort (i : Instr) {s : State} (hout : s.hidden.outLen = 0)
    (hdraw : Config.abortHonoured s.draws = false) :
    operate (ruleOf i) (clearAbort s) = operate (ruleOf i) s := by
  have hrule : ruleOf i (clearAbort s) = ruleOf i s := ruleOf_congr i rfl rfl rfl
  have hreq : (clearAbort s).abortReq = false := rfl
  have hrange : (clearAbort s).rangeOk = s.rangeOk := rfl
  have hle : s.hidden.outLen.toNat ≤ s.dstCap.toNat := by simp [hout]
  have hemit : ∀ bs, emitAll bs (clearAbort s)
      = (clearAbort (emittedState (bs.take s.room) s), decide (s.room < bs.length)) :=
    fun bs => emitAll_eq bs (s := clearAbort s) hle
  simp only [operate, hreq, hdraw, hrange, hrule, raise_clearAbort, hemit, emitAll_eq _ hle,
    Bool.false_and, Bool.and_false, Bool.false_eq_true, if_false]
  cases decide (s.room < (ruleOf i s).bytes.length) with
  | true => simp only [raise_clearAbort]
  | false => cases (ruleOf i s).error <;> simp only [raise_clearAbort, finish_clearAbort]

/-- An honoured abort request ends the operation with ABORTED (R163). -/
theorem operate_abortHonoured (rule : State → Emission) {s : State} (hreq : s.abortReq = true)
    (hdraw : Config.abortHonoured s.draws = true) : operate rule s = abort s := by
  simp [operate, hreq, hdraw]

theorem abort_fails (s : State) : Fails s (abort s) .aborted where
  frame := (abort_completes s).frame
  idle := (abort_completes s).idle
  err := rfl
  errCode := rfl
  outLen := rfl
  kept := spoilDestination_keepsOutside s

/-- Settles O22: the draw decides between `abort_fails` and the operation as without the request. -/
theorem abortHasTwoOutcomes : Obligations.AbortHasTwoOutcomes := by
  intro s i hinv hop hreq
  have hmove : coreMove s = operate (ruleOf i) s := by rw [coreMove_eq, hop]
  have hbusy : s.busy = true := hinv.opBusy.2 (by simp [hop])
  rw [hmove]
  refine ⟨?_, operate_keepsOutside _ (hinv.noOutput hbusy)⟩
  cases hdraw : Config.abortHonoured s.draws with
  | true =>
    rw [operate_abortHonoured _ hreq hdraw]
    exact .inr (abort_fails s)
  | false =>
    have hclear : coreMove (clearAbort s) = operate (ruleOf i) (clearAbort s) := by
      rw [coreMove_eq, show (clearAbort s).curOp = some i from hop]
    exact .inl ((operate_clearAbort i (hinv.noOutput hbusy) hdraw).symm.trans hclear.symm)

/-! ### The operands and IRQ_EN -/

/-- The registers that no operation changes: the four operands and CTRL.IRQ_EN (R154). -/
def operandsOf (s : State) : Word × Word × Word × Word × Bool :=
  (s.srcAddr, s.srcLen, s.dstAddr, s.dstCap, s.irqEn)

theorem SameFrame.operandsOf_eq {s t : State} (h : SameFrame s t) : operandsOf t = operandsOf s := by
  simp only [operandsOf, h.srcAddr, h.srcLen, h.dstAddr, h.dstCap, h.irqEn]

/-- Where an operand or IRQ_EN changes from `s` to `t`, that register was written; an operand only
while idle (R54). -/
structure OperandChanges (s t : State) (written : RegName → Prop) : Prop where
  srcAddr : t.srcAddr ≠ s.srcAddr → written .srcAddr ∧ s.busy = false
  srcLen  : t.srcLen ≠ s.srcLen → written .srcLen ∧ s.busy = false
  dstAddr : t.dstAddr ≠ s.dstAddr → written .dstAddr ∧ s.busy = false
  dstCap  : t.dstCap ≠ s.dstCap → written .dstCap ∧ s.busy = false
  irqEn   : t.irqEn ≠ s.irqEn → written .ctrl

theorem OperandChanges.of_eq {s t : State} {written : RegName → Prop}
    (h : operandsOf t = operandsOf s) : OperandChanges s t written := by
  simp only [operandsOf, Prod.mk.injEq] at h
  obtain ⟨hsrc, hlen, hdst, hcap, hirq⟩ := h
  exact ⟨absurd hsrc, absurd hlen, absurd hdst, absurd hcap, absurd hirq⟩

theorem OperandChanges.mono {s t : State} {p q : RegName → Prop} (h : OperandChanges s t p)
    (hpq : ∀ r, p r → q r) : OperandChanges s t q where
  srcAddr hne := (h.srcAddr hne).imp_left (hpq _)
  srcLen hne := (h.srcLen hne).imp_left (hpq _)
  dstAddr hne := (h.dstAddr hne).imp_left (hpq _)
  dstCap hne := (h.dstCap hne).imp_left (hpq _)
  irqEn hne := hpq _ (h.irqEn hne)

/-- A host write of a register changes that register alone, an operand only while idle. -/
theorem writeReg_operandChanges (r : RegName) (v : Word) (s : State) :
    OperandChanges s (writeReg r v s) (· = r) := by
  cases r with
  | ctrl => exact ⟨absurd rfl, absurd rfl, absurd rfl, absurd rfl, fun _ => rfl⟩
  | id | cfg | cmd | status | errCode | outLen => exact .of_eq rfl
  | srcAddr | srcLen | dstAddr | dstCap =>
    cases hbusy : s.busy with
    | true => exact .of_eq (by rw [writeReg_busy v hbusy (by simp)])
    | false => constructor <;> simp [writeReg, hbusy]

theorem HostWriteEffect.operandChanges {off : BitVec 6} {v : Word} {s t : State}
    (h : HostWriteEffect off v s t) : OperandChanges s t (regAt off = some ·) := by
  cases h with
  | ignored | rejected | accepted => exact .of_eq rfl
  | register r _ hoff => exact (writeReg_operandChanges r v s).mono fun _ hr => hr ▸ hoff
  | completed i =>
    exact .of_eq (operate_completes (ruleOf_legal i (accept i s))).frame.operandsOf_eq

theorem hostPoll_operandsOf (off : BitVec 6) (hi lo : Nat) (v : Word) (s : State) :
    operandsOf (hostPoll off hi lo v s) = operandsOf s := by
  obtain heq | ⟨agenda, heq⟩ := hostPoll_cases off hi lo v s <;> rw [heq]
  · rfl
  · exact (fairMove_frame (hostRead off s)).operandsOf_eq

/-- The action is a host write of the register. -/
def Writes (a : Action) (r : RegName) : Prop := ∃ off v, a = .hostWrite off v ∧ regAt off = some r

/-- Only a host write of a register and a reset change an operand or IRQ_EN. -/
theorem perform_operandChanges {s t : State} {a : Action} (ha : a ≠ .assertReset)
    (ht : perform a s = .next t) : OperandChanges s t (Writes a) := by
  cases a with
  | hostWrite off v =>
    exact (hostWrite_effect ht).operandChanges.mono fun r hoff => ⟨off, v, rfl, hoff⟩
  | assertReset => exact absurd rfl ha
  | poll off hi lo v => cases ht; exact .of_eq (hostPoll_operandsOf off hi lo v s)
  | dataWrite addr b => obtain ⟨rfl, -⟩ := dataWrite_next ht; exact .of_eq rfl
  | dataRead addr => obtain ⟨b, n, rfl⟩ := dataRead_next ht; exact .of_eq rfl
  | proceed => cases ht; exact .of_eq (fairMove_frame { s with coreHeld := false }).operandsOf_eq
  | hostRead | releaseReset | hold => cases ht; exact .of_eq rfl

/-- The next action on the agenda is a host write of the register. -/
def NextWrites (s : State) (r : RegName) : Prop := ∃ a rest, s.agenda = a :: rest ∧ Writes a r

theorem step_operandChanges {s t : State} (hreset : ∀ rest, s.agenda ≠ .assertReset :: rest)
    (ht : step s = .next t) : OperandChanges s t (NextWrites s) := by
  obtain ⟨-, ⟨-, rfl⟩ | ⟨a, rest, hagenda, hperform⟩⟩ := step_next ht
  · exact .of_eq (fairMove_frame s).operandsOf_eq
  · have ha : a ≠ .assertReset := fun h => hreset rest (h ▸ hagenda)
    obtain ⟨hsrc, hlen, hdst, hcap, hirq⟩ := (perform_operandChanges ha hperform).mono
      (q := NextWrites s) fun _ hwrites => ⟨a, rest, hagenda, hwrites⟩
    exact ⟨hsrc, hlen, hdst, hcap, hirq⟩

/-- Settles O28: every action keeps the operands and IRQ_EN but a write of one of them and a reset. -/
theorem onlyHostWritesChangeOperands : Obligations.OnlyHostWritesChangeOperands := by
  intro s t ht hreset
  obtain ⟨hsrc, hlen, hdst, hcap, hirq⟩ := step_operandChanges hreset ht
  have hoperand : ∀ {r : RegName}, NextWrites s r ∧ s.busy = false → ∃ off v rest,
      s.agenda = .hostWrite off v :: rest ∧ regAt off = some r ∧ s.busy = false :=
    fun ⟨⟨_, rest, hagenda, off, v, hwrite, hoff⟩, hbusy⟩ =>
      ⟨off, v, rest, hwrite ▸ hagenda, hoff, hbusy⟩
  refine ⟨hoperand ∘ hsrc, hoperand ∘ hlen, hoperand ∘ hdst, hoperand ∘ hcap, fun hne => ?_⟩
  obtain ⟨_, rest, hagenda, off, v, rfl, hoff⟩ := hirq hne
  exact ⟨off, v, rest, hagenda, hoff⟩

/-! ### Command words written to CMD -/

/-- A step whose next action is a host write of CMD. -/
theorem step_writeCmd {s : State} {off : BitVec 6} {w : Word} {rest : List Action}
    (hwf : s.build.wf = true) (hrst : s.rstN = true) (hoff : regAt off = some .cmd)
    (hagenda : s.agenda = .hostWrite off w :: rest) :
    step s = writeCmd w { s with agenda := rest } :=
  (step_action hwf hagenda).trans (hostWrite_cmd hrst hoff)

/-- Settles O4: the word decodes to the command, which the core that is not held runs. -/
theorem stepRunsTheWrittenCommand : Obligations.StepRunsTheWrittenCommand := by
  intro s off w rest i hwf hrst hheld hoff hagenda hdecode
  rw [step_writeCmd hwf hrst hoff hagenda]
  simp [writeCmd, hdecode, hheld]

/-- Nothing has been emitted where the output counter is 0. -/
theorem emitted_eq_nil {s : State} (h : s.hidden.outLen = 0) : s.emitted = [] := by
  simp [State.emitted, Memory.readList, h]

/-- Settles O5: the held core leaves the command at its acceptance. -/
theorem heldCommandIsAccepted : Obligations.HeldCommandIsAccepted := by
  intro s off w rest i hwf hready hheld hpremise hoff hagenda hdecode
  refine ⟨accept i { s with agenda := rest }, ?_, rfl, rfl, rfl, rfl, rfl, rfl, rfl, rfl, rfl,
    emitted_eq_nil rfl, rfl, rfl, by constructor <;> rfl⟩
  rw [step_writeCmd hwf hready.2 hoff hagenda, writeCmd, hdecode]
  exact (if_pos hheld).trans (submit_ready (s := { s with agenda := rest }) hready hpremise)

/-- Settles O6: the idle block rejects the word at once, and `reject` changes the results alone. -/
theorem illegalWordIsRejected : Obligations.IllegalWordIsRejected := by
  intro s off w rest e hwf hready hoff hagenda hdecode
  refine ⟨reject { s with agenda := rest }, ?_, rfl, rfl, rfl, rfl, hready.1, rfl, rfl, rfl, rfl,
    rfl, by constructor <;> rfl⟩
  rw [step_writeCmd hwf hready.2 hoff hagenda]
  simp [writeCmd, hdecode, hready.1]

/-! ### Host writes of the other registers -/

theorem step_writeReg {s : State} {off : BitVec 6} {v : Word} {rest : List Action} {r : RegName}
    (hwf : s.build.wf = true) (hrst : s.rstN = true) (hagenda : s.agenda = .hostWrite off v :: rest)
    (hoff : regAt off = some r) (hcmd : r ≠ .cmd) :
    step s = .next (writeReg r v { s with agenda := rest }) :=
  (step_action hwf hagenda).trans (hostWrite_register hrst hoff hcmd)

theorem hostWrite_reserved {off : BitVec 6} {v : Word} {s : State} (hoff : regAt off = none) :
    hostWrite off v s = .next s := by
  cases hrst : s.rstN <;> simp [hostWrite, hrst, hoff]

/-- A bit of a word, as a digit of the number. -/
theorem getLsbD_eq_digit (v : Word) (k : Nat) : v.getLsbD k = decide (v.toNat / 2 ^ k % 2 = 1) := by
  rw [BitVec.getLsbD, Nat.testBit_eq_decide_div_mod_eq]

/-- CTRL is written as a number: bit 0 is IRQ_EN, and bit 1 posts an abort request while BUSY (R42,
R43). -/
theorem writeCtrl_eq (v : Word) (s : State) : s.writeCtrl v = { s with
    irqEn := v.toNat % 2 == 1
    abortReq := if s.busy = true ∧ v.toNat / 2 % 2 = 1 then true else s.abortReq } := by
  have hirq : v.getLsbD 0 = (v.toNat % 2 == 1) := by
    rw [getLsbD_eq_digit, Nat.pow_zero, Nat.div_one]
    rfl
  have hreq : (s.abortReq || (s.busy && v.getLsbD 1))
      = if s.busy = true ∧ v.toNat / 2 % 2 = 1 then true else s.abortReq := by
    rw [getLsbD_eq_digit]
    cases s.busy <;> by_cases hbit : v.toNat / 2 % 2 = 1 <;> simp [hbit]
  rw [State.writeCtrl, hirq, hreq]

/-- A 1 written to bit 1 or 2 of STATUS clears DONE or ERR, and a 0 keeps it (R46, R47). -/
theorem writeStatus_eq (v : Word) (s : State) : s.writeStatus v = { s with
    done := if v.toNat / 2 % 2 = 1 then false else s.done
    err := if v.toNat / 4 % 2 = 1 then false else s.err } := by
  have hclear : ∀ (b : Bool) (k : Nat),
      (b && !v.getLsbD k) = if v.toNat / 2 ^ k % 2 = 1 then false else b := by
    intro b k
    rw [getLsbD_eq_digit]
    by_cases hbit : v.toNat / 2 ^ k % 2 = 1 <;> simp [hbit]
  rw [State.writeStatus, hclear, hclear]
  rfl

/-- Settles O8: the write reaches `writeReg` of its register, or none at a reserved offset. -/
theorem hostWriteEffects : Obligations.HostWriteEffects := by
  intro s off v rest hwf hrst hagenda
  have hstep : ∀ {r : RegName}, regAt off = some r → r ≠ .cmd →
      step s = .next (writeReg r v { s with agenda := rest }) := step_writeReg hwf hrst hagenda
  refine ⟨fun hoff hbusy => ?srcAddr, fun hoff hbusy => ?srcLen, fun hoff hbusy => ?dstAddr,
    fun hoff hbusy => ?dstCap, fun hoff => ?ctrl, fun hoff => ?status, fun hoff => ?others⟩
  case srcAddr | srcLen | dstAddr | dstCap =>
    rw [hstep hoff nofun]
    simp [writeReg, hbusy]
  case ctrl => rw [hstep hoff nofun, writeReg, writeCtrl_eq]
  case status => rw [hstep hoff nofun, writeReg, writeStatus_eq]
  case others =>
    obtain hoff | hoff | hoff | hoff | hoff := hoff
    iterate 4 exact hstep hoff nofun
    exact (step_action hwf hagenda).trans (hostWrite_reserved hoff)

/-! ### Host reads -/

/-- The register map by word index: four offsets a register, 0x2C to 0x3C reserved (R34, R37, R39). -/
theorem regAt_eq_getElem? : ∀ off : BitVec 6,
    regAt off = [RegName.id, .cfg, .ctrl, .cmd, .status, .errCode, .srcAddr, .srcLen, .dstAddr,
      .dstCap, .outLen][off.toNat / 4]? := by
  decide

theorem hostRead_released {off : BitVec 6} {s : State} (hrst : s.rstN = true) :
    hostRead off s = { s with regRdata := readOffset off s } := by
  simp [hostRead, hostReadValue, hrst]

theorem readOffset_eq {off : BitVec 6} {s : State} {r : RegName} (hoff : regAt off = some r) :
    readOffset off s = readReg r s := by
  simp [readOffset, hoff]

theorem readOffset_reserved {off : BitVec 6} {s : State} (hoff : regAt off = none) :
    readOffset off s = 0 := by
  simp [readOffset, hoff]

/-- Fields side by side, as a number. -/
theorem toNat_append_field {m n : Nat} (x : BitVec m) (y : BitVec n) :
    (x ++ y).toNat = x.toNat * 2 ^ n + y.toNat := by
  rw [BitVec.toNat_append, ← Nat.shiftLeft_add_eq_or_of_lt y.isLt, Nat.shiftLeft_eq]

theorem cfgWord_toNat (s : State) :
    s.cfgWord.toNat = s.build.lookaheadSize.toNat * 2 ^ 16 + s.build.windowSize.toNat := by
  simp only [State.cfgWord, toNat_append_field, BitVec.toNat_ofNat, Nat.zero_mod, Nat.zero_mul,
    Nat.zero_add]

theorem ctrlWord_toNat (s : State) : s.ctrlWord.toNat = s.irqEn.toNat := by
  simp only [State.ctrlWord, toNat_append_field, BitVec.toNat_ofBool, BitVec.toNat_ofNat,
    Nat.zero_mod, Nat.zero_mul, Nat.zero_add]

theorem statusWord_toNat (s : State) :
    s.statusWord.toNat = s.busy.toNat + 2 * s.done.toNat + 4 * s.err.toNat := by
  simp only [State.statusWord, toNat_append_field, BitVec.toNat_ofBool, BitVec.toNat_ofNat]
  omega

theorem errCodeWord_toNat (s : State) : s.errCodeWord.toNat = s.errCode.code.toNat := by
  simp only [State.errCodeWord, toNat_append_field, BitVec.toNat_ofNat, Nat.zero_mod, Nat.zero_mul,
    Nat.zero_add]

/-- Settles O9: out of reset the value read is `readReg` of the register at the offset. -/
theorem hostReadReturnsTheRegister : Obligations.HostReadReturnsTheRegister := by
  intro s off rest hwf hrst hagenda
  have hstep : step s = .next (hostRead off { s with agenda := rest }) := step_action hwf hagenda
  refine ⟨readOffset off s, hstep.trans (congrArg _ (hostRead_released hrst)),
    regAt_eq_getElem? off, readOffset_eq, fun hoff => ?_, fun hoff => ?_, readOffset_eq,
    fun hoff => ?_, fun hoff => ?_, readOffset_eq, readOffset_eq, readOffset_eq, readOffset_eq,
    readOffset_eq, readOffset_reserved⟩
  · rw [readOffset_eq hoff]; exact cfgWord_toNat s
  · rw [readOffset_eq hoff]; exact ctrlWord_toNat s
  · rw [readOffset_eq hoff]; exact statusWord_toNat s
  · rw [readOffset_eq hoff]; exact errCodeWord_toNat s

end Sys2Proof.Machine

/-! ## Proofs of the statements of 41_huffman.md -/

namespace Sys2Proof.Machine

/-! ### The tree and the leaves -/

/-- Settles O46: the invariant of the merge loop holds of the finished arena, each of whose merges is
an `IsMerge`. -/
theorem treeMergesTheTwoLightest : Obligations.TreeMergesTheTwoLightest := by
  intro leaves hne hk nodes
  obtain ⟨hsize, hroot⟩ := treeOf_size hne hk
  have hinv := treeOf_inv hne hk
  refine ⟨Nat.eq_sub_of_add_eq hsize, hroot, fun e p hp => ?_, hinv.merges⟩
  have he : e < leaves.length := (List.getElem?_eq_some_iff.1 hp).1
  rw [hinv.leaf e he, leafNodes_getElem?, hp]
  rfl

/-- Settles O47: the live weights add up to those of the leaves, and the root alone is live. -/
theorem rootWeightIsTheSum : Obligations.RootWeightIsTheSum := by
  intro leaves hne hk
  simpa using (treeOf_inv hne hk).sum

/-- Settles O45: a leaf is a present value with its count, which an input of this length keeps below
`2 ^ 32`. -/
theorem leavesAreTheByteCounts : Obligations.LeavesAreTheByteCounts := by
  intro src h hlen leaves
  have hmem : ∀ v f, (v, f) ∈ leaves ↔ v ∈ src ∧ f = BitVec.ofNat 32 (src.count v) := fun v f => by
    rw [mem_leavesOf, countFreq_present, countFreq_freq]
  refine ⟨leavesOf_sorted _, fun ⟨v, f⟩ hp => ?_, fun v => ?_⟩
  · obtain ⟨hv, rfl⟩ := (hmem v f).1 hp
    have hcount : src.count v < 2 ^ 32 := Nat.lt_of_le_of_lt List.count_le_length hlen
    have hpos : 0 < src.count v := List.count_pos_iff.2 hv
    rw [BitVec.toNat_ofNat, Nat.mod_eq_of_lt hcount]
    exact ⟨rfl, hpos⟩
  · exact ⟨fun hv => ⟨_, (hmem v _).2 ⟨hv, rfl⟩⟩, fun ⟨f, hf⟩ => ((hmem v f).1 hf).1⟩

/-! ### The codes -/

/-- Settles O49: each code leads the decoder from its root to a leaf of its value, and a path to a leaf
is no proper part of another. -/
theorem codesArePrefixFree : Obligations.CodesArePrefixFree := fun _ _ _ hv hu hne hprefix =>
  hne (reaches_prefix (decoder_reaches hv).1 (decoder_reaches hu).1 hprefix).1

/-- Settles O48: with two symbols or more by `code_reaches`, with one by `code_single`. -/
theorem codesArePathsToLeaves : Obligations.CodesArePathsToLeaves := by
  intro h v hv g k
  have hpos : 1 ≤ k := leavesOf_pos hv
  obtain h1 | h2 : k = 1 ∨ 2 ≤ k := by omega
  · have hcode : tableAt g.code v = [false] := (code_single hv h1).2
    exact ⟨fun h2 => absurd h2 (by omega), fun _ => hcode, by simp [hcode], by simp [hcode]⟩
  · obtain ⟨hpath, hmin, hmax⟩ := code_reaches hv h2
    exact ⟨fun _ => hpath, fun h1 => absurd h2 (by omega), hmin,
      Nat.le_trans (Nat.le_sub_one_of_lt hmax) (Nat.le_max_right _ _)⟩

/-- Entries of different values are entered in either order. -/
theorem enterFreq_comm {v u : Byte} (hne : v ≠ u) (f g : Word) (h : Hidden) :
    enterFreq u g (enterFreq v f h) = enterFreq v f (enterFreq u g h) := by
  have hidx : v.toNat ≠ u.toNat := fun e => hne (BitVec.eq_of_toNat_eq e)
  simp only [enterFreq, tablePut, Vector.set_comm _ _ hidx]

/-- The FrequencyTable of a header with distinct values is the same for every order of its entries
(R222). -/
theorem enterAll_perm {es fs : List (Byte × Word)} (hn : (es.map Prod.fst).Nodup)
    (hperm : es.Perm fs) (h : Hidden) : enterAll es h = enterAll fs h := by
  refine hperm.foldl_eq' (fun p hp q hq g => ?_) h
  by_cases hv : p.1 = q.1
  · rw [List.inj_on_of_nodup_map hn hp hq hv]
  · exact enterFreq_comm hv p.2 q.2 g

/-- Settles O50: both orders make one FrequencyTable. -/
theorem tablesIgnoreEntryOrder : Obligations.TablesIgnoreEntryOrder := fun _ _ h hn hperm =>
  congrArg tablesOf (enterAll_perm hn hperm (clearFreq h))

/-! ### From the rule of a command to its completion -/

/-- A command that can run ends as its rule asks for where the output fits, and in OUTPUT_OVERFLOW
where it does not. -/
theorem exec_of_emission {i : Instr} {s : State} {em : Emission} (h : s.canRun)
    (hem : ruleOf i (accept i s) = em) :
    (em.bytes.length ≤ s.dstCap.toNat → ∃ t, exec i s = .next t ∧ EndsAs s t em) ∧
    (s.dstCap.toNat < em.bytes.length → ∃ t, exec i s = .next t ∧ Fails s t .outputOverflow) := by
  obtain ⟨t, ht, hend⟩ := exec_endsAs_emissionOf i h
  rw [emissionOf, hem, Emission.capped] at hend
  refine ⟨fun hfits => ⟨t, ht, ?_⟩, fun hfull => ⟨t, ht, ?_⟩⟩
  · rwa [if_neg (Nat.not_lt.2 hfits)] at hend
  · rwa [if_pos hfull] at hend

/-- A command whose rule raises an error before any emit ends in it and changes no byte (R310). -/
theorem exec_failsClean {i : Instr} {s : State} {e : ErrCode} (hready : s.ready) (hreg : s.regionsOk)
    (hem : ruleOf i (accept i s) = .raised e) :
    ∃ t, exec i s = .next t ∧ FailsClean s t e := by
  obtain ⟨t, ht, hfails, hclean⟩ := submit_fails (op := i) (rule := ruleOf i) hready hreg
    (by rw [hem]; rfl) (by rw [hem]; exact Nat.zero_le _)
  exact ⟨t, (exec_eq_submit i s).trans ht, hfails, hclean (by rw [hem]; rfl)⟩

/-! ### HUF.C -/

theorem source_length_lt (s : State) : s.source.length < 2 ^ 32 := by
  rw [length_source]
  exact s.srcLen.isLt

/-- The rule of HUF.C does not read the hidden state of the accepted command. -/
theorem ruleOf_hufC (s : State) :
    ruleOf .hufC (accept .hufC s) = huffCompress s.dstCap.toNat s.source s.hidden :=
  huffCompress_congr _ _ _ _

/-- Settles O51: the three clauses are the three branches of `huffCompress_eq`. -/
theorem huffmanCompressEmitsTheStream : Obligations.HuffmanCompressEmitsTheStream := by
  intro s hrun hlen g bits size
  have hne : s.source.length ≠ 0 := by
    rw [length_source]
    exact fun e => hlen (BitVec.eq_of_toNat_eq e)
  have hrule : ruleOf .hufC (accept .hufC s) =
      if 2 ^ 32 - 1 < bits.length then .raised .lengthOverflow
      else if s.dstCap.toNat < size then .raised .outputOverflow
      else .finished (huffStream (leavesOf g) bits.length (packBits 0 0 bits)) :=
    (ruleOf_hufC s).trans (huffCompress_eq s.dstCap.toNat hne (source_length_lt s) s.hidden)
  refine ⟨fun hlong => ?tooLong, fun hshort hfits => ?fits, fun hshort hfull => ?full⟩
  case tooLong =>
    rw [if_pos (Nat.lt_of_lt_of_le (by decide) hlong)] at hrule
    exact exec_failsClean hrun.1 hrun.2.1 hrule
  case full =>
    rw [if_neg (Nat.not_lt.2 (Nat.le_sub_one_of_lt hshort)), if_pos hfull] at hrule
    exact exec_failsClean hrun.1 hrun.2.1 hrule
  case fits =>
    rw [if_neg (Nat.not_lt.2 (Nat.le_sub_one_of_lt hshort)),
      if_neg (Nat.not_lt.2 hfits)] at hrule
    have hpacks := packs_packBits bits
    have hout : (huffStream (leavesOf g) bits.length (packBits 0 0 bits)).length = size := by
      rw [huffStream_length, hpacks.1]
    obtain ⟨t, ht, hsucc⟩ := (exec_of_emission hrun hrule).1 (hout.trans_le hfits)
    exact ⟨t, _, ht, hpacks, hsucc, hsucc.outLen.trans hout⟩

/-! ### HUF.D -/

/-- `src` is a stream of the header entries `es` whose packed field starts with `bits`: the padding
bits and the trailing bytes are free (30_encoding.md R121, R122; R222, R224). -/
structure IsHuffStream (src : List Byte) (es : List (Byte × Word)) (bits : List Bool)
    (packed trailing : List Byte) : Prop where
  distinct : (es.map Prod.fst).Nodup
  short    : bits.length < 2 ^ 32
  size     : packed.length = ceilDiv bits.length 8
  holds    : ∀ i, i < bits.length → packedBit packed i = bits.getD i false
  eq       : src = huffStream es bits.length packed ++ trailing

/-- The bit walk of HUF.D from the root of its tree (R220). -/
def decodeBits (h : Hidden) (bits : List Bool) : Emission :=
  walkBits (decoderOf h).nodes (decoderOf h).root (decoderOf h).root bits

theorem decodeBits_nil (h : Hidden) : decodeBits h [] = .finished [] := if_pos rfl

/-- The rule of HUF.D on a stream with symbols is the walk over its bits (R220). -/
theorem IsHuffStream.huffDecompress_eq {src packed trailing : List Byte} {es : List (Byte × Word)}
    {bits : List Bool} (hs : IsHuffStream src es bits packed trailing) (hne : es ≠ []) (h : Hidden) :
    huffDecompress src h = decodeBits (enterAll es (clearFreq h)) bits := by
  rw [hs.eq]
  exact huffDecompress_walk hne hs.distinct hs.short hs.size hs.holds h

/-- The rule of HUF.D on a stream that starts with the codes of `xs`: they are emitted, and it ends as
the walk over the bits after them does. -/
theorem IsHuffStream.decodes {src packed trailing : List Byte} {es : List (Byte × Word)}
    {xs : List Byte} {rest : List Bool} {h : Hidden} {e : Option ErrCode}
    (hs : IsHuffStream src es (xs.flatMap (tableAt (tablesOf (enterAll es (clearFreq h))).code) ++ rest)
      packed trailing)
    (hne : es ≠ []) (hxs : ∀ x ∈ xs, x ∈ es.map Prod.fst)
    (hrest : decodeBits (enterAll es (clearFreq h)) rest = ⟨[], e⟩) :
    huffDecompress src h = ⟨xs, e⟩ := by
  have hpresent : ∀ x ∈ xs, tableAt (enterAll es (clearFreq h)).present x = true := fun x hx =>
    (enterAll_present hs.distinct h x).2 (hxs x hx)
  rw [hs.huffDecompress_eq hne, decodeBits, walkBits_codes xs hpresent, ← decodeBits, hrest,
    Emission.after, List.append_nil]

/-- The rule of HUF.D does not read the hidden state of the accepted command. -/
theorem ruleOf_hufD (s : State) : ruleOf .hufD (accept .hufD s) = huffDecompress s.source s.hidden :=
  huffDecompress_congr _ _ _

/-- Settles O55: after the codes of `xs` no bit is left, so the walk ends at the root. -/
theorem huffmanDecompressDecodesTheCodes : Obligations.HuffmanDecompressDecodesTheCodes := by
  intro s entries xs packed trailing hrun hne hn hxs g bits hb hp hbits hsrc
  have hs : IsHuffStream s.source entries (bits ++ []) packed trailing := by
    rw [List.append_nil]
    exact ⟨hn, hb, hp, hbits, hsrc⟩
  exact exec_of_emission (em := .finished xs) hrun
    ((ruleOf_hufD s).trans (hs.decodes hne hxs (decodeBits_nil _)))

/-- Settles O56: after the codes of `xs` the walk over the part of a code is corrupt
(`walkBits_inside`). -/
theorem huffmanEndInsideCodeword : Obligations.HuffmanEndInsideCodeword := by
  intro s entries xs packed trailing y part hrun hn hxs hy g bits hpart hprefix hproper hb hp hbits
    hsrc
  have hs : IsHuffStream s.source entries bits packed trailing := ⟨hn, hb, hp, hbits, hsrc⟩
  have hne : entries ≠ [] := by
    rintro rfl
    simp at hy
  have hcorrupt := walkBits_inside ((enterAll_present hn s.hidden y).2 hy) hpart hprefix hproper
  exact exec_of_emission (em := ⟨xs, some .corruptStream⟩) hrun
    ((ruleOf_hufD s).trans (hs.decodes hne hxs hcorrupt))

/-- Settles O53: the header has no entries, so no bit of the packed field is walked. -/
theorem huffmanZeroSymbols : Obligations.HuffmanZeroSymbols := by
  intro s bitLength packed trailing hready hreg hb hp hsrc
  have hrule : ruleOf .hufD (accept .hufD s)
      = if bitLength = 0 then .finished [] else .raised .corruptStream := by
    rw [ruleOf_hufD, hsrc, huffDecompress_eq (es := []) List.nodup_nil hb hp]
    exact if_pos rfl
  refine ⟨fun hzero => ?_, fun hpos => ?_⟩
  · rw [if_pos hzero] at hrule
    exact ⟨_, exec_finished_nil hready hreg hrule, finish_accept_succeeds .hufD s⟩
  · rw [if_neg (Nat.ne_of_gt hpos)] at hrule
    exact exec_failsClean hready hreg hrule

/-! ### One symbol -/

theorem oneEntry_nodup (v : Byte) (f : Word) : ([(v, f)].map Prod.fst).Nodup :=
  List.nodup_singleton v

/-- The FrequencyTable of a header with one entry. -/
def oneEntry (v : Byte) (f : Word) (h : Hidden) : Hidden := enterAll [(v, f)] (clearFreq h)

/-- Its only leaf is its value's, whose code is `"0"` (R183). -/
theorem oneEntry_code (v : Byte) (f : Word) (h : Hidden) :
    leavesOf (oneEntry v f h) = [(v, tableAt (oneEntry v f h).freq v)] ∧
      tableAt (tablesOf (oneEntry v f h)).code v = [false] :=
  code_single ((enterAll_present (oneEntry_nodup v f) h v).2 (List.mem_singleton_self v))
    (leavesOf_enterAll_length (oneEntry_nodup v f) h)

/-- A bit 1 selects the missing child of the virtual root (R225, R226). -/
theorem oneEntry_true_corrupt (v : Byte) (f : Word) (h : Hidden) (rest : List Bool) :
    decodeBits (oneEntry v f h) (true :: rest) = .raised .corruptStream := by
  obtain ⟨hnodes, hroot⟩ := decoderOf_single (oneEntry_code v f h).1
  rw [decodeBits, hnodes, hroot]
  rfl

/-- Bits 0 are the codes of the only symbol (R225). -/
theorem IsHuffStream.decodes_oneEntry {src packed trailing : List Byte} {v : Byte} {f : Word} {n : Nat}
    {rest : List Bool} {h : Hidden} {e : Option ErrCode}
    (hs : IsHuffStream src [(v, f)] (List.replicate n false ++ rest) packed trailing)
    (hrest : decodeBits (oneEntry v f h) rest = ⟨[], e⟩) :
    huffDecompress src h = ⟨List.replicate n v, e⟩ := by
  have hcodes : (List.replicate n v).flatMap (tableAt (tablesOf (oneEntry v f h)).code)
      = List.replicate n false := by
    rw [List.flatMap_replicate, (oneEntry_code v f h).2, List.flatten_replicate_singleton]
  rw [← hcodes] at hs
  exact hs.decodes (List.cons_ne_nil _ _)
    (fun x hx => List.mem_singleton.2 (List.eq_of_mem_replicate hx)) hrest

/-- The first `n` bits of a packed field (R122). -/
def fieldBits (packed : List Byte) (n : Nat) : List Bool := (List.range n).map (packedBit packed)

theorem fieldBits_zeros {packed : List Byte} {n : Nat}
    (h : ∀ i, i < n → packedBit packed i = false) : fieldBits packed n = List.replicate n false :=
  List.eq_replicate_iff.2 ⟨by simp [fieldBits], fun b hb => by
    obtain ⟨i, hi, rfl⟩ := List.mem_map.1 hb
    exact h i (List.mem_range.1 hi)⟩

/-- A field whose bit `j` is the first 1. -/
theorem fieldBits_first_one {packed : List Byte} {n j : Nat} (hj : j < n)
    (hone : packedBit packed j = true) (hzeros : ∀ i, i < j → packedBit packed i = false) :
    ∃ rest, fieldBits packed n = List.replicate j false ++ true :: rest := by
  obtain ⟨m, rfl⟩ := Nat.exists_eq_add_of_lt hj
  have hsplit : fieldBits packed (j + m + 1) = fieldBits packed j ++
      packedBit packed j :: (List.range m).map fun i => packedBit packed (j + (i + 1)) := by
    simp [fieldBits, Nat.add_assoc, List.range_add, List.range_succ_eq_map, Function.comp_def]
  exact ⟨_, by rw [hsplit, fieldBits_zeros hzeros, hone]⟩

/-- The stream whose bits are those of its packed field. -/
theorem isHuffStream_fieldBits {src packed trailing : List Byte} {es : List (Byte × Word)} {n : Nat}
    (hn : (es.map Prod.fst).Nodup) (hb : n < 2 ^ 32) (hp : packed.length = ceilDiv n 8)
    (hsrc : src = huffStream es n packed ++ trailing) :
    IsHuffStream src es (fieldBits packed n) packed trailing := by
  have hlen : (fieldBits packed n).length = n := by simp [fieldBits]
  refine ⟨hn, hlen.symm ▸ hb, hlen.symm ▸ hp, fun i hi => ?_, hlen.symm ▸ hsrc⟩
  simp [fieldBits, hlen ▸ hi]

/-- Settles O54: `bitLength` bits 0 are the codes of as many symbols; `j` of them and a bit 1 are the
codes of `j` symbols and a corrupt bit. -/
theorem huffmanOneSymbol : Obligations.HuffmanOneSymbol := by
  intro s v f bitLength packed trailing hrun hb hp hsrc
  have hs := isHuffStream_fieldBits (oneEntry_nodup v f) hb hp hsrc
  refine ⟨fun hzeros => ?zeros, fun j hj hone hzeros => ?one⟩
  case zeros =>
    rw [fieldBits_zeros hzeros, ← List.append_nil (List.replicate _ _)] at hs
    simpa [EndsAs] using exec_of_emission hrun
      ((ruleOf_hufD s).trans (hs.decodes_oneEntry (decodeBits_nil _)))
  case one =>
    obtain ⟨rest, hbits⟩ := fieldBits_first_one hj hone hzeros
    rw [hbits] at hs
    simpa [EndsAs] using exec_of_emission hrun
      ((ruleOf_hufD s).trans (hs.decodes_oneEntry (oneEntry_true_corrupt v f s.hidden rest)))

/-! ### The round trip -/

theorem leavesOf_nodup (h : Hidden) : ((leavesOf h).map Prod.fst).Nodup :=
  List.pairwise_map.2 ((leavesOf_sorted h).imp fun hlt => BitVec.ne_of_lt hlt)

/-- What HUF.C emits without error for a non-empty input is a stream of its leaves and codes
(R200). -/
theorem huffCompress_isHuffStream {cap : Nat} {src out : List Byte} {h : Hidden} (hne : src ≠ [])
    (hlen : src.length < 2 ^ 32) (hout : huffCompress cap src h = .finished out) :
    ∃ packed, IsHuffStream out (leavesOf (countFreq src h))
      (src.flatMap (tableAt (tablesOf (countFreq src h)).code)) packed [] := by
  rw [huffCompress_eq cap (fun e => hne (List.eq_nil_of_length_eq_zero e)) hlen] at hout
  split at hout
  · cases hout
  · next hshort =>
    split at hout
    · cases hout
    · cases hout
      obtain ⟨hsize, hbits⟩ :=
        packs_packBits (src.flatMap (tableAt (tablesOf (countFreq src h)).code))
      refine ⟨_, leavesOf_nodup _, by omega, hsize, fun i hi => hbits i ?_,
        (List.append_nil _).symm⟩
      rw [hsize, ceilDiv_eight]
      omega

/-- HUF.D of what HUF.C emits gives the input back (R230): the header makes the same leaves, so the
same codes. -/
theorem huffDecompress_huffCompress {cap : Nat} {src out : List Byte} {h : Hidden}
    (hlen : src.length < 2 ^ 32) (hout : huffCompress cap src h = .finished out) (h' : Hidden) :
    huffDecompress out h' = .finished src := by
  by_cases hne : src = []
  · subst hne
    cases hout
    rfl
  · obtain ⟨packed, hs⟩ := huffCompress_isHuffStream hne hlen hout
    have hleaf : ∀ {x}, x ∈ src →
        (x, tableAt (countFreq src h).freq x) ∈ leavesOf (countFreq src h) :=
      fun hx => mem_leavesOf_of_present ((countFreq_present src h _).2 hx)
    obtain ⟨x, hx⟩ := List.exists_mem_of_ne_nil src hne
    rw [← tablesOf_code_congr (leavesOf_enterAll_leavesOf _ h'), ← List.append_nil (src.flatMap _)]
      at hs
    exact hs.decodes (List.ne_nil_of_mem (hleaf hx)) (fun y hy => List.mem_map_of_mem (hleaf hy))
      (decodeBits_nil _)

/-! ### Reading back what a command wrote -/

/-- A command that can run and ends without error has emitted its output. -/
theorem exec_succeeds {i : Instr} {s t : State} (h : s.canRun) (ht : exec i s = .next t)
    (hok : t.err = false) : ∃ out, emissionOf i s = .finished out ∧ Succeeds s t out := by
  have hend : EndsAs s t (emissionOf i s) := exec_endsAs h ht
  generalize emissionOf i s = em at hend ⊢
  obtain ⟨bytes, error⟩ := em
  cases error with
  | none => exact ⟨bytes, rfl, hend⟩
  | some e => exact absurd (hok.symm.trans (Fails.err hend)) nofun

/-- A command that completes leaves the block able to run the next one. -/
theorem exec_canRun {i : Instr} {s t u : State} (h : s.canRun) (ht : exec i s = .next t)
    (hu : u.regionsOk) (hbusy : u.busy = t.busy) (hrst : u.rstN = t.rstN) (hmem : u.mem = t.mem) :
    u.canRun := by
  obtain ⟨hready, hreg, hwf⟩ := h
  obtain rfl := eq_operate_of_exec hready ht
  have hdone := operate_completes (ruleOf_legal i (accept i s))
  exact ⟨⟨hbusy.trans hdone.idle.busy, hrst.trans (hdone.frame.rstN.trans hready.2)⟩, hu,
    hmem ▸ operate_wf (ruleOf i) hwf rfl⟩

/-- The bytes that a success has written are its output. -/
theorem Succeeds.readBack {s t : State} {out : List Byte} (h : Succeeds s t out) :
    Memory.readList t.mem s.dstAddr.toNat t.outLen.toNat = out := by
  rw [h.outLen]
  exact readList_eq h.written

/-- Settles O57: the source of the second command is what the first one emitted, which
`huffDecompress_huffCompress` decodes. -/
theorem huffmanRoundTrip : Obligations.HuffmanRoundTrip := by
  intro s t d c hrun ht hok u hreg hcap
  obtain ⟨out, hem, hsucc⟩ := exec_succeeds hrun ht hok
  have hsrc : u.source = out := hsucc.readBack
  have hcomp : huffCompress s.dstCap.toNat s.source s.hidden = .finished out := by
    rw [← ruleOf_hufC, ← emissionOf_hufC, hem]
  have hrule : ruleOf .hufD (accept .hufD u) = .finished s.source := by
    rw [ruleOf_hufD, hsrc]
    exact huffDecompress_huffCompress (source_length_lt s) hcomp u.hidden
  refine (exec_of_emission (exec_canRun hrun ht hreg rfl rfl rfl) hrule).1 ?_
  exact (length_source s).trans_le hcap

end Sys2Proof.Machine

/-! ## Proofs of the statements of 42_lz77.md -/

namespace Sys2Proof.Machine

/-! ### The greedy stream of an input -/

/-- The stream `out` is what LZ.C emits for the source of `s` (42_lz77.md R244, R250). -/
abbrev State.GreedyStream (s : State) (out : List Byte) : Prop :=
  LzParse s.build.windowSize.toNat s.build.lookaheadSize.toNat s.source 0 out

theorem exists_greedyStream (s : State) : ∃ out, s.GreedyStream out :=
  ⟨_, lzParse_scan s.source s.build.windowSize.isLt s.source.length 0 (Nat.sub_le _ _)⟩

theorem ruleOf_lzC {s : State} {out : List Byte} (h : s.GreedyStream out) :
    ruleOf .lzC (accept .lzC s) = .finished out :=
  congrArg Emission.finished
    (lzScan_of_parse s.build.windowSize.isLt h s.source.length (Nat.sub_le _ _))

/-- An emission that ends without error has fitted. -/
theorem capped_eq_of_finished {cap : Nat} {em : Emission} (h : (em.capped cap).error = none) :
    em.capped cap = em := by
  unfold Emission.capped at h ⊢
  split
  · next hfull => rw [if_pos hfull] at h; exact absurd h nofun
  · rfl

/-- What LZ.C has written after a completion without error is the greedy stream. -/
theorem exec_lzC_greedyStream {s t : State} (h : s.canRun) (ht : exec .lzC s = .next t)
    (hok : t.err = false) : ∃ out, s.GreedyStream out ∧ Succeeds s t out := by
  obtain ⟨out, hparse⟩ := exists_greedyStream s
  obtain ⟨written, hem, hsucc⟩ := exec_succeeds h ht hok
  have hcapped : emissionOf .lzC s = ruleOf .lzC (accept .lzC s) :=
    capped_eq_of_finished (by rw [← emissionOf, hem]; rfl)
  rw [hem, ruleOf_lzC hparse] at hcapped
  obtain rfl : written = out := congrArg Emission.bytes hcapped
  exact ⟨written, hparse, hsucc⟩

/-- Every record takes four bytes and covers one byte of the input or more (R251). -/
theorem lzParse_length {window lookahead : Nat} {src : List Byte} {pos : Nat} {out : List Byte}
    (h : LzParse window lookahead src pos out) :
    out.length % 4 = 0 ∧ out.length ≤ 4 * (src.length - pos) ∧
      (pos < src.length → 4 ≤ out.length) := by
  induction h with
  | done pos hend => exact ⟨rfl, Nat.zero_le _, fun hlt => absurd hlt (Nat.not_lt.2 hend)⟩
  | backReference pos d l rest hpos _ _ _ ih =>
    simp only [List.length_cons]
    omega
  | literal pos rest hpos _ _ ih =>
    simp only [List.length_cons]
    omega

/-- LZ.D of a greedy stream gives the input back: the stream expands to it, whatever the window and
the lookahead it was made with (R270, R344). -/
theorem lzDecompress_greedyStream {s : State} {out : List Byte} (h : s.GreedyStream out) :
    lzDecompress out = .finished s.source :=
  lzDecompress_of_expands
    (lzExpands_of_parse s.build.windowSize.isLt s.build.lookaheadSize.isLt h (Nat.zero_le _))

/-- Settles O44: the source of LZ.D is the greedy stream that LZ.C wrote, which
`lzDecompress_greedyStream` decodes without a look at the build. -/
theorem lzRoundTrip : Obligations.LzRoundTrip := by
  intro s t d c b hrun ht hok u hreg hcap
  obtain ⟨out, hparse, hsucc⟩ := exec_lzC_greedyStream hrun ht hok
  have hsrc : u.source = out := hsucc.readBack
  have hrule : ruleOf .lzD (accept .lzD u) = .finished s.source :=
    (congrArg lzDecompress hsrc).trans (lzDecompress_greedyStream hparse)
  refine (exec_of_emission (exec_canRun hrun ht hreg rfl rfl rfl) hrule).1 ?_
  exact (length_source s).trans_le hcap

/-! ### LZ.C -/

/-- Settles O38: a match that is found is the best one, and no candidate is longer than what the
search answers. -/
theorem matchSearchFindsTheBestMatch : Obligations.MatchSearchFindsTheBestMatch := by
  intro window lookahead src pos _ m
  refine ⟨findMatch_best, fun hnone d l hcand => ?_⟩
  have hle : l ≤ m.2 := candidate_le_findMatch hcand
  exact Nat.eq_zero_of_le_zero (hnone ▸ hle)

/-- Settles O39: the emission of LZ.C is the greedy stream, and ends without error. -/
theorem lzCompressEmitsTheGreedyStream : Obligations.LzCompressEmitsTheGreedyStream :=
  fun _ _ hrun hparse => exec_of_emission hrun (ruleOf_lzC hparse)

/-- Settles O40: the greedy stream has the length of `lzParse_length`, so it fits into `4n` bytes. -/
theorem lzCompressSize : Obligations.LzCompressSize := by
  intro s hrun
  refine ⟨fun t ht hok => ?_, fun hcap => ?_⟩
  · obtain ⟨out, hparse, hsucc⟩ := exec_lzC_greedyStream hrun ht hok
    rw [hsucc.outLen]
    simpa using lzParse_length hparse
  · obtain ⟨out, hparse⟩ := exists_greedyStream s
    obtain ⟨-, hmost, -⟩ := lzParse_length hparse
    obtain ⟨t, ht, hsucc⟩ := (exec_of_emission hrun (ruleOf_lzC hparse)).1
      (hmost.trans (by simpa using hcap))
    exact ⟨t, ht, hsucc.err⟩

/-! ### LZ.D -/

/-- Settles O42: the rule of LZ.D emits what valid records expand to. -/
theorem lzDecompressExpandsTheRecords : Obligations.LzDecompressExpandsTheRecords :=
  fun _ out hrun hexp =>
    exec_of_emission (i := .lzD) (em := .finished out) hrun (lzDecompress_of_expands hexp)

/-- A record whose distance does not lie in the output so far ends LZ.D before any byte of it is
emitted (R266). -/
theorem lzRecords_invalid {out rest : List Byte} {d0 d1 l c : Byte}
    (hbad : (recordDistance d0 d1 = 0 ∧ l ≠ 0) ∨ out.length < recordDistance d0 d1) :
    lzRecords out.reverse (d0 :: d1 :: l :: c :: rest) = ⟨out, some .invalidBackReference⟩ := by
  simp only [lzRecords, rdBe16_toNat, List.length_reverse, List.reverse_reverse]
  rcases hbad with ⟨hzero, hlen⟩ | hfar
  · rw [if_neg (fun h => hlen h.2), if_pos (.inl hzero)]
  · rw [if_neg (fun h => by omega), if_pos (.inr hfar)]

/-- LZ.D of valid records and an invalid one after them emits what the valid ones expand to, and
ends in INVALID_BACK_REFERENCE (R266). -/
theorem lzDecompress_invalid {good out rest : List Byte} {d0 d1 l c : Byte}
    (hrest : rest.length % 4 = 0) (hexp : LzExpands [] good out)
    (hbad : (recordDistance d0 d1 = 0 ∧ l ≠ 0) ∨ out.length < recordDistance d0 d1) :
    lzDecompress (good ++ d0 :: d1 :: l :: c :: rest) = ⟨out, some .invalidBackReference⟩ := by
  have hgood := lzExpands_length hexp
  have hwhole : (good ++ d0 :: d1 :: l :: c :: rest).length % 4 = 0 := by
    simp only [List.length_append, List.length_cons]
    omega
  rw [lzDecompress, if_neg (not_not.2 hwhole)]
  exact (lzRecords_of_expands hexp _).trans (lzRecords_invalid hbad)

/-- Settles O43: the emission is the output of the good records and then the error, which is raised
only where that output fits. -/
theorem lzInvalidBackReference : Obligations.LzInvalidBackReference := by
  intro s good out rest d0 d1 l c hrun hsrc hrest hexp hbad
  have hrule : ruleOf .lzD (accept .lzD s) = ⟨out, some .invalidBackReference⟩ :=
    (congrArg lzDecompress hsrc).trans (lzDecompress_invalid hrest hexp hbad)
  refine ⟨fun hfits => ?_, (exec_of_emission hrun hrule).2⟩
  obtain ⟨hready, hreg, -⟩ := hrun
  have hfails := submit_fails (op := .lzD) hready hreg (congrArg Emission.error hrule)
    (by rwa [hrule])
  rwa [hrule, ← exec_eq_submit] at hfails

end Sys2Proof.Machine

/-! ## Proofs of the statements of 43_rle.md -/

namespace Sys2Proof.Machine

/-! ### The records of RLE.C -/

/-- A completion without error has written the whole emission of the command's rule. -/
theorem exec_succeeds_ruleOf {i : Instr} {s t : State} (h : s.canRun) (ht : exec i s = .next t)
    (hok : t.err = false) : Succeeds s t (ruleOf i (accept i s)).bytes := by
  obtain ⟨out, hem, hsucc⟩ := exec_succeeds h ht hok
  have hfits : emissionOf i s = ruleOf i (accept i s) :=
    capped_eq_of_finished (congrArg Emission.error hem)
  rwa [← hfits, hem]

theorem rleRecords_length (runs : List (Nat × Byte)) :
    (rleRecords runs).length = 2 * runs.length := by
  induction runs with
  | nil => rfl
  | cons r runs ih =>
    simp only [rleRecords, rleRecord, List.flatMap_cons, List.length_append, List.length_cons,
      List.length_nil] at ih ⊢
    omega

/-- The count bytes are the bytes at even places (30_encoding.md R129). -/
theorem byteAt_rleRecords_count {runs : List (Nat × Byte)} {j : Nat} (hj : j < runs.length) :
    byteAt (rleRecords runs) (2 * j) = BitVec.ofNat 8 runs[j].1 := by
  induction runs generalizing j with
  | nil => exact absurd hj (Nat.not_lt_zero j)
  | cons r runs ih =>
    cases j with
    | zero => rfl
    | succ j => exact ih (Nat.lt_of_succ_lt_succ hj)

theorem countByte_ne_zero {c : Nat} (hc : 1 ≤ c ∧ c ≤ 255) : BitVec.ofNat 8 c ≠ 0 := by
  intro hzero
  have hmod : c % 256 = 0 := congrArg BitVec.toNat hzero
  omega

/-- A scan emits one record a run, of 1 to 255 bytes, and opens a run only at an input byte (R281). -/
theorem rleScan_exists_runs (v : Byte) (src : List Byte) {c : Nat} (hc : 1 ≤ c ∧ c ≤ 255) :
    ∃ runs, rleScan v c src = rleRecords runs ∧ (∀ r ∈ runs, 1 ≤ r.1 ∧ r.1 ≤ 255) ∧
      runs.length ≤ src.length + 1 := by
  induction src generalizing v c with
  | nil => exact ⟨[(c, v)], rfl, by simpa using hc, le_rfl⟩
  | cons b src ih =>
    rw [rleScan]
    split
    · next hsame =>
      obtain ⟨runs, hscan, hcount, hlen⟩ := ih v (c := c + 1) ⟨by omega, hsame.2⟩
      exact ⟨runs, hscan, hcount, Nat.le_succ_of_le hlen⟩
    · obtain ⟨runs, hscan, hcount, hlen⟩ := ih b (c := 1) (by decide)
      exact ⟨(c, v) :: runs, by rw [hscan]; rfl, List.forall_mem_cons.2 ⟨hc, hcount⟩,
        Nat.succ_le_succ hlen⟩

theorem rleCompress_exists_runs (src : List Byte) :
    ∃ runs, (rleCompress src).bytes = rleRecords runs ∧ (∀ r ∈ runs, 1 ≤ r.1 ∧ r.1 ≤ 255) ∧
      runs.length ≤ src.length := by
  cases src with
  | nil => exact ⟨[], rfl, by simp, le_rfl⟩
  | cons b src => exact rleScan_exists_runs b src (by decide)

/-! ### The round trip -/

/-- Settles O37: the source of RLE.D is what RLE.C emitted, which `rleDecompress_compress` decodes. -/
theorem rleRoundTrip : Obligations.RleRoundTrip := by
  intro s t d c hrun ht hok u hreg hcap
  have hsrc : u.source = (rleCompress s.source).bytes :=
    (exec_succeeds_ruleOf hrun ht hok).readBack
  have hrule : ruleOf .rleD (accept .rleD u) = .finished s.source :=
    (congrArg rleDecompress hsrc).trans (rleDecompress_compress s.source)
  refine (exec_of_emission (exec_canRun hrun ht hreg rfl rfl rfl) hrule).1 ?_
  exact (length_source s).trans_le hcap

/-! ### RLE.C -/

/-- Settles O33: the rule of RLE.C emits the records of the runs, two bytes each. -/
theorem rleCompressEmitsTheRuns : Obligations.RleCompressEmitsTheRuns := by
  intro s runs hrun hruns
  rw [← rleRecords_length]
  exact exec_of_emission (i := .rleC) hrun (rleCompress_of_runs hruns)

/-- Settles O34: the output is the records of runs of 1 to 255 bytes, no more of them than input
bytes. -/
theorem rleCompressSize : Obligations.RleCompressSize := by
  intro s t hrun ht hok
  have hsucc : Succeeds s t (rleCompress s.source).bytes := exec_succeeds_ruleOf hrun ht hok
  obtain ⟨runs, hout, hcount, hmost⟩ := rleCompress_exists_runs s.source
  rw [hout] at hsucc
  rw [length_source] at hmost
  have hlen : t.outLen.toNat = 2 * runs.length := hsucc.outLen.trans (rleRecords_length runs)
  refine ⟨by omega, by omega, fun j hj => ?_⟩
  have hj' : j < runs.length := by omega
  rw [hsucc.written _ (by rwa [← hsucc.outLen]), byteAt_rleRecords_count hj']
  exact countByte_ne_zero (hcount runs[j] (List.getElem_mem hj'))

/-! ### RLE.D, and streams that are cut short -/

/-- RLE.D of a list of records expands them all, whatever their counts (R292, R294). -/
theorem rleDecompress_records (recs : List (Byte × Byte)) :
    rleDecompress (recs.flatMap fun r => [r.1, r.2])
      = .finished (recs.flatMap fun r => List.replicate r.1.toNat r.2) := by
  have heven : (recs.flatMap fun r => [r.1, r.2]).length % 2 = 0 := by
    simp [List.length_flatMap]
  rw [rleDecompress, if_neg (not_not.2 heven), rleExpand_records]

/-- Settles O35: the rule of RLE.D emits the expansion of the records. -/
theorem rleDecompressExpandsTheRecords : Obligations.RleDecompressExpandsTheRecords :=
  fun _ recs hrun hsrc =>
    exec_of_emission (i := .rleD) hrun
      ((congrArg rleDecompress hsrc).trans (rleDecompress_records recs))

/-- Settles O36: both rules test the length before they look at a record. -/
theorem truncatedStreamsAreRefusedFirst : Obligations.TruncatedStreamsAreRefusedFirst := by
  intro s hready hreg
  refine ⟨fun hodd => ?_, fun hcut => ?_⟩
  · have hlen : s.source.length % 2 ≠ 0 := by rw [length_source, hodd]; decide
    exact exec_failsClean (i := .rleD) hready hreg (if_pos hlen)
  · have hlen : s.source.length % 4 ≠ 0 := by rwa [length_source]
    exact exec_failsClean (i := .lzD) hready hreg (if_pos hlen)

end Sys2Proof.Machine

/-! ## Proofs of the statements of 60_exceptions.md -/

namespace Sys2Proof.Machine

/-! ### The completion of a command -/

theorem accept_frame (op : Instr) (s : State) : SameFrame s (accept op s) := by
  constructor <;> rfl

/-- A command that is taken completes in one step (R160). -/
theorem exec_completes (i : Instr) {s : State} (hready : s.ready) (hpremise : s.premiseBroken = false) :
    ∃ t, exec i s = .next t ∧ Completes s t := by
  refine ⟨operate (ruleOf i) (accept i s), ?_, ?_⟩
  · rw [exec_eq_submit, submit_ready hready hpremise]
  · exact (operate_completes (ruleOf_legal i _)).of_frame (accept_frame i s)

/-- The interrupt line after a completion is the enable bit, since DONE is set (R320). -/
theorem Completes.irq {s t : State} (h : Completes s t) : t.irq = s.irqEn := by
  rw [State.irq, h.idle.done, h.frame.irqEn, Bool.true_and]

/-- The codes a completion can report: none, those every command shares, and those of the command's
own rule (R300). -/
def completionCodes (i : Instr) : List ErrCode :=
  .none :: .badRange :: .outputOverflow :: ruleErrors i

theorem exec_errCode_mem {i : Instr} {s t : State} (hready : s.ready) (ht : exec i s = .next t) :
    t.errCode ∈ completionCodes i := by
  cases exec_ending hready ht with
  | badRange _ hclean => simp [completionCodes, hclean.fails.errCode]
  | finished _ _ _ hcode => simp [completionCodes, hcode]
  | raised e _ he hfails =>
    rw [hfails.errCode]
    obtain rfl | hrule := emissionOf_error_mem he
    · simp [completionCodes]
    · simp [completionCodes, hrule]

/-- A command that is taken reports neither an illegal command word, which is rejected, nor an abort,
which no one has requested (R152, R163). -/
theorem completionCodes_excludes (i : Instr) :
    .unsupportedAlgorithm ∉ completionCodes i ∧ .aborted ∉ completionCodes i := by
  cases i <;> decide

/-- Settles O14: the operation of the accepted command completes (`operate_completes`), with one of
the codes of `completionCodes`. -/
theorem everyTakenCommandCompletes : Obligations.EveryTakenCommandCompletes := by
  intro i s hready hpremise
  obtain ⟨t, ht, hcomp⟩ := exec_completes i hready hpremise
  have hcode := exec_errCode_mem hready ht
  obtain ⟨hillegal, haborted⟩ := completionCodes_excludes i
  exact ⟨t, ht, hcomp.frame, hcomp.idle, hcomp.irq, hcomp.coded, hcomp.length,
    ne_of_mem_of_not_mem hcode hillegal, ne_of_mem_of_not_mem hcode haborted⟩

/-- Settles O17: the codes of `completionCodes` are those the statement lists for each command. -/
theorem errorCodesOfEachCommand : Obligations.ErrorCodesOfEachCommand := by
  intro i s t hready ht
  have hcode := exec_errCode_mem hready ht
  cases i <;> exact List.subset_def.1 (by decide) hcode

/-! ### Malformed Huffman headers -/

/-- The checks of HUF.D on a non-empty stream: the two count bytes, at most 256 symbols, all the
entries and the bit length, distinct values, and the packed field (R220, R222, R224). -/
structure HuffHeaderOk (src : List Byte) : Prop where
  count    : 2 ≤ src.length
  symbols  : (be16At src 0).toNat ≤ 256
  entries  : 6 + 5 * (be16At src 0).toNat ≤ src.length
  distinct : ∀ e f, e < f → f < (be16At src 0).toNat →
    byteAt src (2 + 5 * e) ≠ byteAt src (2 + 5 * f)
  packed   : ceilDiv (be32At src (2 + 5 * (be16At src 0).toNat)).toNat 8 ≤
    src.length - (6 + 5 * (be16At src 0).toNat)

/-- A stream that fails a check of its header ends in MALFORMED_HEADER before any emit (R301). -/
theorem huffDecompress_malformed {src : List Byte} (hne : src.length ≠ 0) (hbad : ¬ HuffHeaderOk src)
    (h : Hidden) : huffDecompress src h = .raised .malformedHeader := by
  rw [huffDecompress, if_neg hne]
  dsimp only
  split
  · rfl
  rename_i hcount
  split
  · rfl
  rename_i hsymbols
  split
  · rfl
  rename_i hentries
  split
  · rfl
  rename_i g hread
  split
  · rfl
  rename_i hpacked
  obtain ⟨-, hdistinct⟩ := readEntries_distinct _ hread
  refine absurd ?_ hbad
  exact {
    count := Nat.le_of_not_lt hcount
    symbols := Nat.le_of_not_lt hsymbols
    entries := Nat.le_of_not_lt hentries
    distinct := fun e f hlt hf => hdistinct e f (Nat.zero_le e) hlt (by omega)
    packed := Nat.le_of_not_lt hpacked }

/-- Settles O52: each cause fails one check of the header. -/
theorem huffmanMalformedHeaders : Obligations.HuffmanMalformedHeaders := by
  intro s hready hreg src n k bitLength hcause
  have hk : (be16At src 0).toNat = k := rdBe16_toNat _ _
  have hne : src.length ≠ 0 := by
    obtain hone | ⟨htwo, -⟩ | ⟨htwo, -⟩ | ⟨hentries, -⟩ | ⟨hentries, -⟩ := hcause <;> omega
  have hbad : ¬ HuffHeaderOk src := by
    rintro ⟨hcount, hsymbols, hentries, hdistinct, hpacked⟩
    rw [hk] at hsymbols hentries hdistinct hpacked
    obtain hone | ⟨-, hmany⟩ | ⟨-, hcut⟩ | ⟨-, e, f, hlt, hf, hsame⟩ | ⟨-, hshort⟩ := hcause
    · omega
    · exact Nat.not_lt.2 hsymbols hmany
    · exact Nat.not_lt.2 hentries hcut
    · exact hdistinct e f hlt hf hsame
    · exact Nat.not_lt.2 hpacked hshort
  exact exec_failsClean hready hreg
    ((ruleOf_hufD s).trans (huffDecompress_malformed hne hbad s.hidden))

/-! ### The acknowledgement -/

/-- The value 6 has the bits of DONE and ERR set, which are write-1-to-clear (R46, R47). -/
@[simp] theorem acknowledge_done (s : State) : (acknowledge s).done = false := Bool.and_false _

@[simp] theorem acknowledge_err (s : State) : (acknowledge s).err = false := Bool.and_false _

/-- With DONE clear the interrupt line is low (R320). -/
@[simp] theorem acknowledge_irq (s : State) : (acknowledge s).irq = false := by simp [State.irq]

theorem acknowledge_frame (s : State) : SameFrame s (acknowledge s) := by
  constructor <;> rfl

/-- Settles O59: the line `ack` is a host write of STATUS, whose effect is `acknowledge`. -/
theorem acknowledgeClearsDoneAndErr : Obligations.AcknowledgeClearsDoneAndErr := by
  intro s rest hwf hrst hagenda
  exact ⟨acknowledge { s with agenda := rest }, step_writeReg hwf hrst hagenda rfl nofun,
    acknowledge_done _, acknowledge_err _, acknowledge_irq _, rfl, rfl, rfl, rfl,
    acknowledge_frame _⟩

end Sys2Proof.Machine

/-! ## Proofs of the statements of 70_reset_and_hazards.md -/

namespace Sys2Proof.Machine

/-! ### The agenda -/

theorem writeReg_agenda (r : RegName) (v : Word) (s : State) :
    (writeReg r v s).agenda = s.agenda := by
  cases r with
  | srcAddr | srcLen | dstAddr | dstCap => simp only [writeReg]; split <;> rfl
  | id | cfg | ctrl | cmd | status | errCode | outLen => rfl

theorem HostWriteEffect.agenda_eq {off : BitVec 6} {v : Word} {s t : State}
    (h : HostWriteEffect off v s t) : t.agenda = s.agenda := by
  cases h with
  | ignored | rejected | accepted => rfl
  | register r => exact writeReg_agenda r v s
  | completed i => exact (operate_completes (ruleOf_legal i (accept i s))).frame.agenda

theorem assertReset_agenda (s : State) : (assertReset s).agenda = s.agenda := by
  unfold assertReset
  split <;> rfl

/-- Only a poll puts an action back on the agenda. -/
theorem perform_agenda {s t : State} {a : Action} (ha : ∀ off hi lo v, a ≠ .poll off hi lo v)
    (ht : perform a s = .next t) : t.agenda = s.agenda := by
  cases a with
  | hostWrite off v => exact (hostWrite_effect ht).agenda_eq
  | poll off hi lo v => exact absurd rfl (ha off hi lo v)
  | dataWrite addr b => obtain ⟨rfl, -⟩ := dataWrite_next ht; rfl
  | dataRead addr => obtain ⟨b, n, rfl⟩ := dataRead_next ht; rfl
  | assertReset => cases ht; exact assertReset_agenda s
  | proceed => cases ht; exact (fairMove_frame { s with coreHeld := false }).agenda
  | hostRead | releaseReset | hold => cases ht; rfl

/-! ### Polls -/

/-- A poll whose field holds the number is the host read alone (30_encoding.md R131). -/
theorem step_poll_satisfied {s : State} {off : BitVec 6} {hi lo : Nat} {v : Word}
    {rest : List Action} (hwf : s.build.wf = true) (hagenda : s.agenda = .poll off hi lo v :: rest)
    (hfield : fieldOf hi lo (hostReadValue off s) = v.toNat) :
    step s = .next (hostRead off { s with agenda := rest }) :=
  (step_action hwf hagenda).trans (congrArg Host.Outcome.next (if_pos hfield))

/-- A poll whose field does not hold the number leaves a busy core its move, and comes next again
(R131, R360). -/
theorem step_poll_unsatisfied {s : State} {off : BitVec 6} {hi lo : Nat} {v : Word}
    {rest : List Action} (hwf : s.build.wf = true) (hagenda : s.agenda = .poll off hi lo v :: rest)
    (hfield : fieldOf hi lo (hostReadValue off s) ≠ v.toNat) :
    step s = .next
      { fairMove (hostRead off { s with agenda := rest }) with agenda := s.agenda } := by
  refine (step_action hwf hagenda).trans (congrArg Host.Outcome.next ((if_neg hfield).trans ?_))
  rw [hagenda]
  simp only [(fairMove_frame (hostRead off { s with agenda := rest })).agenda, hostRead_agenda]

/-- A block out of reset shows DONE in bit 1 of STATUS (10_state.md R46). -/
theorem fieldOf_statusDone {s : State} (hrst : s.rstN = true) :
    fieldOf 1 1 (hostReadValue (offsetOf .status) s) = s.done.toNat := by
  have hword : hostReadValue (offsetOf .status) s = s.statusWord := if_pos hrst
  have hbusy := s.busy.toNat_lt
  have hdone := s.done.toNat_lt
  rw [hword, fieldOf, statusWord_toNat]
  omega

/-- The line `wait` is a poll of STATUS.DONE (30_encoding.md R132). -/
theorem programAgenda_wait (rest : List Action) :
    programAgenda (expand .wait) ++ rest = .poll (offsetOf .status) 1 1 1 :: rest := rfl

/-! ### The core completes -/

theorem Completes.withAgenda {s t : State} (h : Completes s t) (agenda : List Action) :
    Completes { s with agenda := agenda } { t with agenda := agenda } :=
  { h with frame := { h.frame with agenda := rfl }, idle := { h.idle with } }

/-- The core's move leaves the block idle, whether it was busy or not (R360). -/
theorem fairMove_busy {s : State} (h : s.Inv) : (fairMove s).busy = false := by
  cases hbusy : s.busy with
  | false => rwa [fairMove_idle hbusy]
  | true => exact (fairMove_completes h hbusy).idle.busy

/-- A `wait` while BUSY finds DONE clear (10_state.md R55), so that the core completes under it. -/
theorem step_wait_busy {s : State} {rest : List Action} (h : s.Inv) (hwf : s.build.wf = true)
    (hbusy : s.busy = true) (hagenda : s.agenda = .poll (offsetOf .status) 1 1 1 :: rest) :
    ∃ u, step s = .next u ∧ Completes (hostRead (offsetOf .status) s) u := by
  obtain ⟨hdone, -⟩ := h.busyClear hbusy
  have hfield : fieldOf 1 1 (hostReadValue (offsetOf .status) s) ≠ (1 : Word).toNat := by
    simp [fieldOf_statusDone (h.released hbusy), hdone]
  exact ⟨_, step_poll_unsatisfied hwf hagenda hfield,
    (fairMove_completes ((h.withAgenda rest).hostRead (offsetOf .status)) hbusy).withAgenda
      s.agenda⟩

/-- A `wait` with DONE set is over after its one read. -/
theorem step_wait_done {s : State} {rest : List Action} (hwf : s.build.wf = true)
    (hrst : s.rstN = true) (hdone : s.done = true)
    (hagenda : s.agenda = .poll (offsetOf .status) 1 1 1 :: rest) :
    step s = .next (hostRead (offsetOf .status) { s with agenda := rest }) :=
  step_poll_satisfied hwf hagenda (by simp [fieldOf_statusDone hrst, hdone])

theorem run_succ {M : Host.Core} {k : Nat} {s u : M.State} (h : M.step s = .next u) :
    M.run (k + 1) s = M.run k u := by
  rw [Host.Core.run, h]

theorem run_succ_next {M : Host.Core} {k : Nat} {s t : M.State} (h : M.run (k + 1) s = .next t) :
    ∃ u, M.step s = .next u ∧ M.run k u = .next t := by
  cases hstep : M.step s with
  | next u => exact ⟨u, rfl, run_succ hstep ▸ h⟩
  | fault | refused => rw [Host.Core.run, hstep] at h; cases h

/-- Without polls the agenda is used up action by action, and the core's move then ends what is
still in flight (R360). -/
theorem run_agenda_idle (n : Nat) : ∀ {s t : State}, s.Inv →
    (∀ off hi lo v, Action.poll off hi lo v ∉ s.agenda) → s.agenda.length = n →
    core.run (n + 1) s = .next t → t.busy = false ∧ t.agenda = [] := by
  induction n with
  | zero =>
    intro s t h _ hlen hrun
    have hagenda := List.length_eq_zero_iff.1 hlen
    obtain ⟨u, hstep, hrun⟩ := run_succ_next hrun
    cases hrun
    obtain ⟨-, ⟨-, rfl⟩ | ⟨a, rest, hcons, -⟩⟩ := step_next hstep
    · exact ⟨fairMove_busy h, (fairMove_frame s).agenda.trans hagenda⟩
    · simp [hagenda] at hcons
  | succ n ih =>
    intro s t h hpoll hlen hrun
    obtain ⟨u, hstep, hrun⟩ := run_succ_next hrun
    obtain ⟨-, ⟨hnil, -⟩ | ⟨a, rest, hcons, hperform⟩⟩ := step_next hstep
    · simp [hnil] at hlen
    · rw [hcons] at hpoll hlen
      have hrest : u.agenda = rest := perform_agenda
        (fun off hi lo v ha => hpoll off hi lo v (ha ▸ List.mem_cons_self)) hperform
      refine ih ((h.withAgenda rest).perform hperform) (fun off hi lo v hmem => ?_)
        (hrest ▸ Nat.succ.inj hlen) hrun
      exact hpoll off hi lo v (List.mem_cons_of_mem a (hrest ▸ hmem))

/-- Settles O29: by induction on the agenda (`run_agenda_idle`); a `wait` is the core's move under an
unsatisfied poll, then a satisfied one; and a poll is one or the other. -/
theorem busyCoreEventuallyCompletes : Obligations.BusyCoreEventuallyCompletes := by
  refine ⟨fun s t h hpoll => run_agenda_idle _ h hpoll rfl, ?wait, ?poll⟩
  case wait =>
    intro s rest h hwf hbusy hagenda
    rw [programAgenda_wait] at hagenda
    obtain ⟨u, hstep, hcompletes⟩ := step_wait_busy h hwf hbusy hagenda
    have hread := step_wait_done (by rwa [hcompletes.frame.build])
      (hcompletes.frame.rstN.trans (h.released hbusy)) hcompletes.idle.done
      (hcompletes.frame.agenda.trans hagenda)
    exact ⟨_, (run_succ hstep).trans (run_succ hread), hcompletes.idle.busy, hcompletes.idle.done,
      rfl⟩
  case poll =>
    intro s t off hi lo v rest hagenda hread
    have hwf : s.build.wf = true := (step_next hread).1
    have hstep := step_action (s := { s with agenda := .hostRead off :: rest }) hwf rfl
    obtain rfl := Host.Outcome.next.inj (hstep.symm.trans hread)
    refine ⟨step_poll_satisfied hwf hagenda, fun hfield => ⟨_,
      step_poll_unsatisfied hwf hagenda hfield, rfl, (fairMove_frame _).regRdata, fun hbusy => ?_⟩⟩
    rw [fairMove_idle (s := hostRead off { s with agenda := rest }) hbusy]

/-! ### Reset -/

theorem assertReset_idle {s : State} (hbusy : s.busy = false) :
    assertReset s = resetRegisters s := by
  simp [assertReset, hbusy]

/-- Every register but CFG, a constant of the build, falls to its value after reset (10_state.md
R57). -/
theorem readReg_resetRegisters {r : RegName} (hr : r ≠ .cfg) (s : State) :
    readReg r (resetRegisters s) = readReg r State.reset := by
  cases r with
  | cfg => exact absurd rfl hr
  | id | ctrl | cmd | status | errCode | srcAddr | srcLen | dstAddr | dstCap | outLen => rfl

theorem readReg_assertReset {r : RegName} {v : Word} (hv : readReg r State.reset = v)
    (hr : r ≠ .cfg) (s : State) : readReg r (assertReset s) = v :=
  (readReg_resetRegisters hr _).trans hv

/-- Settles O11: whatever is in flight, the registers fall to the values of R57
(`resetRegisterValues`), and only a busy block has a destination to spoil. -/
theorem resetSetsRegistersAndAbandons : Obligations.ResetSetsRegistersAndAbandons := by
  refine ⟨fun s rest hwf hagenda => ?falls, fun s rest hwf hagenda => ?rises⟩
  case falls =>
    obtain ⟨hid, -, hctrl, hstatus, herr, hsrc, hlen, hdst, hcap, hout, -⟩ := resetRegisterValues
    have hcfg : readReg .cfg (assertReset { s with agenda := rest }) = readReg .cfg s := by
      simp only [readReg, State.cfgWord, (assertReset_sameBuild _).build]
    refine ⟨_, step_action hwf hagenda, rfl, readReg_assertReset hctrl nofun _,
      readReg_assertReset hstatus nofun _, readReg_assertReset herr nofun _,
      readReg_assertReset hsrc nofun _, readReg_assertReset hlen nofun _,
      readReg_assertReset hdst nofun _, readReg_assertReset hcap nofun _,
      readReg_assertReset hout nofun _, rfl, rfl, rfl, readReg_assertReset hid nofun _, hcfg,
      assertReset_keepsOutside { s with agenda := rest }, fun hbusy a => ?_⟩
    rw [assertReset_idle (s := { s with agenda := rest }) hbusy, resetRegisters_mem]
  case rises =>
    refine ⟨_, step_action hwf hagenda, rfl, fun h hrst => ?_⟩
    obtain ⟨hirq, hbusy, hdone, -⟩ := h.inReset hrst
    exact ⟨hbusy, hirq, hdone, by simp [State.irq, hdone]⟩

/-- Settles O12: in reset a write is ignored, and a read changes nothing but the value read. -/
theorem hostAccessesInResetHaveNoEffect : Obligations.HostAccessesInResetHaveNoEffect :=
  fun _ _ _ _ hwf hrst =>
    ⟨fun hagenda => (step_action hwf hagenda).trans (hostWrite_inReset hrst),
      fun hagenda => ⟨_, _, step_action hwf hagenda⟩⟩

/-! ### Hazards -/

theorem regionHas_of_bounds {r : Config.Region} {a : Nat}
    (h : r.base ≤ a ∧ a < r.base + r.size) : regionHas r a = true := decide_eq_true h

theorem dataWrite_hazard {addr : Word} {b : Byte} {s : State} (hbusy : s.busy = true)
    (hregion : (regionHas s.srcRegion addr.toNat || regionHas s.dstRegion addr.toNat) = true) :
    dataWrite addr b s = .fault .hazardWrite := by
  simp only [dataWrite, hbusy, hregion, Bool.and_self, if_true]

theorem dataRead_destination {addr : Word} {s : State} (hbusy : s.busy = true)
    (hdevice : s.isDevice addr.toNat = false) (hdst : regionHas s.dstRegion addr.toNat = true) :
    dataRead addr s = .next
      { s with dataRdata := Config.freeByte s.draws addr.toNat, draws := s.draws + 1 } := by
  simp [dataRead, hbusy, hdevice, hdst]

/-- Settles O30: an address in a region of the operation in flight is `dataWrite_hazard` for a write
and `dataRead_destination` for a read. -/
theorem hazardsWhileBusy : Obligations.HazardsWhileBusy := by
  refine fun s addr b rest hwf hbusy =>
    ⟨fun hagenda hregion => ?write, fun hagenda hdevice hdst => ?read⟩
  case write =>
    rw [step_action hwf hagenda]
    exact dataWrite_hazard (s := { s with agenda := rest }) hbusy
      (Bool.or_eq_true_iff.2 (hregion.imp regionHas_of_bounds regionHas_of_bounds))
  case read =>
    rw [step_action hwf hagenda]
    exact ⟨_, _, dataRead_destination (s := { s with agenda := rest }) hbusy hdevice
      (regionHas_of_bounds hdst)⟩

end Sys2Proof.Machine
